-- ==== Sys2Proof/Word.lean ====
section
/-! DEFINITION. The value types of the HUFF block: the 32-bit bus word, the byte (a symbol), the
bit string of 00_scope.md R8. All values are unsigned (R8). -/

namespace Sys2Proof

/-- A host bus data word, a register or a table word (00_scope.md R6, REG_W = 32). -/
abbrev Word := BitVec 32

/-- A byte of a buffer; also a symbol, one of the 256 byte values, all of equal standing (10_state.md R37). -/
abbrev Byte := BitVec 8

/-- A node weight (00_scope.md R6, WEIGHT_W = 40). -/
abbrev Weight := BitVec 40

/-- A node arena index (00_scope.md R6: 512 slots, so 9 bits). -/
abbrev NodeIndex := BitVec 9

/-- A bit string in emission order, first bit first (00_scope.md R8). -/
abbrev BitString := List Bool

end Sys2Proof
end

