-- ==== Sys2Proof/Syntax.lean ====
section
/-! DEFINITION. The six commands of the HUFF block, one constructor per row of spec/opcode_table.json
(30_encoding.md R91). A command word carries no operands (R90, R94), so no constructor has an argument. -/

namespace Sys2Proof

/-- The commands a host writes to CMD (30_encoding.md R91). -/
inductive Instr where
  /-- CLEAR, OP 1: start a session (40_session_count.md R111). -/
  | clear
  /-- COUNT, OP 2: build the frequency table of the input bytes (40_session_count.md R112). -/
  | count
  /-- BUILD, OP 3: build the Huffman tree of the frequency table (41_tree_builder.md R131). -/
  | build
  /-- ASSIGN, OP 4: generate the code table of the tree (42_code_assigner.md R150). -/
  | assign
  /-- PACK, OP 5: pack the codes of the input bytes (43_bit_packer.md R171). -/
  | pack
  /-- UNPACK, OP 6: decode the packed input with the tree (44_decoder.md R191). -/
  | unpack
deriving DecidableEq, Repr

end Sys2Proof
end

