-- ==== Sys2Proof/WellFormed.lean ====
section
/-! DEFINITION. What may be presented to the block: a command, a command word, a bus byte address.
An instruction has no operand to check (30_encoding.md R90, R94); a command word and an address do. -/

namespace Sys2Proof

/-- The OP field of a command word (30_encoding.md R90). -/
def opField (d : Word) : BitVec 4 := d.extractLsb' 0 4

/-- The RSV field of a command word, which must be 0 (30_encoding.md R90). -/
def rsvField (d : Word) : BitVec 28 := d.extractLsb' 4 28

/-- Every instruction is well formed: it has no operands and no addressing modes (30_encoding.md R94). -/
def Instr.wellFormed : Instr → Bool
  | .clear => true
  | .count => true
  | .build => true
  | .assign => true
  | .pack => true
  | .unpack => true

/-- The reserved bits of a command word are 0 (30_encoding.md R90). -/
def reservedClear (d : Word) : Bool := rsvField d = 0#28

/-- The OP of a command word is one of the six assigned ones, 1 to 6 (30_encoding.md R91, R92). -/
def opAssigned (d : Word) : Bool := 1#4 ≤ opField d && opField d ≤ 6#4

/-- A legal command word: RSV is 0 and OP is assigned (30_encoding.md R91). -/
def wellFormedWord (d : Word) : Bool := reservedClear d && opAssigned d

/-- A byte address of the 18-bit port (20_memory.md R60). -/
def addressInRange (a : Nat) : Bool := a < 0x40000

/-- A byte address whose two low bits are 0, the only ones the port can carry (20_memory.md R60, R73). -/
def addressAligned (a : Nat) : Bool := a % 4 = 0

/-- A byte address that a bus transaction can present (20_memory.md R60). -/
def wellFormedAddress (a : Nat) : Bool := addressInRange a && addressAligned a

end Sys2Proof
end

