-- ==== Sys2Proof/Decode.lean ====
section
/-! DEFINITION. The command decoder (30_encoding.md R91, R92): total on every 32-bit command word, rejecting an
illegal one by name; and the encoder, written from the same opcode map. -/

namespace Sys2Proof

/-- Why a command word is illegal (30_encoding.md R92). -/
inductive Reject where
  /-- Some bit of RSV is not 0. -/
  | reservedBits (rsv : BitVec 28)
  /-- RSV is 0 and OP is 0x0 or 0x7 to 0xF. -/
  | unassignedOp (op : BitVec 4)
deriving DecidableEq, Repr

/-- The opcode map on the OP field alone (30_encoding.md R91). -/
def decodeOp (op : BitVec 4) : Except Reject Instr :=
  match op.toNat with
  | 1 => .ok .clear
  | 2 => .ok .count
  | 3 => .ok .build
  | 4 => .ok .assign
  | 5 => .ok .pack
  | 6 => .ok .unpack
  | _ => .error (.unassignedOp op)

/-- The decoder matches the whole word: RSV must be 0 and OP must be assigned (30_encoding.md R91, R92). -/
def decode (d : Word) : Except Reject Instr :=
  if reservedClear d then decodeOp (opField d) else .error (.reservedBits (rsvField d))

/-- The OP number of a command (30_encoding.md R91). -/
def Instr.op : Instr → BitVec 4
  | .clear => 0x1#4
  | .count => 0x2#4
  | .build => 0x3#4
  | .assign => 0x4#4
  | .pack => 0x5#4
  | .unpack => 0x6#4

/-- The command word of a command: OP in bits 3:0 and 0 in bits 31:4 (30_encoding.md R90, R91). -/
def encode (i : Instr) : Word := 0#28 ++ i.op

/-- The command word that the opcode table's numbering gives: the one 32-bit word, bits at and above `nbits` being 0.
A command is never longer than one word (30_encoding.md R90, R96). -/
def commandWord (nbits w : Nat) : Nat := w % 2 ^ nbits

/-- What the decoder reads from the bits of an opcode-table row; a value that does not fit the one 32-bit
command word is none (30_encoding.md R90). -/
def decodeTableWord (nbits w : Nat) : Option Instr :=
  if commandWord nbits w < 2 ^ 32 then (decode (BitVec.ofNat 32 (commandWord nbits w))).toOption else none

end Sys2Proof
end

