-- ==== Sys2Proof/Config.lean ====
section
/-! DEFINITION. The parameters of 00_scope.md R6 and the constant of the ID register. The parameters the spec
leaves OPEN are not here: CMD_LATENCY is the schedule held in State.inputs (log entry 1), RESET_FREQ and RESET_BUF
are the contents a reset input carries (log entry 3), BUS_BINDING is outside the model (log entry 10). -/

namespace Sys2Proof.Config

/-- NSYM: the number of symbol values (R6). -/
abbrev nsym : Nat := 256

/-- NODE_SLOTS: slots of the node arena (R6). -/
abbrev nodeSlots : Nat := 512

/-- BUF_BYTES: bytes in IN_MEM and in OUT_MEM each (R6). -/
abbrev bufBytes : Nat := 65536

/-- The most bits a packed output may have: 8 · BUF_BYTES (43_bit_packer.md R171). -/
abbrev bufBits : Nat := 8 * bufBytes

/-- The recursion bound of the code assigner's walk: MAX_LEN + 1 nodes lie on the longest path (R6, R7). -/
abbrev walkFuel : Nat := 256

/-- The identification value the ID register reads (10_state.md R22). -/
def idValue : Word := 0x48554607#32

/-- What a byte of IN_MEM or OUT_MEM that the memory does not list reads as. DESIGN CHOICE, unsafe (log entry 2):
the spec leaves the contents after reset open, and a reset input that carries other contents lists them. -/
def unlistedByte : Byte := 0#8

/-- What each FREQ entry holds in `State.reset`. DESIGN CHOICE, unsafe (log entry 2). -/
def powerOnFreq : Word := 0#32

end Sys2Proof.Config
end

