-- ==== Sys2Proof/Machine/State.lean ====
section
/-! DEFINITION. The state of the HUFF block (10_state.md R20) and, beside it, what the two agents of 00_scope.md R11
still have to do and have learned: the pending inputs and the replies (log entry 1). -/

namespace Sys2Proof.Machine

/-- One slot of the node arena: a leaf or an internal node, told apart by the kind and never by a symbol value
(10_state.md R37, R40; log entry 4). -/
inductive Node where
  /-- A leaf: its symbol and its weight. -/
  | leaf (sym : Byte) (weight : Weight)
  /-- An internal node: its two children and its weight. -/
  | internal (left right : NodeIndex) (weight : Weight)
deriving DecidableEq, Repr

/-- One entry of the code table (10_state.md R42): the codeword is the `len`-bit number `value`, its first bit on top. -/
structure CodeEntry where
  valid : Bool
  len : BitVec 8
  value : BitVec 256
deriving DecidableEq, Repr

/-- The bytes of IN_MEM or of OUT_MEM that differ from what an unlisted byte reads as, by index. -/
abbrev Memory := List Host.Cell

/-- The canonical form of a buffer: indices strictly rising, each below BUF_BYTES, and no entry equal to what an
unlisted index reads as. -/
abbrev Memory.wf (m : Memory) : Prop :=
  m.Pairwise (fun a b => a.1 < b.1) ∧ ∀ c ∈ m, c.2 ≠ Config.unlistedByte ∧ c.1 < Config.bufBytes

/-- The result codes of STATUS.ERRCODE (60_exceptions.md R213). -/
inductive ErrCode where
  /-- 0: success. -/
  | ok
  /-- 1: BUILD found every FREQ entry 0. -/
  | emptyInput
  /-- 2: reserved, never produced (R218). -/
  | degenerateTree
  /-- 3: PACK met an input byte without a valid code. -/
  | unknownSymbol
  /-- 4: UNPACK's padding count is above 7 or above the number of bits. -/
  | invalidPadding
  /-- 5: UNPACK ended inside a path, or met bit 1 with a one-leaf tree. -/
  | malformedData
  /-- 6: the command word is none of the six. -/
  | illegalCommand
  /-- 7: ASSIGN or UNPACK with TREE_VALID = 0. -/
  | noTree
  /-- 8: IN_LEN is above BUF_BYTES. -/
  | length
  /-- 9: the output would exceed BUF_BYTES bytes. -/
  | outputOverflow
deriving DecidableEq, Repr

/-- The engine state `eng` (10_state.md R46); while busy the whole accepted command word is kept
(60_exceptions.md R211; log entry 5). -/
inductive Engine where
  | idle
  | busy (word : Word)
deriving DecidableEq, Repr

/-- A host bus transaction at a word address a[17:2]; the port has no address bits below bit 2 (20_memory.md R60, R73). -/
inductive Access where
  /-- `(R, a)`: a 32-bit read. -/
  | read (addr : BitVec 16)
  /-- `(W, a, d)`: a 32-bit write. -/
  | write (addr : BitVec 16) (data : Word)
deriving DecidableEq, Repr

/-- The contents that reset leaves unspecified (70_reset_and_hazards.md R241): any FREQ entries, any node slots, any
code lengths and values, any buffer bytes (byte i of a list is its i-th element; a byte past its end reads as
an unlisted one). -/
structure ResetDraw where
  freq : Vector Word Config.nsym
  nodes : Vector Node Config.nodeSlots
  codes : Vector CodeEntry Config.nsym
  inBytes : List Byte
  outBytes : List Byte
deriving DecidableEq, Repr

/-- What the outside world does to the block: a host transaction (20_memory.md R60), or the reset input, which
carries the unspecified contents reset leaves (70_reset_and_hazards.md R240, R241). -/
inductive Event where
  | host (access : Access)
  | reset (draw : ResetDraw)
deriving DecidableEq, Repr

/-- A pending input. `engineFirst` is the schedule's choice: if a command is in flight when this input is next, the
engine's completion step comes before it (60_exceptions.md R212, 70_reset_and_hazards.md R251; log entry 1). -/
structure Input where
  engineFirst : Bool
  event : Event
deriving DecidableEq, Repr

/-- The machine. Every field down to `eng` is the spec's (10_state.md R20); `inputs` and `replies` are the model's own. -/
structure State where
  /-- CTRL.IE, the interrupt enable (10_state.md R23). -/
  ie : Bool
  /-- STATUS.DONE (10_state.md R25). -/
  done : Bool
  /-- STATUS.ERRCODE (10_state.md R25). -/
  errCode : ErrCode
  /-- STATUS.TREE_VALID (10_state.md R25). -/
  treeValid : Bool
  /-- STATUS.HOSTERR (10_state.md R25). -/
  hostErr : Bool
  /-- IN_LEN (10_state.md R27). -/
  inLen : Word
  /-- OUT_LEN, bits 16:0 (10_state.md R28). -/
  outLen : BitVec 17
  /-- PAD, bits 7:0 (10_state.md R29). -/
  pad : BitVec 8
  /-- ROOT, bits 8:0 (10_state.md R30). -/
  root : NodeIndex
  /-- NODE_COUNT, bits 9:0 (10_state.md R31). -/
  nodeCount : BitVec 10
  /-- SYM_COUNT, bits 8:0 (10_state.md R32). -/
  symCount : BitVec 9
  /-- TOTAL_BITS (10_state.md R33). -/
  totalBits : Word
  /-- ERR_INFO (10_state.md R34). -/
  errInfo : Word
  /-- FREQ, the frequency table (10_state.md R39). -/
  freq : Vector Word Config.nsym
  /-- NODE, the node arena (10_state.md R40). -/
  nodes : Vector Node Config.nodeSlots
  /-- CODE, the code table (10_state.md R42). -/
  codes : Vector CodeEntry Config.nsym
  /-- IN_MEM (10_state.md R44). -/
  inMem : Memory
  /-- OUT_MEM (10_state.md R45). -/
  outMem : Memory
  /-- `eng` (10_state.md R46). -/
  eng : Engine
  /-- MODEL'S OWN: the host transactions and resets still to come, oldest first, with the schedule's choices (log entry 1). -/
  inputs : List Input
  /-- MODEL'S OWN: the values the host's reads returned, oldest first (70_reset_and_hazards.md R253; log entry 1). -/
  replies : List Word
deriving DecidableEq, Repr

/-- Why a step stops with a fault. The block raises no traps, and every command word, every host access and every
reset has an effect (60_exceptions.md R210, 30_encoding.md R93), so no step of this model answers a fault. -/
inductive Fault where
  /-- Raised by nothing: the name of the trap the block does not have (60_exceptions.md R210). It keeps the type
  inhabited and no definition mentions it; safe (log entry 11). -/
  | trap
deriving DecidableEq, Repr

/-- Why a step is refused. -/
inductive Refusal where
  /-- Raised by `exec` for a command that has no meaning yet; safe. No arm of this model raises it. -/
  | notModelled (mnemonic : String)
deriving DecidableEq, Repr

/-- The state right after reset (70_reset_and_hazards.md R241). FREQ, IN_MEM, OUT_MEM, the node slots and the code
lengths and values, which reset leaves unspecified, hold the values of log entry 2 (DESIGN CHOICE, unsafe); `State.afterReset`
gives the state for every other contents. No input is pending and no read has been made (log entries 1, 9). -/
def State.reset : State where
  ie := false
  done := false
  errCode := .ok
  treeValid := false
  hostErr := false
  inLen := 0#32
  outLen := 0#17
  pad := 0#8
  root := 0#9
  nodeCount := 0#10
  symCount := 0#9
  totalBits := 0#32
  errInfo := 0#32
  freq := Vector.replicate Config.nsym Config.powerOnFreq
  nodes := Vector.replicate Config.nodeSlots (.internal 0#9 0#9 0#40)
  codes := Vector.replicate Config.nsym ⟨false, 0#8, 0#256⟩
  inMem := []
  outMem := []
  eng := .idle
  inputs := []
  replies := []

end Sys2Proof.Machine
end

