-- ==== Sys2Proof/Machine/Ops.lean ====
section
/-! DEFINITION. The shared operations: the byte buffers, the three tables, accepting a command, completing one,
raising an error, and the reset step. -/

namespace Sys2Proof.Machine

/-! ### Byte buffers IN_MEM and OUT_MEM -/

/-- The byte at index `i` of a buffer (10_state.md R44, R45). -/
def Memory.read : Memory → Nat → Byte
  | [], _ => Config.unlistedByte
  | c :: m, i => if c.1 = i then c.2 else Memory.read m i

/-- The entries of consecutive bytes from index `base` on, in canonical form. -/
def Memory.cells : Nat → List Byte → Memory
  | _, [] => []
  | base, b :: bs => if b = Config.unlistedByte then cells (base + 1) bs else (base, b) :: cells (base + 1) bs

/-- Write consecutive bytes from index `base` on: `X[base + j] <- bytes[j]` (00_scope.md R9). -/
def Memory.writeBytes (m : Memory) (base : Nat) (bytes : List Byte) : Memory :=
  m.filter (fun c => c.1 < base) ++ Memory.cells base bytes ++ m.filter (fun c => base + bytes.length ≤ c.1)

/-- Byte `j` of a 32-bit word, byte 0 the least significant (20_memory.md R69, R72). -/
def byteOfWord (d : Word) (j : Nat) : Byte := d.extractLsb' (8 * j) 8

/-- The word whose byte `j` is `b j`, byte 0 the least significant (20_memory.md R69, R72). -/
def wordOfBytes (b0 b1 b2 b3 : Byte) : Word := b3 ++ b2 ++ b1 ++ b0

/-- Write the four bytes of word `m` of a buffer, little-endian (20_memory.md R69). -/
def Memory.writeWord (mem : Memory) (m : Nat) (d : Word) : Memory :=
  mem.writeBytes (4 * m) [byteOfWord d 0, byteOfWord d 1, byteOfWord d 2, byteOfWord d 3]

/-- The word of the four bytes 4m .. 4m+3 that `byteAt` gives, little-endian (20_memory.md R69, R71). -/
def wordAt (byteAt : Nat → Byte) (m : Nat) : Word :=
  wordOfBytes (byteAt (4 * m)) (byteAt (4 * m + 1)) (byteAt (4 * m + 2)) (byteAt (4 * m + 3))

/-! ### Tables -/

/-- `FREQ[s]` (10_state.md R39). -/
def State.freqAt (s : State) (sym : Byte) : Word := s.freq[sym.toNat]'sym.isLt

/-- `NODE[n]` of an arena (10_state.md R40). -/
def nodeAt (nodes : Vector Node Config.nodeSlots) (n : NodeIndex) : Node := nodes[n.toNat]'n.isLt

/-- `CODE[s]` of a code table (10_state.md R42). -/
def codeAt (codes : Vector CodeEntry Config.nsym) (sym : Byte) : CodeEntry := codes[sym.toNat]'sym.isLt

/-- `FREQ[s] <- v` in a frequency table (00_scope.md R9). -/
def setFreq (freq : Vector Word Config.nsym) (sym : Byte) (v : Word) : Vector Word Config.nsym :=
  freq.set sym.toNat v sym.isLt

/-- `CODE[s] <- e` in a code table (00_scope.md R9). -/
def setCode (codes : Vector CodeEntry Config.nsym) (sym : Byte) (e : CodeEntry) : Vector CodeEntry Config.nsym :=
  codes.set sym.toNat e sym.isLt

/-- Write consecutive node slots from slot 0 on; the slots past the list keep their contents (41_tree_builder.md R131). -/
def storeNodes (nodes : Vector Node Config.nodeSlots) (arena : List Node) : Vector Node Config.nodeSlots :=
  nodes.mapIdx (fun n old => (arena[n]?).getD old)

/-- `CODE[s].valid <- 0` for every s; lengths and values are kept (40_session_count.md R111, 41_tree_builder.md R131). -/
def invalidateCodes (codes : Vector CodeEntry Config.nsym) : Vector CodeEntry Config.nsym :=
  codes.mapIdx (fun _ e => { e with valid := false })

/-- The frequency table with every entry 0 (40_session_count.md R111, R112). -/
def zeroFreq : Vector Word Config.nsym := Vector.replicate Config.nsym 0#32

/-- The code table with every entry (valid = 0, len = 0, value = 0) (42_code_assigner.md R150). -/
def emptyCodes : Vector CodeEntry Config.nsym := Vector.replicate Config.nsym ⟨false, 0#8, 0#256⟩

/-! ### The life of a command -/

/-- Command acceptance: the engine keeps the whole word and DONE and ERRCODE are cleared; nothing else changes
(60_exceptions.md R211). BUSY is `eng` not being idle (10_state.md R25). -/
def State.accept (s : State) (d : Word) : State :=
  { s with eng := .busy d, done := false, errCode := .ok }

/-- Command completion: ERRCODE and ERR_INFO take the result, BUSY falls, DONE rises, all in the step of the command's
own writes (60_exceptions.md R212). -/
def State.complete (s : State) (e : ErrCode) (info : Word) : State :=
  { s with eng := .idle, done := true, errCode := e, errInfo := info }

/-- `complete()`: the command ends with success, ERRCODE = 0 and ERR_INFO = 0 (60_exceptions.md R212). -/
def State.succeed (s : State) : State := s.complete .ok 0#32

/-- An error and its ERR_INFO, as `raise E(info)` gives them (60_exceptions.md R214, R215). -/
structure Raise where
  code : ErrCode
  info : Word
deriving DecidableEq, Repr

/-- `raise E(info)`: the command ends with the error, every write made before it standing (60_exceptions.md R214).
This is the block's whole exception mechanism: it has no traps, vectors or saved registers (60_exceptions.md R210, R221). -/
def State.raise (s : State) (r : Raise) : State := s.complete r.code r.info

/-- The engine's completion step for an illegal command word `d`: ILLEGAL_COMMAND with ERR_INFO = d and no other
effect (30_encoding.md R92, 60_exceptions.md R215). -/
def State.completeIllegal (s : State) (d : Word) : State := s.raise ⟨.illegalCommand, d⟩

/-! ### Reset -/

/-- The reset step: every piece of the block's state takes its value after reset, the unspecified contents being those
of the draw; a command in flight is abandoned (70_reset_and_hazards.md R240, R241). What the host has still to do and has
read is not the block's and is kept. -/
def State.afterReset (s : State) (draw : ResetDraw) : State where
  ie := false
  done := false
  errCode := .ok
  treeValid := false
  hostErr := false
  inLen := 0#32
  outLen := 0#17
  pad := 0#8
  root := 0#9
  nodeCount := 0#10
  symCount := 0#9
  totalBits := 0#32
  errInfo := 0#32
  freq := draw.freq
  nodes := draw.nodes
  codes := invalidateCodes draw.codes
  inMem := Memory.cells 0 (draw.inBytes.take Config.bufBytes)
  outMem := Memory.cells 0 (draw.outBytes.take Config.bufBytes)
  eng := .idle
  inputs := s.inputs
  replies := s.replies

end Sys2Proof.Machine
end

