-- ==== Sys2Proof/Machine/Flags.lean ====
section
/-! DEFINITION. The STATUS and CTRL registers as the host sees and writes them, and the interrupt output
(10_state.md R23, R25, R26; 60_exceptions.md R219). -/

namespace Sys2Proof.Machine

/-- The numbers of STATUS.ERRCODE (60_exceptions.md R213). -/
def ErrCode.bits : ErrCode → BitVec 4
  | .ok => 0#4
  | .emptyInput => 1#4
  | .degenerateTree => 2#4
  | .unknownSymbol => 3#4
  | .invalidPadding => 4#4
  | .malformedData => 5#4
  | .illegalCommand => 6#4
  | .noTree => 7#4
  | .length => 8#4
  | .outputOverflow => 9#4

/-- STATUS.BUSY: 1 exactly when `eng` is not idle (10_state.md R25). -/
def State.busy (s : State) : Bool := s.eng ≠ .idle

/-- STATUS.ERROR: ERRCODE is not 0; not separately stored (10_state.md R25). -/
def State.error (s : State) : Bool := s.errCode.bits ≠ 0#4

/-- The word a read of STATUS returns: BUSY 0, DONE 1, ERROR 2, ERRCODE 11:8, TREE_VALID 16, HOSTERR 17, the other
bits 0 (10_state.md R25). -/
def State.statusWord (s : State) : Word :=
  0#14 ++ BitVec.ofBool s.hostErr ++ BitVec.ofBool s.treeValid ++ 0#4 ++ s.errCode.bits ++ 0#5
    ++ BitVec.ofBool s.error ++ BitVec.ofBool s.done ++ BitVec.ofBool s.busy

/-- A write to STATUS: bit 1 clears DONE, bit 17 clears HOSTERR, every other written bit is ignored (10_state.md R25). -/
def State.writeStatus (s : State) (d : Word) : State :=
  { s with done := s.done && !d.getLsbD 1, hostErr := s.hostErr && !d.getLsbD 17 }

/-- The word a read of CTRL returns: IE in bit 0, the other bits 0 (10_state.md R23). -/
def State.ctrlWord (s : State) : Word := (BitVec.ofBool s.ie).setWidth 32

/-- A write to CTRL stores IE (10_state.md R23). -/
def State.writeCtrl (s : State) (d : Word) : State := { s with ie := d.getLsbD 0 }

/-- A host access refused while busy sets HOSTERR (20_memory.md R70, 60_exceptions.md R222). -/
def State.refuseAccess (s : State) : State := { s with hostErr := true }

/-- The interrupt output, level-sensitive and active high: CTRL.IE and STATUS.DONE (60_exceptions.md R219). -/
def State.irq (s : State) : Bool := s.ie && s.done

end Sys2Proof.Machine
end

