-- ==== Sys2Proof/Machine/Bus.lean ====
section
/-! DEFINITION. The host bus: the address map, what a read returns, what a write does, and the accesses refused while
the engine is busy (20_memory.md R60 to R72). -/

namespace Sys2Proof.Machine

/-- The twelve registers (10_state.md R21). -/
inductive Reg where
  | id | ctrl | cmd | status | inLen | outLen | pad | root | nodeCount | symCount | totalBits | errInfo
deriving DecidableEq, Repr

/-- What a word address names (20_memory.md R63). -/
inductive Loc where
  /-- A register. -/
  | reg (r : Reg)
  /-- FREQ[s]. -/
  | freq (sym : Byte)
  /-- Word k of node slot n. -/
  | node (n : NodeIndex) (k : BitVec 2)
  /-- Word k of code table entry s. -/
  | code (sym : Byte) (k : BitVec 4)
  /-- Word m of IN_MEM. -/
  | inWord (m : BitVec 14)
  /-- Word m of OUT_MEM. -/
  | outWord (m : BitVec 14)
  /-- An address that names nothing. -/
  | reserved
deriving DecidableEq, Repr

/-- The register at word offset `k` of the register region (10_state.md R21), byte offset 4k. -/
def Reg.ofOffset : Nat → Option Reg
  | 0 => some .id
  | 1 => some .ctrl
  | 2 => some .cmd
  | 3 => some .status
  | 4 => some .inLen
  | 5 => some .outLen
  | 6 => some .pad
  | 7 => some .root
  | 8 => some .nodeCount
  | 9 => some .symCount
  | 10 => some .totalBits
  | 11 => some .errInfo
  | _ => none

/-- The address map (20_memory.md R63). The byte address is 4 · the word address. -/
def locate (addr : BitVec 16) : Loc :=
  let a := 4 * addr.toNat
  if a < 0x30 then ((Reg.ofOffset addr.toNat).map Loc.reg).getD .reserved
  else if a < 0x400 then .reserved
  else if a < 0x800 then .freq (addr.extractLsb' 0 8)
  else if a < 0x2000 then .reserved
  else if a < 0x4000 then .node (addr.extractLsb' 2 9) (addr.extractLsb' 0 2)
  else if a < 0x8000 then .code (addr.extractLsb' 4 8) (addr.extractLsb' 0 4)
  else if a < 0x10000 then .reserved
  else if a < 0x20000 then .inWord (addr.extractLsb' 0 14)
  else if a < 0x30000 then .outWord (addr.extractLsb' 0 14)
  else .reserved

/-- Word k of a valid node slot (20_memory.md R67): word 0 KIND in bit 0 and SYM in bits 15:8, word 1 LEFT in bits 8:0 and
RIGHT in bits 24:16, words 2 and 3 the weight. -/
def Node.word (n : Node) (k : BitVec 2) : Word :=
  match n, k.toNat with
  | .leaf sym _, 0 => sym.setWidth 32 <<< 8 ||| 1#32
  | .internal _ _ _, 0 => 0#32
  | .leaf _ _, 1 => 0#32
  | .internal left right _, 1 => right.setWidth 32 <<< 16 ||| left.setWidth 32
  | .leaf _ w, 2 => w.setWidth 32
  | .internal _ _ w, 2 => w.setWidth 32
  | .leaf _ w, _ => (w >>> 32).setWidth 32
  | .internal _ _ w, _ => (w >>> 32).setWidth 32

/-- Word k of a valid code table entry (20_memory.md R68): word 0 VALID in bit 31 and LEN in bits 7:0, words 1 to 8 the
value, the rest 0. -/
def CodeEntry.word (e : CodeEntry) (k : BitVec 4) : Word :=
  if k.toNat = 0 then 1#32 <<< 31 ||| e.len.setWidth 32
  else if k.toNat ≤ 8 then e.value.extractLsb' (32 * (k.toNat - 1)) 32
  else 0#32

/-- The byte of OUT_MEM the host sees: 0 at and past OUT_LEN (10_state.md R28, 20_memory.md R71). -/
def State.outByte (s : State) (i : Nat) : Byte := if i < s.outLen.toNat then s.outMem.read i else 0#8

/-- What a register reads as (10_state.md R21 to R34). -/
def State.readReg (s : State) : Reg → Word
  | .id => Config.idValue
  | .ctrl => s.ctrlWord
  | .cmd => 0#32
  | .status => s.statusWord
  | .inLen => s.inLen
  | .outLen => s.outLen.setWidth 32
  | .pad => s.pad.setWidth 32
  | .root => s.root.setWidth 32
  | .nodeCount => s.nodeCount.setWidth 32
  | .symCount => s.symCount.setWidth 32
  | .totalBits => s.totalBits
  | .errInfo => s.errInfo

/-- The value the address map gives for a location (20_memory.md R61, R64 to R69, R71). -/
def State.peek (s : State) : Loc → Word
  | .reg r => s.readReg r
  | .freq sym => s.freqAt sym
  | .node n k => if n.toNat < s.nodeCount.toNat then (nodeAt s.nodes n).word k else 0#32
  | .code sym k => if (codeAt s.codes sym).valid then (codeAt s.codes sym).word k else 0#32
  | .inWord m => wordAt s.inMem.read m.toNat
  | .outWord m => wordAt s.outByte m.toNat
  | .reserved => 0#32

/-- What an accepted write does to a register (20_memory.md R65): CTRL, IN_LEN and PAD store their writable bits, a write
to STATUS clears, a write to CMD is command acceptance, a read-only register ignores it. -/
def State.writeReg (s : State) (d : Word) : Reg → State
  | .id => s
  | .ctrl => s.writeCtrl d
  | .cmd => s.accept d
  | .status => s.writeStatus d
  | .inLen => { s with inLen := d }
  | .outLen => s
  | .pad => { s with pad := d.setWidth 8 }
  | .root => s
  | .nodeCount => s
  | .symCount => s
  | .totalBits => s
  | .errInfo => s

/-- What an accepted write does (20_memory.md R62): FREQ and IN_MEM are the host-writable tables, NODE, CODE, OUT_MEM and
the reserved addresses ignore writes (10_state.md R38, 20_memory.md R64). -/
def State.poke (s : State) (d : Word) : Loc → State
  | .reg r => s.writeReg d r
  | .freq sym => { s with freq := setFreq s.freq sym d }
  | .node _ _ => s
  | .code _ _ => s
  | .inWord m => { s with inMem := s.inMem.writeWord m.toNat d }
  | .outWord _ => s
  | .reserved => s

/-- The locations a read of which is refused while busy (20_memory.md R70). -/
def Loc.readRefused : Loc → Bool
  | .reg .id => false
  | .reg .ctrl => false
  | .reg .cmd => false
  | .reg .status => false
  | .reg .inLen => true
  | .reg .outLen => true
  | .reg .pad => true
  | .reg .root => true
  | .reg .nodeCount => true
  | .reg .symCount => true
  | .reg .totalBits => true
  | .reg .errInfo => true
  | .freq _ => true
  | .node _ _ => true
  | .code _ _ => true
  | .inWord _ => true
  | .outWord _ => true
  | .reserved => false

/-- The locations a write of which is refused while busy: those a read of which is, and CMD (20_memory.md R70). A write to
ID is ignored as when idle and sets no HOSTERR (DEDUCED, log entry 6). -/
def Loc.writeRefused : Loc → Bool
  | .reg .cmd => true
  | l => l.readRefused

/-- A host read: the reply is the value of the address map, or 0 with HOSTERR set if it is refused (20_memory.md R61, R70). -/
def State.hostRead (s : State) (l : Loc) : State :=
  if s.busy && l.readRefused then { s.refuseAccess with replies := s.replies ++ [0#32] }
  else { s with replies := s.replies ++ [s.peek l] }

/-- A host write: the effect of the address map, or nothing but HOSTERR if it is refused (20_memory.md R62, R70). -/
def State.hostWrite (s : State) (l : Loc) (d : Word) : State :=
  if s.busy && l.writeRefused then s.refuseAccess else s.poke d l

/-- One host transaction (20_memory.md R60). -/
def State.access (s : State) : Access → State
  | .read addr => s.hostRead (locate addr)
  | .write addr d => s.hostWrite (locate addr) d

/-- One input from the outside world: a host transaction or the reset input (00_scope.md R11, 70_reset_and_hazards.md R240). -/
def State.deliver (s : State) : Event → State
  | .host a => s.access a
  | .reset draw => s.afterReset draw

end Sys2Proof.Machine
end

