-- ==== Sys2Proof/Machine/Operands.lean ====
section
/-! DEFINITION. The operands of the commands (30_encoding.md R94, R95): the input bytes, the codeword of a table entry,
and the bit streams held in byte buffers (20_memory.md R81). -/

namespace Sys2Proof.Machine

/-- IN_LEN is legal: at most BUF_BYTES (10_state.md R27). -/
def State.lengthOk (s : State) : Bool := s.inLen.toNat ≤ Config.bufBytes

/-- The error of an illegal IN_LEN (60_exceptions.md R213, R215). -/
def State.lengthError (s : State) : Raise := ⟨.length, s.inLen⟩

/-- The input bytes IN_MEM[0 .. IN_LEN-1] (10_state.md R44). -/
def State.inputBytes (s : State) : List Byte := (List.range s.inLen.toNat).map s.inMem.read

/-- `num(p)`: the number a bit string writes, first bit most significant (42_code_assigner.md R150). -/
def num (p : BitString) : Nat := p.foldl (fun acc c => 2 * acc + c.toNat) 0

/-- The valid code table entry that holds the codeword `p` (10_state.md R42, 42_code_assigner.md R150). -/
def codeEntryOf (p : BitString) : CodeEntry := ⟨true, BitVec.ofNat 8 p.length, BitVec.ofNat 256 (num p)⟩

/-- `code(s)`: the codeword of an entry in emission order, VALUE[len-1] down to VALUE[0] (42_code_assigner.md R156). -/
def CodeEntry.bits (e : CodeEntry) : BitString :=
  (List.range e.len.toNat).map (fun k => e.value.getLsbD (e.len.toNat - 1 - k))

/-- The eight bits of a byte, most significant first (20_memory.md R81). -/
def bitsOfByte (b : Byte) : BitString := (List.range 8).map (fun t => b.getLsbD (7 - t))

/-- The bit stream held in a byte buffer, most significant bit first (20_memory.md R81). -/
def streamBits (bytes : List Byte) : BitString := bytes.flatMap bitsOfByte

/-- The byte `Σ_{t=0..7} b_t · 2^(7-t)` of at most eight bits, missing ones being 0 (20_memory.md R81). -/
def byteOfBits (bits : BitString) : Byte :=
  BitVec.ofNat 8 ((List.range 8).foldl (fun acc t => acc + (bits.getD t false).toNat * 2 ^ (7 - t)) 0)

/-- The first `k` bytes of a buffer that holds the bit stream (20_memory.md R81). -/
def packBytes : Nat → BitString → List Byte
  | 0, _ => []
  | k + 1, bits => byteOfBits (bits.take 8) :: packBytes k (bits.drop 8)

end Sys2Proof.Machine
end

