-- ==== Sys2Proof/Machine/BitPacker.lean ====
section
/-! DEFINITION. The bit packer: PACK (43_bit_packer.md). -/

namespace Sys2Proof.Machine

/-- The packing loop over the input bytes from index `i` on, `len` bits having been packed: the bits appended, or the first
error (43_bit_packer.md R171, R172, R175). -/
def packLoop (codes : Vector CodeEntry Config.nsym) : (i len : Nat) → List Byte → Except Raise BitString
  | _, _, [] => .ok []
  | i, len, b :: bs =>
    let e := codeAt codes b
    if !e.valid then .error ⟨.unknownSymbol, BitVec.ofNat 32 i⟩
    else if Config.bufBits < len + e.bits.length then .error ⟨.outputOverflow, BitVec.ofNat 32 i⟩
    else match packLoop codes (i + 1) (len + e.bits.length) bs with
      | .error r => .error r
      | .ok rest => .ok (e.bits ++ rest)

/-- `P = (8 - (T mod 8)) mod 8`: the zero bits appended to T bits (43_bit_packer.md R171, R173). -/
def paddingOf (t : Nat) : Nat := (8 - t % 8) % 8

/-- The bytes of the padded bit string (43_bit_packer.md R171). -/
def packedBytes (bits : BitString) : List Byte :=
  packBytes ((bits.length + paddingOf bits.length) / 8) (bits ++ List.replicate (paddingOf bits.length) false)

/-- PACK: OUT_LEN and TOTAL_BITS are cleared first, then the input is packed; an error leaves PAD and OUT_MEM as they
were (43_bit_packer.md R171; log entry 8). -/
def execPack (s : State) : Host.Outcome State Fault Refusal :=
  let s0 := { s with outLen := 0#17, totalBits := 0#32 }
  if !s.lengthOk then .next (s0.raise s.lengthError)
  else match packLoop s.codes 0 0 s.inputBytes with
    | .error r => .next (s0.raise r)
    | .ok bits =>
      .next { s0 with
        outMem := s.outMem.writeBytes 0 (packedBytes bits)
        outLen := BitVec.ofNat 17 (packedBytes bits).length
        totalBits := BitVec.ofNat 32 bits.length
        pad := BitVec.ofNat 8 (paddingOf bits.length) }.succeed

end Sys2Proof.Machine
end

