-- ==== Sys2Proof/Machine/BitUnpacker.lean ====
section
/-! DEFINITION. The bit unpacker and decoder: UNPACK (44_decoder.md). -/

namespace Sys2Proof.Machine

/-- What a decoding loop has done: the symbols it emitted, and the error that ended it, if one did. -/
structure Decoded where
  symbols : List Byte
  failure : Option Raise
deriving DecidableEq, Repr

/-- One more symbol emitted before the rest. -/
def Decoded.emit (sym : Byte) (d : Decoded) : Decoded := { d with symbols := sym :: d.symbols }

/-- OUTPUT_OVERFLOW at bit j, raised by a symbol that does not fit (44_decoder.md R191, R197). -/
def overflowAt (j : Nat) : Raise := ⟨.outputOverflow, BitVec.ofNat 32 j⟩

/-- MALFORMED_DATA at bit j (44_decoder.md R191, R194, R195). -/
def malformedAt (j : Nat) : Raise := ⟨.malformedData, BitVec.ofNat 32 j⟩

/-- The decoding loop of a one-leaf tree from bit j on, k symbols having been emitted (44_decoder.md R191, R195). -/
def decodeOneLeaf (sym : Byte) : (j k : Nat) → BitString → Decoded
  | _, _, [] => ⟨[], none⟩
  | j, _, true :: _ => ⟨[], some (malformedAt j)⟩
  | j, k, false :: bits =>
    if k = Config.bufBytes then ⟨[], some (overflowAt j)⟩
    else (decodeOneLeaf sym (j + 1) (k + 1) bits).emit sym

/-- The child a bit selects: 0 the left, 1 the right (44_decoder.md R191). The walk never stands on a leaf (R196). -/
def Node.child : Node → Bool → NodeIndex
  | .internal left _ _, false => left
  | .internal _ right _, true => right
  | .leaf _ _, _ => 0#9

/-- The decoding loop of a tree whose root is an internal node, from bit j on, the pointer at node p, k symbols having been
emitted (44_decoder.md R191, R194, R197). -/
def decodeWalk (nodes : Vector Node Config.nodeSlots) (root : NodeIndex) : (j k : Nat) → NodeIndex → BitString → Decoded
  | j, _, p, [] => ⟨[], if p = root then none else some (malformedAt j)⟩
  | j, k, p, bit :: bits =>
    let q := (nodeAt nodes p).child bit
    match nodeAt nodes q with
    | .leaf sym _ =>
      if k = Config.bufBytes then ⟨[], some (overflowAt j)⟩
      else (decodeWalk nodes root (j + 1) (k + 1) root bits).emit sym
    | .internal _ _ _ => decodeWalk nodes root (j + 1) k q bits

/-- The decoding of the retained bits with the tree at `root` (44_decoder.md R191). -/
def decodeBits (nodes : Vector Node Config.nodeSlots) (root : NodeIndex) (bits : BitString) : Decoded :=
  match nodeAt nodes root with
  | .leaf sym _ => decodeOneLeaf sym 0 0 bits
  | .internal _ _ _ => decodeWalk nodes root 0 0 root bits

/-- `N = 8 · IN_LEN - PAD`: the number of retained bits (44_decoder.md R191). -/
def State.retainedCount (s : State) : Nat := 8 * s.inLen.toNat - s.pad.toNat

/-- The retained bits of the packed buffer: the last PAD bits are dropped unread (44_decoder.md R191, R193). -/
def State.retainedBits (s : State) : BitString := (streamBits s.inputBytes).take s.retainedCount

/-- The operand checks of UNPACK, in their order (44_decoder.md R191, R192; 60_exceptions.md R216). -/
def State.unpackCheck (s : State) : Option Raise :=
  if !s.lengthOk then some s.lengthError
  else if 7 < s.pad.toNat then some ⟨.invalidPadding, s.pad.setWidth 32⟩
  else if 8 * s.inLen.toNat < s.pad.toNat then some ⟨.invalidPadding, s.pad.setWidth 32⟩
  else if !s.treeValid then some ⟨.noTree, 0#32⟩
  else none

/-- UNPACK: OUT_LEN and TOTAL_BITS are cleared first, then the retained bits are decoded into OUT_MEM; an error keeps the
bytes written before it, which nothing can observe, and OUT_LEN = 0 (44_decoder.md R191, 40_session_count.md R110; log entry 8). -/
def execUnpack (s : State) : Host.Outcome State Fault Refusal :=
  let s0 := { s with outLen := 0#17, totalBits := 0#32 }
  match s.unpackCheck with
  | some r => .next (s0.raise r)
  | none =>
    let d := decodeBits s.nodes s.root s.retainedBits
    let s1 := { s0 with outMem := s.outMem.writeBytes 0 d.symbols }
    match d.failure with
    | some r => .next (s1.raise r)
    | none =>
      .next { s1 with
        outLen := BitVec.ofNat 17 d.symbols.length
        totalBits := BitVec.ofNat 32 s.retainedCount }.succeed

end Sys2Proof.Machine
end

