-- ==== Sys2Proof/Machine/CodeAssigner.lean ====
section
/-! DEFINITION. The code assigner: ASSIGN (42_code_assigner.md). -/

namespace Sys2Proof.Machine

/-- `walk(n, p)`: the leaves below node n with their codewords, those of the left child (bit 0) before those of the right
child (bit 1) (42_code_assigner.md R150, R151). A path of a tree visits at most `Config.walkFuel` nodes (00_scope.md R7); where
no tree is (a state that no run reaches) the walk ends there (log entry 7). -/
def walk (nodes : Vector Node Config.nodeSlots) : (fuel : Nat) → NodeIndex → BitString → List (Byte × BitString)
  | 0, _, _ => []
  | fuel + 1, n, p =>
    match nodeAt nodes n with
    | .leaf sym _ => [(sym, p)]
    | .internal left right _ => walk nodes fuel left (p ++ [false]) ++ walk nodes fuel right (p ++ [true])

/-- The codewords of the tree: the 1-bit code "0" for a root that is a leaf, else the root-to-leaf paths
(42_code_assigner.md R150, R152). -/
def treeCodes (nodes : Vector Node Config.nodeSlots) (root : NodeIndex) : List (Byte × BitString) :=
  match nodeAt nodes root with
  | .leaf sym _ => [(sym, [false])]
  | .internal _ _ _ => walk nodes Config.walkFuel root []

/-- The code table that holds the given codewords and is invalid everywhere else (42_code_assigner.md R150). -/
def codeTable (cs : List (Byte × BitString)) : Vector CodeEntry Config.nsym :=
  cs.foldl (fun codes c => setCode codes c.1 (codeEntryOf c.2)) emptyCodes

/-- ASSIGN: the code table of the current tree, or NO_TREE with CODE unchanged (42_code_assigner.md R150). -/
def execAssign (s : State) : Host.Outcome State Fault Refusal :=
  if s.treeValid then .next { s with codes := codeTable (treeCodes s.nodes s.root) }.succeed
  else .next (s.raise ⟨.noTree, 0#32⟩)

end Sys2Proof.Machine
end

