-- ==== Sys2Proof/Machine/Session.lean ====
section
/-! DEFINITION. The session reset and the frequency counter: CLEAR and COUNT (40_session_count.md). -/

namespace Sys2Proof.Machine

/-- CLEAR: the frequency table, the tree, the code table and the output registers are cleared (40_session_count.md R111). -/
def execClear (s : State) : Host.Outcome State Fault Refusal :=
  .next { s with
      freq := zeroFreq
      codes := invalidateCodes s.codes
      nodeCount := 0#10
      root := 0#9
      symCount := 0#9
      treeValid := false
      outLen := 0#17
      totalBits := 0#32
      pad := 0#8 }.succeed

/-- The frequency table of a byte sequence: every entry 0, then one count per byte (40_session_count.md R112). -/
def countBytes (bytes : List Byte) : Vector Word Config.nsym :=
  bytes.foldl (fun freq b => setFreq freq b (freq[b.toNat]'b.isLt + 1#32)) zeroFreq

/-- COUNT: FREQ becomes the frequency table of the input bytes; LENGTH leaves it unchanged (40_session_count.md R112). -/
def execCount (s : State) : Host.Outcome State Fault Refusal :=
  if s.lengthOk then .next { s with freq := countBytes s.inputBytes }.succeed
  else .next (s.raise s.lengthError)

end Sys2Proof.Machine
end

