-- ==== Sys2Proof/Machine/TreeBuilder.lean ====
section
/-! DEFINITION. The tree builder: BUILD (41_tree_builder.md). The priority queue exists only inside the command
(10_state.md R47), as a list of candidates whose order does not matter. -/

namespace Sys2Proof.Machine

/-- A candidate node of the priority queue: its weight and its node index (41_tree_builder.md R131). -/
structure Cand where
  weight : Weight
  index : Nat
deriving DecidableEq, Repr

/-- The order of extraction: lexicographic on (weight, node index) (00_scope.md R10, 41_tree_builder.md R134). -/
def Cand.before (x y : Cand) : Bool :=
  x.weight.toNat < y.weight.toNat || (x.weight.toNat = y.weight.toNat && x.index < y.index)

/-- `argmin` over a nonempty priority queue, given as a candidate and the others (00_scope.md R10). -/
def argmin (x : Cand) : List Cand → Cand
  | [] => x
  | y :: ys => argmin (if y.before x then y else x) ys

/-- Extract the least candidate: it, and the queue without it (41_tree_builder.md R131). -/
def extractMin : List Cand → Option (Cand × List Cand)
  | [] => none
  | x :: xs => some (argmin x xs, (x :: xs).erase (argmin x xs))

/-- The 256 symbols in ascending order (10_state.md R37). -/
def symbols : List Byte := (List.range Config.nsym).map (BitVec.ofNat 8)

/-- The leaves, one per symbol with FREQ[s] not 0, in ascending symbol order (41_tree_builder.md R131, R132). -/
def leaves (freq : Vector Word Config.nsym) : List Node :=
  (symbols.zip freq.toList).filterMap fun e => if e.2 = 0#32 then none else some (.leaf e.1 (e.2.setWidth 40))

/-- A node's weight (10_state.md R40). -/
def Node.weight : Node → Weight
  | .leaf _ w => w
  | .internal _ _ w => w

/-- The priority queue at the start: every leaf, under its slot (41_tree_builder.md R131). -/
def leafQueue (ls : List Node) : List Cand := ls.mapIdx (fun i n => ⟨n.weight, i⟩)

/-- The merge loop: while two candidates remain, extract the two least, make them the left and the right child of the next
node, and insert it. The answer is the internal nodes in creation order (41_tree_builder.md R131, R133). `fuel` bounds the
merges; each shortens the queue by one, so the length of the queue is enough. -/
def merges : (fuel : Nat) → (next : Nat) → (queue : List Cand) → List Node
  | 0, _, _ => []
  | fuel + 1, next, queue =>
    match extractMin queue with
    | none => []
    | some (a, rest) =>
      match extractMin rest with
      | none => []
      | some (b, rest') =>
        .internal (BitVec.ofNat 9 a.index) (BitVec.ofNat 9 b.index) (a.weight + b.weight)
          :: merges fuel (next + 1) (⟨a.weight + b.weight, next⟩ :: rest')

/-- The whole tree: the leaves in slots 0 .. L-1, then the internal nodes in creation order (41_tree_builder.md R131). -/
def treeOf (freq : Vector Word Config.nsym) : List Node :=
  leaves freq ++ merges (leaves freq).length (leaves freq).length (leafQueue (leaves freq))

/-- BUILD: the code table is invalidated, then the tree of FREQ is built, or EMPTY_INPUT raised with the tree lost
(41_tree_builder.md R131, R136, R138). -/
def execBuild (s : State) : Host.Outcome State Fault Refusal :=
  if leaves s.freq = [] then
    .next ({ s with
      codes := invalidateCodes s.codes
      nodeCount := 0#10
      root := 0#9
      symCount := 0#9
      treeValid := false }.raise ⟨.emptyInput, 0#32⟩)
  else
    .next { s with
      codes := invalidateCodes s.codes
      nodes := storeNodes s.nodes (treeOf s.freq)
      root := BitVec.ofNat 9 ((treeOf s.freq).length - 1)
      nodeCount := BitVec.ofNat 10 (treeOf s.freq).length
      symCount := BitVec.ofNat 9 (leaves s.freq).length
      treeValid := true }.succeed

end Sys2Proof.Machine
end

