-- ==== Sys2Proof/Machine/Engine.lean ====
section
/-! DEFINITION. The engine's completion step on a command word, and whose turn is next (00_scope.md R11,
60_exceptions.md R212, 70_reset_and_hazards.md R251). -/

namespace Sys2Proof.Machine

/-- The engine's completion step for the accepted word d: the command it decodes to, or the illegal-command completion
(60_exceptions.md R212, 30_encoding.md R92). -/
def completionStep (d : Word) (s : State) : Host.Outcome State Fault Refusal :=
  match decode d with
  | .ok i => exec i s
  | .error _ => .next (s.completeIllegal d)

/-- Who takes the next step. -/
inductive Turn where
  /-- The engine completes the accepted word. -/
  | engine (word : Word)
  /-- The outside world delivers its next input; the others wait. -/
  | input (event : Event) (rest : List Input)
  /-- Nothing is in flight and nothing is pending: the run has ended (70_reset_and_hazards.md R253). -/
  | ended
deriving DecidableEq, Repr

/-- The schedule: a command in flight completes before the next input if that input says so, and in any case when no input is
left, so every accepted command completes unless reset intervenes (70_reset_and_hazards.md R251; log entry 1). -/
def State.turn (s : State) : Turn :=
  match s.eng, s.inputs with
  | .busy d, [] => .engine d
  | .busy d, i :: rest => if i.engineFirst then .engine d else .input i.event rest
  | .idle, i :: rest => .input i.event rest
  | .idle, [] => .ended

/-- The pending inputs with the engine's completion chosen before the first of them. -/
def engineNext : List Input → List Input
  | [] => []
  | i :: rest => { i with engineFirst := true } :: rest

end Sys2Proof.Machine
end

