-- ==== Sys2Proof/Machine/Step.lean ====
section
/-! DEFINITION. One step of the machine: the agent whose turn it is takes it, in one atomic step (00_scope.md R11). -/

namespace Sys2Proof.Machine

/-- One step (00_scope.md R11). A run that has ended stays as it is (70_reset_and_hazards.md R253; log entry 9). -/
def step (s : State) : Host.Outcome State Fault Refusal :=
  match s.turn with
  | .engine d => completionStep d s
  | .input event rest => .next ({ s with inputs := rest }.deliver event)
  | .ended => .next s

/-- `s` with the command word accepted, as a host write to CMD accepts it (60_exceptions.md R211), and the engine's
completion step next, so that the next step runs exactly that command (log entry 9). -/
def State.withFetchWord (s : State) (nbits w : Nat) : State :=
  { s.accept (BitVec.ofNat 32 (commandWord nbits w)) with inputs := engineNext s.inputs }

end Sys2Proof.Machine
end

