-- ==== Sys2Proof/Machine/Script.lean ====
section
/-! DEFINITION. Host scripts (30_encoding.md R98, R99): the statements, the pseudo-statements and their expansions, and
the bus transactions they issue. A script is the host's, not the block's (00_scope.md R12): it comes to the machine as
the pending inputs its transactions make. -/

namespace Sys2Proof.Machine

/-- A statement (30_encoding.md R98); addresses are byte addresses. -/
inductive Statement where
  /-- `WR a, d`. -/
  | wr (a : Nat) (d : Word)
  /-- `RD a`: the result is discarded. -/
  | rd (a : Nat)
  /-- `RD a -> name`. -/
  | rdTo (a : Nat) (name : String)
  /-- `EXPECT a, d`. -/
  | expect (a : Nat) (d : Word)
  /-- `CMD m`. -/
  | cmd (m : Instr)
deriving DecidableEq, Repr

/-- A pseudo-statement (30_encoding.md R99). -/
inductive Pseudo where
  | wait
  | run (m : Instr)
  | ack
  | setPad (n : Word)
  | setLen (n : Word)
  | loadIn (bytes : List Byte)
  | copyOut
  | setFreq (sym : Byte) (v : Word)
deriving DecidableEq, Repr

/-- What the host learns from the reads of a data-dependent pseudo-statement: how many polls of WAIT saw BUSY = 1, and, for
COPYOUT, the value of OUT_LEN and the OUT words. -/
structure Learned where
  busyPolls : Nat
  outLen : Word
  outWords : List Word
deriving DecidableEq, Repr

/-- The statement a `CMD m` stands for: a write of its command word to CMD (30_encoding.md R98). -/
def Statement.core : Statement → Statement
  | .cmd m => .wr 0x008 (encode m)
  | st => st

/-- The byte address a statement accesses (30_encoding.md R98). -/
def Statement.address : Statement → Nat
  | .wr a _ => a
  | .rd a => a
  | .rdTo a _ => a
  | .expect a _ => a
  | .cmd _ => 0x008

/-- A statement the port can present: its byte address is aligned and in range (20_memory.md R60, R73). -/
def Statement.wellFormed (st : Statement) : Bool := wellFormedAddress st.address

/-- The transaction of a statement (30_encoding.md R98), at the word address of its byte address; none if the port cannot
present that address (20_memory.md R73). -/
def Statement.access (st : Statement) : Option Access :=
  if st.wellFormed then
    let addr := BitVec.ofNat 16 (st.address / 4)
    match st with
    | .wr _ d => some (.write addr d)
    | .rd _ => some (.read addr)
    | .rdTo _ _ => some (.read addr)
    | .expect _ _ => some (.read addr)
    | .cmd m => some (.write addr (encode m))
  else none

/-- Whether the script goes on after the reply to a statement's read: EXPECT fails on any other value (30_encoding.md R98). -/
def Statement.passes (reply : Word) : Statement → Bool
  | .wr _ _ => true
  | .rd _ => true
  | .rdTo _ _ => true
  | .expect _ d => reply = d
  | .cmd _ => true

/-- What the host has bound after the reply to a statement's read: `RD a -> name` binds the result to the name
(30_encoding.md R98). -/
def Statement.bind (reply : Word) (env : List (String × Word)) : Statement → List (String × Word)
  | .wr _ _ => env
  | .rd _ => env
  | .rdTo _ name => (name, reply) :: env
  | .expect _ _ => env
  | .cmd _ => env

/-- Whether a statement reads, and so consumes one reply (30_encoding.md R98). -/
def Statement.reads : Statement → Bool
  | .wr _ _ => false
  | .rd _ => true
  | .rdTo _ _ => true
  | .expect _ _ => true
  | .cmd _ => false

/-- The host's side of a script, given the replies its reads got: what it has bound, or none where an EXPECT fails or a
reply is missing (30_encoding.md R98). -/
def scriptResult : List Statement → List Word → List (String × Word) → Option (List (String × Word))
  | [], _, env => some env
  | st :: sts, replies, env =>
    if st.reads then
      match replies with
      | [] => none
      | r :: rest => if st.passes r then scriptResult sts rest (st.bind r env) else none
    else scriptResult sts replies env

/-- WAIT ends at the first read of STATUS whose bit 0 is 0 (30_encoding.md R99). -/
def waitEnds (status : Word) : Bool := !status.getLsbD 0

/-- How many words ⌈n/4⌉ hold n bytes (30_encoding.md R99). -/
def wordsFor (n : Nat) : Nat := (n + 3) / 4

/-- The statements of WAIT when its first `busyPolls` reads saw BUSY = 1 (30_encoding.md R99). -/
def waitStatements (busyPolls : Nat) : List Statement := List.replicate (busyPolls + 1) (.rdTo 0x00C "s")

/-- Word m of the bytes of LOADIN, missing bytes taken as 0 (30_encoding.md R99). -/
def loadWord (bytes : List Byte) (m : Nat) : Word := wordAt (fun i => bytes.getD i 0#8) m

/-- The expansion of a pseudo-statement (30_encoding.md R99). -/
def Pseudo.expand (l : Learned) : Pseudo → List Statement
  | .wait => waitStatements l.busyPolls
  | .run m => .cmd m :: waitStatements l.busyPolls
  | .ack => [.wr 0x00C 2#32]
  | .setPad n => [.wr 0x018 n]
  | .setLen n => [.wr 0x010 n]
  | .loadIn bytes =>
    (List.range (wordsFor bytes.length)).map (fun m => .wr (0x10000 + 4 * m) (loadWord bytes m))
      ++ [.wr 0x010 (BitVec.ofNat 32 bytes.length)]
  | .copyOut =>
    .rdTo 0x014 "n"
      :: (List.range (wordsFor l.outLen.toNat)).flatMap (fun m =>
          [.rdTo (0x20000 + 4 * m) "w", .wr (0x10000 + 4 * m) (l.outWords.getD m 0#32)])
      ++ [.wr 0x010 l.outLen]
  | .setFreq sym v => [.wr (0x400 + 4 * sym.toNat) v]

/-- What COPYOUT learns when it runs at an idle state, and WAIT when the command has completed (30_encoding.md R99). -/
def State.learned (s : State) : Learned where
  busyPolls := 0
  outLen := s.readReg .outLen
  outWords := (List.range (wordsFor s.outLen.toNat)).map (wordAt s.outByte)

/-- The pending inputs of a list of statements, each with the schedule's choice `engineFirst`; a statement the port cannot
present makes none. -/
def inputsOf (engineFirst : Bool) (sts : List Statement) : List Input :=
  sts.filterMap (fun st => st.access.map (fun a => ⟨engineFirst, .host a⟩))

end Sys2Proof.Machine
end

