-- ==== Sys2Proof/Safety.lean ====
section
/-! DEFINITION. The words the claims are stated in: the invariant of the machine and of the tree, what a codeword of a tree
is, what the host can observe, and the end of a run. -/

namespace Sys2Proof.Machine

/-! ### The tree -/

/-- The node in slot n, n being below 512. -/
def slot (nodes : Vector Node Config.nodeSlots) (n : Nat) : Node := nodeAt nodes (BitVec.ofNat 9 n)

/-- A leaf's symbol, if the node is a leaf (10_state.md R40). -/
def Node.symbol? : Node → Option Byte
  | .leaf sym _ => some sym
  | .internal _ _ _ => none

/-- The slots of a node's children, left first; a leaf has none. -/
def Node.children : Node → List Nat
  | .leaf _ _ => []
  | .internal left right _ => [left.toNat, right.toNat]

/-- The slots that are children of some node in slots below n, each as often as it is one. -/
def childSlots (nodes : Vector Node Config.nodeSlots) (n : Nat) : List Nat :=
  (List.range n).flatMap (fun i => (slot nodes i).children)

/-- Slot n is a leaf (10_state.md R41.1). -/
abbrev IsLeafSlot (nodes : Vector Node Config.nodeSlots) (n : Nat) : Prop := (slot nodes n).symbol?.isSome

/-- Slot n is an internal node whose children are two different smaller slots and whose weight is the sum of theirs
(10_state.md R41.2). -/
def internalSlotOk (nodes : Vector Node Config.nodeSlots) (n : Nat) : Bool :=
  match slot nodes n with
  | .leaf _ _ => false
  | .internal left right w =>
    left.toNat < n && right.toNat < n && left ≠ right &&
      w.toNat = (nodeAt nodes left).weight.toNat + (nodeAt nodes right).weight.toNat

/-- The tree invariant with L leaves (10_state.md R41): leaves of present symbols in strictly increasing order, internal nodes
over smaller slots, and every slot but the root the child of exactly one node. -/
structure TreeShape (nodes : Vector Node Config.nodeSlots) (L : Nat) : Prop where
  one_le : 1 ≤ L
  le_nsym : L ≤ Config.nsym
  leaf_slots : ∀ i < L, IsLeafSlot nodes i ∧ (slot nodes i).weight ≠ 0#40
  leaf_order : ∀ i < L, ∀ j < i, ∀ a ∈ (slot nodes j).symbol?, ∀ b ∈ (slot nodes i).symbol?, a.toNat < b.toNat
  internal_slots : ∀ n < 2 * L - 1, L ≤ n → internalSlotOk nodes n
  one_parent : ∀ i < 2 * L - 1, (childSlots nodes (2 * L - 1)).count i = if i = 2 * L - 2 then 0 else 1

/-- The state's tree registers describe its tree: ROOT = 2L-2, NODE_COUNT = 2L-1, L = SYM_COUNT, and the arena holds the tree
(10_state.md R41, 41_tree_builder.md R137). -/
structure State.TreeInv (s : State) : Prop where
  shape : TreeShape s.nodes s.symCount.toNat
  count : s.nodeCount.toNat = 2 * s.symCount.toNat - 1
  root : s.root.toNat = 2 * s.symCount.toNat - 2

/-- The node reached from node n by a bit string: 0 goes left, 1 goes right (42_code_assigner.md R151). -/
def descend (nodes : Vector Node Config.nodeSlots) (n : NodeIndex) (p : BitString) : NodeIndex :=
  p.foldl (fun n c => (nodeAt nodes n).child c) n

/-- Every proper beginning of the bit string leads from the root to an internal node. -/
def StaysInside (nodes : Vector Node Config.nodeSlots) (root : NodeIndex) (p : BitString) : Prop :=
  ∀ k < p.length, (nodeAt nodes (descend nodes root (p.take k))).symbol? = none

/-- `p` is the codeword of `sym` in the tree at `root`: the path of edges from the root to a leaf of that symbol, or "0" for a
root that is the leaf (42_code_assigner.md R150, R152). -/
def Codeword (nodes : Vector Node Config.nodeSlots) (root : NodeIndex) (sym : Byte) (p : BitString) : Prop :=
  match nodeAt nodes root with
  | .leaf r _ => sym = r ∧ p = [false]
  | .internal _ _ _ =>
    StaysInside nodes root p ∧ (nodeAt nodes (descend nodes root p)).symbol? = some sym

/-- The symbols present in a frequency table, in ascending order (40_session_count.md R113). -/
def presentSymbols (freq : Vector Word Config.nsym) : List Byte :=
  ((List.range Config.nsym).map (BitVec.ofNat 8)).filter (fun b => freq[b.toNat]'b.isLt ≠ 0#32)

/-- The extraction key order on slots: (weight, index), least first (41_tree_builder.md R134). -/
def keyBefore (nodes : Vector Node Config.nodeSlots) (a b : Nat) : Prop :=
  (slot nodes a).weight.toNat < (slot nodes b).weight.toNat ∨
    ((slot nodes a).weight.toNat = (slot nodes b).weight.toNat ∧ a < b)

/-- Slot m is a candidate when slot n is created: it exists and is no node's child yet (41_tree_builder.md R131). -/
def IsCandidate (nodes : Vector Node Config.nodeSlots) (n m : Nat) : Prop := m < n ∧ m ∉ childSlots nodes n

/-! ### The invariant of the machine -/

/-- What holds of every state a run reaches: the buffers are canonical, the result registers stay in their ranges, a command in
flight leaves DONE and ERRCODE clear, the reserved result code never appears, the tree registers describe a tree or are 0, and
the code table is empty or the one derived from the current tree. -/
structure State.Inv (s : State) : Prop where
  in_wf : s.inMem.wf
  out_wf : s.outMem.wf
  outLen_le : s.outLen.toNat ≤ Config.bufBytes
  totalBits_le : s.totalBits.toNat ≤ Config.bufBits
  busy_clear : s.busy = true → s.done = false ∧ s.errCode = .ok
  code_assigned : s.errCode ≠ .degenerateTree
  tree : s.treeValid = true → s.TreeInv
  no_tree : s.treeValid = false → s.nodeCount = 0#10 ∧ s.root = 0#9 ∧ s.symCount = 0#9
  codes : (∀ sym, (codeAt s.codes sym).valid = false) ∨
    (s.treeValid = true ∧ s.codes = codeTable (treeCodes s.nodes s.root))

/-! ### Buffers and packed bits -/

/-- The buffer holds the bytes from index 0 on. -/
def Memory.holds (m : Memory) (bytes : List Byte) : Prop := ∀ i, ∀ h : i < bytes.length, m.read i = bytes[i]

/-- The output bytes OUT_MEM[0 .. OUT_LEN-1] (10_state.md R28). -/
def State.outputBytes (s : State) : List Byte := (List.range s.outLen.toNat).map s.outMem.read

/-- The codes of the bytes, one after the other (43_bit_packer.md R171). -/
def concatCodes (codes : Vector CodeEntry Config.nsym) (bytes : List Byte) : BitString :=
  bytes.flatMap (fun b => (codeAt codes b).bits)

/-! ### What the host observes -/

/-- The word address a[17:2] at which the port presents a byte address (20_memory.md R60). -/
def wordAddr (a : Nat) : BitVec 16 := BitVec.ofNat 16 (a / 4)

/-- The state after a host read that returned v: nothing but the reply is new (20_memory.md R61). -/
def State.reply (s : State) (v : Word) : State := { s with replies := s.replies ++ [v] }

/-- The run has ended: the host has issued its last transaction and the engine is idle (70_reset_and_hazards.md R253). -/
def State.ended (s : State) : Bool := s.eng = .idle && s.inputs = []

/-- Two states the host cannot tell apart now or later (70_reset_and_hazards.md R253): they agree but for node slots at or past
NODE_COUNT, the lengths and values of invalid code entries, and the OUT_MEM bytes at or past OUT_LEN. -/
structure SameVisible (s t : State) : Prop where
  rest : { s with nodes := t.nodes, codes := t.codes, outMem := t.outMem } = t
  nodes : ∀ n < s.nodeCount.toNat, slot s.nodes n = slot t.nodes n
  valid : ∀ sym, (codeAt s.codes sym).valid = (codeAt t.codes sym).valid
  codes : ∀ sym, (codeAt s.codes sym).valid = true → codeAt s.codes sym = codeAt t.codes sym
  out : ∀ i < s.outLen.toNat, s.outMem.read i = t.outMem.read i

end Sys2Proof.Machine
end

