-- ==== Sys2Proof/Certificates/Slice0/Obligations.lean ====
section
/-! DEFINITION. The statements about the machine, for the provers. -/

open Sys2Proof Sys2Proof.Machine

/-! ### Reset, the schedule, the step -/

/-- 70_reset_and_hazards.md R241, for every contents that reset leaves unspecified: what the host reads after reset, that a
read changes nothing but the replies. -/
def Obligations.ResetLeavesTheSpecValues : Prop :=
  ∀ (s : State) (draw : ResetDraw),
    let t := s.afterReset draw
    t.eng = .idle ∧ t.readReg .id = 0x48554607#32 ∧ t.readReg .ctrl = 0#32 ∧ t.readReg .status = 0#32 ∧
    t.readReg .inLen = 0#32 ∧ t.readReg .outLen = 0#32 ∧ t.readReg .pad = 0#32 ∧ t.readReg .root = 0#32 ∧
    t.readReg .nodeCount = 0#32 ∧ t.readReg .symCount = 0#32 ∧ t.readReg .totalBits = 0#32 ∧
    t.readReg .errInfo = 0#32 ∧ t.irq = false ∧
    (∀ sym : Byte, t.peek (.freq sym) = draw.freq[sym.toNat]'sym.isLt) ∧
    (∀ n k, t.peek (.node n k) = 0#32) ∧
    (∀ sym k, (codeAt t.codes sym).valid = false ∧ t.peek (.code sym k) = 0#32) ∧
    (∀ i < 65536, t.inMem.read i = draw.inBytes.getD i 0#8) ∧
    (∀ m, t.peek (.outWord m) = 0#32) ∧
    (∀ l, t.hostRead l = t.reply (t.peek l) ∧ ∀ l', (t.hostRead l).peek l' = t.peek l')

/-- State.reset is a state that reset leaves; which one is the model's choice (log entry 2, DESIGN CHOICE). -/
def Obligations.ResetStateIsOneThatResetLeaves : Prop := ∃ draw, State.reset.afterReset draw = State.reset

/-- 70_reset_and_hazards.md R240: the reset input, delivered at any time and also while a command is in flight, gives the state
after reset; the command's effects never appear and no completion follows. -/
def Obligations.ResetAbandonsTheCommand : Prop :=
  ∀ (s : State) (first : Bool) (draw : ResetDraw) (rest : List Input),
    s.inputs = ⟨first, .reset draw⟩ :: rest → (s.eng = .idle ∨ first = false) →
    ∃ t, step s = .next t ∧ t = ({ s with inputs := rest } : State).afterReset draw ∧
      t.eng = .idle ∧ t.done = false ∧ t.irq = false ∧ t.treeValid = false ∧ t.hostErr = false ∧ t.errCode = .ok

/-- A step runs the decoded command: when the accepted word decodes to i and the engine goes next, the step is exec of i at
that very state; the same where the word is placed by withFetchWord (60_exceptions.md R212). -/
def Obligations.StepRunsTheDecodedCommand : Prop :=
  (∀ (s : State) (d : Word) (i : Instr), s.eng = .busy d → decode d = .ok i →
    (s.inputs = [] ∨ ∃ e rest, s.inputs = ⟨true, e⟩ :: rest) → step s = exec i s) ∧
  (∀ (s : State) (nbits w : Nat) (i : Instr), decodeTableWord nbits w = some i →
    step (s.withFetchWord nbits w) = exec i (s.withFetchWord nbits w))

/-- Otherwise a pending input is delivered, and the run that has ended stays as it is (00_scope.md R11, log entries 1, 9). -/
def Obligations.StepDeliversTheNextInput : Prop :=
  (∀ (s : State) (i : Input) (rest : List Input), s.inputs = i :: rest → (s.eng = .idle ∨ i.engineFirst = false) →
    step s = .next (({ s with inputs := rest } : State).deliver i.event)) ∧
  (∀ s : State, s.eng = .idle → s.inputs = [] → step s = .next s)

/-- The block raises no traps: no step of it stops (60_exceptions.md R210, 30_encoding.md R93). -/
def Obligations.EveryStepGoesOn : Prop := ∀ s : State, ∃ t, step s = .next t

/-- 70_reset_and_hazards.md R251: an accepted command completes after finitely many transactions of the host unless reset
intervenes; until then the engine keeps its word. -/
def Obligations.AcceptedCommandCompletes : Prop :=
  ∀ (s : State) (d : Word), s.eng = .busy d → (∀ i ∈ s.inputs, ∀ draw, i.event ≠ .reset draw) →
    ∃ k ≤ s.inputs.length, ∃ t u, Host.Core.run Sys2Proof.core k s = .next t ∧ t.eng = .busy d ∧
      step t = completionStep d t ∧ step t = .next u ∧ u.eng = .idle ∧ u.done = true

/-! ### Command words -/

/-- The six command words and some illegal ones, written out from the opcode map (30_encoding.md R91, R92). -/
def Obligations.CommandWordsDecode : Prop :=
  decodeTableWord 32 0x00000001 = some .clear ∧ decodeTableWord 32 0x00000002 = some .count ∧
  decodeTableWord 32 0x00000003 = some .build ∧ decodeTableWord 32 0x00000004 = some .assign ∧
  decodeTableWord 32 0x00000005 = some .pack ∧ decodeTableWord 32 0x00000006 = some .unpack ∧
  decodeTableWord 32 0x00000000 = none ∧ decodeTableWord 32 0x00000007 = none ∧ decodeTableWord 32 0x0000000F = none ∧
  decodeTableWord 32 0x00000011 = none ∧ decodeTableWord 32 0x80000003 = none

/-- 30_encoding.md R91: a command is selected exactly by its own whole 32-bit word, OP 1 to 6 with every other bit 0. -/
def Obligations.WordDecodesIffItIsTheCommandsWord : Prop :=
  (∀ (d : Word) (i : Instr), decode d = .ok i ↔ d = encode i) ∧
  (encode .clear = 0x00000001#32 ∧ encode .count = 0x00000002#32 ∧ encode .build = 0x00000003#32 ∧
    encode .assign = 0x00000004#32 ∧ encode .pack = 0x00000005#32 ∧ encode .unpack = 0x00000006#32)

/-- 30_encoding.md R92: an illegal word is accepted like any other and completes with ILLEGAL_COMMAND, ERR_INFO the word, and no
other effect. -/
def Obligations.IllegalWordOnlyReportsItself : Prop :=
  ∀ (s : State) (d : Word), (rsvField d ≠ 0#28 ∨ opField d = 0#4 ∨ 7 ≤ (opField d).toNat) →
    (s.eng = .idle → s.access (.write (wordAddr 0x008) d) = { s with eng := .busy d, done := false, errCode := .ok }) ∧
    (s.eng = .busy d → (s.inputs = [] ∨ ∃ e rest, s.inputs = ⟨true, e⟩ :: rest) →
      step s = .next { s with eng := .idle, done := true, errCode := .illegalCommand, errInfo := d })

/-- 60_exceptions.md R211: a write to CMD while idle is the acceptance of its word, whatever the word, and nothing else
changes; while busy it is not accepted. -/
def Obligations.CommandAcceptance : Prop :=
  ∀ (s : State) (d : Word),
    (s.eng = .idle → s.access (.write (wordAddr 0x008) d) = { s with eng := .busy d, done := false, errCode := .ok } ∧
      (s.access (.write (wordAddr 0x008) d)).busy = true) ∧
    (∀ d', s.eng = .busy d' → s.access (.write (wordAddr 0x008) d) = { s with hostErr := true })

/-- 60_exceptions.md R212: every command's completion step ends it: BUSY falls, DONE rises, and ERR_INFO is 0 on success. -/
def Obligations.CompletionEndsTheCommand : Prop :=
  ∀ (d : Word) (s : State), ∃ t, completionStep d s = .next t ∧ t.eng = .idle ∧ t.busy = false ∧ t.done = true ∧
    (t.errCode = .ok → t.errInfo = 0#32) ∧
    (∀ i, decode d = .ok i → completionStep d s = exec i s) ∧
    ((∀ i, decode d ≠ .ok i) → t = { s with eng := .idle, done := true, errCode := .illegalCommand, errInfo := d })

/-! ### Registers and the address map -/

/-- The bits of a STATUS read, and what a STATUS write clears, in every engine state (10_state.md R25; the numbers of
60_exceptions.md R213). -/
def Obligations.StatusRegisterFields : Prop :=
  (∀ s : State,
    s.statusWord.getLsbD 0 = s.busy ∧ s.statusWord.getLsbD 1 = s.done ∧
    s.statusWord.getLsbD 2 = decide (s.errCode ≠ .ok) ∧ s.statusWord.extractLsb' 8 4 = s.errCode.bits ∧
    s.statusWord.getLsbD 16 = s.treeValid ∧ s.statusWord.getLsbD 17 = s.hostErr ∧
    s.statusWord.extractLsb' 3 5 = 0#5 ∧ s.statusWord.extractLsb' 12 4 = 0#4 ∧ s.statusWord.extractLsb' 18 14 = 0#14 ∧
    s.access (.read (wordAddr 0x00C)) = s.reply s.statusWord) ∧
  (∀ (s : State) (d : Word), s.access (.write (wordAddr 0x00C) d) =
    { s with done := s.done && !d.getLsbD 1, hostErr := s.hostErr && !d.getLsbD 17 }) ∧
  (ErrCode.ok.bits = 0#4 ∧ ErrCode.emptyInput.bits = 1#4 ∧ ErrCode.degenerateTree.bits = 2#4 ∧
    ErrCode.unknownSymbol.bits = 3#4 ∧ ErrCode.invalidPadding.bits = 4#4 ∧ ErrCode.malformedData.bits = 5#4 ∧
    ErrCode.illegalCommand.bits = 6#4 ∧ ErrCode.noTree.bits = 7#4 ∧ ErrCode.length.bits = 8#4 ∧
    ErrCode.outputOverflow.bits = 9#4)

/-- What an idle block's registers return and what writes to them do, at their offsets (20_memory.md R65, 10_state.md R21). The
last clause, that a write to ID while busy changes nothing and so sets no HOSTERR, is the model's reading of
20_memory.md R70 and not a rule of the spec (log entry 6, DEDUCED). -/
def Obligations.RegisterReadsAndWrites : Prop :=
  (∀ (s : State) (d : Word), s.eng = .idle →
    s.access (.read (wordAddr 0x000)) = s.reply 0x48554607#32 ∧
    s.access (.read (wordAddr 0x004)) = s.reply (if s.ie then 1#32 else 0#32) ∧
    s.access (.read (wordAddr 0x008)) = s.reply 0#32 ∧
    s.access (.read (wordAddr 0x00C)) = s.reply s.statusWord ∧
    s.access (.read (wordAddr 0x010)) = s.reply s.inLen ∧
    s.access (.read (wordAddr 0x014)) = s.reply (s.outLen.setWidth 32) ∧
    s.access (.read (wordAddr 0x018)) = s.reply (s.pad.setWidth 32) ∧
    s.access (.read (wordAddr 0x01C)) = s.reply (s.root.setWidth 32) ∧
    s.access (.read (wordAddr 0x020)) = s.reply (s.nodeCount.setWidth 32) ∧
    s.access (.read (wordAddr 0x024)) = s.reply (s.symCount.setWidth 32) ∧
    s.access (.read (wordAddr 0x028)) = s.reply s.totalBits ∧
    s.access (.read (wordAddr 0x02C)) = s.reply s.errInfo ∧
    s.access (.write (wordAddr 0x000) d) = s ∧
    s.access (.write (wordAddr 0x004) d) = { s with ie := d.getLsbD 0 } ∧
    s.access (.write (wordAddr 0x008) d) = { s with eng := .busy d, done := false, errCode := .ok } ∧
    s.access (.write (wordAddr 0x00C) d) =
      { s with done := s.done && !d.getLsbD 1, hostErr := s.hostErr && !d.getLsbD 17 } ∧
    s.access (.write (wordAddr 0x010) d) = { s with inLen := d } ∧
    s.access (.write (wordAddr 0x014) d) = s ∧
    s.access (.write (wordAddr 0x018) d) = { s with pad := d.extractLsb' 0 8 } ∧
    s.access (.write (wordAddr 0x01C) d) = s ∧
    s.access (.write (wordAddr 0x020) d) = s ∧
    s.access (.write (wordAddr 0x024) d) = s ∧
    s.access (.write (wordAddr 0x028) d) = s ∧
    s.access (.write (wordAddr 0x02C) d) = s) ∧
  (∀ (s : State) (d : Word), s.busy = true → s.access (.write (wordAddr 0x000) d) = s)

/-- 20_memory.md R64: a reserved address reads 0 and ignores writes in every engine state and never sets HOSTERR. -/
def Obligations.ReservedAddressesAreInert : Prop :=
  ∀ (s : State) (a : Nat) (d : Word), a % 4 = 0 →
    ((0x30 ≤ a ∧ a < 0x400) ∨ (0x800 ≤ a ∧ a < 0x2000) ∨ (0x8000 ≤ a ∧ a < 0x10000) ∨ (0x30000 ≤ a ∧ a < 0x40000)) →
    s.access (.read (wordAddr a)) = s.reply 0#32 ∧ s.access (.write (wordAddr a) d) = s

/-- The FREQ window (20_memory.md R66): a read returns the entry, a write sets it and changes nothing else. -/
def Obligations.FreqWindow : Prop :=
  ∀ (s : State) (sym : Byte) (d : Word), s.eng = .idle →
    s.access (.read (wordAddr (0x400 + 4 * sym.toNat))) = s.reply (s.freqAt sym) ∧
    ∃ t, s.access (.write (wordAddr (0x400 + 4 * sym.toNat)) d) = t ∧ t.freqAt sym = d ∧
      (∀ sym', sym' ≠ sym → t.freqAt sym' = s.freqAt sym') ∧ { t with freq := s.freq } = s

/-- The NODE window (20_memory.md R67): the four words of a valid slot, 0 for any other slot, writes ignored. -/
def Obligations.NodeWindow : Prop :=
  ∀ (s : State) (n : NodeIndex), s.eng = .idle →
    ∃ w0 w1 w2 w3 : Word,
      s.access (.read (wordAddr (0x2000 + 16 * n.toNat))) = s.reply w0 ∧
      s.access (.read (wordAddr (0x2000 + 16 * n.toNat + 4))) = s.reply w1 ∧
      s.access (.read (wordAddr (0x2000 + 16 * n.toNat + 8))) = s.reply w2 ∧
      s.access (.read (wordAddr (0x2000 + 16 * n.toNat + 12))) = s.reply w3 ∧
      (∀ sym w, n.toNat < s.nodeCount.toNat → nodeAt s.nodes n = .leaf sym w →
        w0.toNat = 1 + 2 ^ 8 * sym.toNat ∧ w1.toNat = 0 ∧ w2.toNat = w.toNat % 2 ^ 32 ∧ w3.toNat = w.toNat / 2 ^ 32) ∧
      (∀ left right w, n.toNat < s.nodeCount.toNat → nodeAt s.nodes n = .internal left right w →
        w0.toNat = 0 ∧ w1.toNat = left.toNat + 2 ^ 16 * right.toNat ∧
        w2.toNat = w.toNat % 2 ^ 32 ∧ w3.toNat = w.toNat / 2 ^ 32) ∧
      (s.nodeCount.toNat ≤ n.toNat → w0 = 0#32 ∧ w1 = 0#32 ∧ w2 = 0#32 ∧ w3 = 0#32) ∧
      (∀ k < 4, ∀ d, s.access (.write (wordAddr (0x2000 + 16 * n.toNat + 4 * k)) d) = s)

/-- The CODE window (20_memory.md R68): the sixteen words of a valid entry, 0 for an invalid one, writes ignored. -/
def Obligations.CodeWindow : Prop :=
  ∀ (s : State) (sym : Byte) (k : Nat), s.eng = .idle → k < 16 →
    (∃ w : Word, s.access (.read (wordAddr (0x4000 + 64 * sym.toNat + 4 * k))) = s.reply w ∧
      ((codeAt s.codes sym).valid = true →
        (k = 0 → w.toNat = 2 ^ 31 + (codeAt s.codes sym).len.toNat) ∧
        (1 ≤ k → k ≤ 8 → w.toNat = (codeAt s.codes sym).value.toNat / 2 ^ (32 * (k - 1)) % 2 ^ 32) ∧
        (9 ≤ k → w = 0#32)) ∧
      ((codeAt s.codes sym).valid = false → w = 0#32)) ∧
    (∀ d, s.access (.write (wordAddr (0x4000 + 64 * sym.toNat + 4 * k)) d) = s)

/-- The IN window (20_memory.md R69): little-endian words of IN_MEM; a write sets the four bytes and no other. -/
def Obligations.InWindow : Prop :=
  ∀ (s : State) (m : Nat) (d : Word), s.eng = .idle → m < 16384 →
    (∃ w : Word, s.access (.read (wordAddr (0x10000 + 4 * m))) = s.reply w ∧
      ∀ j < 4, w.toNat / 2 ^ (8 * j) % 2 ^ 8 = (s.inMem.read (4 * m + j)).toNat) ∧
    (∃ t, s.access (.write (wordAddr (0x10000 + 4 * m)) d) = t ∧ { t with inMem := s.inMem } = s ∧
      (∀ j < 4, (t.inMem.read (4 * m + j)).toNat = d.toNat / 2 ^ (8 * j) % 2 ^ 8) ∧
      ∀ i, i < 4 * m ∨ 4 * m + 4 ≤ i → t.inMem.read i = s.inMem.read i)

/-- The OUT window (20_memory.md R71): little-endian words of OUT_MEM, bytes at or past OUT_LEN reading 0; writes ignored. -/
def Obligations.OutWindow : Prop :=
  ∀ (s : State) (m : Nat), s.eng = .idle → m < 16384 →
    (∃ w : Word, s.access (.read (wordAddr (0x20000 + 4 * m))) = s.reply w ∧
      ∀ j < 4, w.toNat / 2 ^ (8 * j) % 2 ^ 8 =
        if 4 * m + j < s.outLen.toNat then (s.outMem.read (4 * m + j)).toNat else 0) ∧
    (∀ d, s.access (.write (wordAddr (0x20000 + 4 * m)) d) = s)

/-- Accesses while busy (20_memory.md R70): ID, CTRL, CMD and STATUS read, and CTRL and STATUS are written, as when idle; a
write to CMD and every other access to IN_LEN ... ERR_INFO or to a window returns 0 or is ignored and sets HOSTERR;
reserved addresses do nothing. (A write to ID while busy, which R70 names nowhere, is a clause of RegisterReadsAndWrites.) -/
def Obligations.AccessWhileBusy : Prop :=
  ∀ (s : State) (d : Word), s.busy = true →
    s.access (.read (wordAddr 0x000)) = s.reply 0x48554607#32 ∧
    s.access (.read (wordAddr 0x004)) = s.reply (if s.ie then 1#32 else 0#32) ∧
    s.access (.read (wordAddr 0x008)) = s.reply 0#32 ∧
    s.access (.read (wordAddr 0x00C)) = s.reply s.statusWord ∧
    s.access (.write (wordAddr 0x004) d) = { s with ie := d.getLsbD 0 } ∧
    s.access (.write (wordAddr 0x00C) d) =
      { s with done := s.done && !d.getLsbD 1, hostErr := s.hostErr && !d.getLsbD 17 } ∧
    s.access (.write (wordAddr 0x008) d) = { s with hostErr := true } ∧
    (∀ a, a % 4 = 0 →
      (0x010 ≤ a ∧ a < 0x030) ∨ (0x400 ≤ a ∧ a < 0x800) ∨ (0x2000 ≤ a ∧ a < 0x8000) ∨ (0x10000 ≤ a ∧ a < 0x30000) →
      s.access (.read (wordAddr a)) = ({ s with hostErr := true } : State).reply 0#32 ∧
      s.access (.write (wordAddr a) d) = { s with hostErr := true }) ∧
    (∀ a, a % 4 = 0 →
      (0x030 ≤ a ∧ a < 0x400) ∨ (0x800 ≤ a ∧ a < 0x2000) ∨ (0x8000 ≤ a ∧ a < 0x10000) ∨ (0x30000 ≤ a ∧ a < 0x40000) →
      s.access (.read (wordAddr a)) = s.reply 0#32 ∧ s.access (.write (wordAddr a) d) = s)

/-- No host access while busy changes what the running command computes (20_memory.md R70, 00_scope.md R12): the command
completes with the same results whether the access comes before it or does not come at all. -/
def Obligations.BusyAccessLeavesTheCommandAlone : Prop :=
  ∀ (s : State) (a : Access), s.busy = true →
    (s.access a).eng = s.eng ∧
    ∀ d t, completionStep d s = .next t →
      completionStep d (s.access a) =
        .next { t with ie := (s.access a).ie, hostErr := (s.access a).hostErr, replies := (s.access a).replies }

/-- 60_exceptions.md R219: the interrupt line is CTRL.IE and STATUS.DONE; it follows a completion if enabled, and falls by a write
of 1 to DONE, by the acceptance of the next command and by masking. -/
def Obligations.InterruptLine : Prop :=
  (∀ s : State, s.irq = true ↔ s.ie = true ∧ s.done = true) ∧
  (∀ (d : Word) (s t : State), completionStep d s = .next t → t.irq = s.ie) ∧
  (∀ (s : State) (d : Word), d.getLsbD 1 = true → (s.access (.write (wordAddr 0x00C) d)).irq = false) ∧
  (∀ (s : State) (d : Word), s.eng = .idle → (s.access (.write (wordAddr 0x008) d)).irq = false) ∧
  (∀ (s : State) (d : Word), (s.access (.write (wordAddr 0x004) d)).irq = (d.getLsbD 0 && s.done))

/-- 60_exceptions.md R222: HOSTERR is set by a refused access and stays set until a write of 1 to STATUS bit 17 or reset; setting
it raises no interrupt, leaves the running command in flight and ERRCODE as it is. -/
def Obligations.HostErrIsSticky : Prop :=
  (∀ s t : State, step s = .next t → s.hostErr = true → t.hostErr = false →
    (∃ draw rest, s.turn = .input (.reset draw) rest) ∨
    (∃ d rest, s.turn = .input (.host (.write (wordAddr 0x00C) d)) rest ∧ d.getLsbD 17 = true)) ∧
  (∀ s t : State, step s = .next t → s.hostErr = false → t.hostErr = true →
    s.busy = true ∧ t.eng = s.eng ∧ t.errCode = s.errCode ∧ t.irq = s.irq ∧ ∃ a rest, s.turn = .input (.host a) rest)

/-- What sets and what clears BUSY, DONE, ERRCODE, TREE_VALID and HOSTERR, over every step of the machine (10_state.md R25, R26;
60_exceptions.md R211, R222; 70_reset_and_hazards.md R241). DONE falls only by a STATUS write with bit 1, by the acceptance of a CMD
write, or by reset. -/
def Obligations.StatusFlagsChangeOnlyAsListed : Prop :=
  ∀ s t : State, step s = .next t →
    (s.busy = false → t.busy = true → ∃ d rest, s.turn = .input (.host (.write (wordAddr 0x008) d)) rest) ∧
    (s.busy = true → t.busy = false → (∃ d, s.turn = .engine d) ∨ ∃ draw rest, s.turn = .input (.reset draw) rest) ∧
    (s.done = false → t.done = true → ∃ d, s.turn = .engine d) ∧
    (s.done = true → t.done = false →
      (∃ d rest, s.turn = .input (.host (.write (wordAddr 0x00C) d)) rest ∧ d.getLsbD 1 = true) ∨
      (s.busy = false ∧ ∃ d rest, s.turn = .input (.host (.write (wordAddr 0x008) d)) rest) ∨
      ∃ draw rest, s.turn = .input (.reset draw) rest) ∧
    (∀ d, s.turn = .engine d → t.busy = false ∧ t.done = true) ∧
    (t.errCode ≠ s.errCode → (∃ d, s.turn = .engine d) ∨
      (t.errCode = .ok ∧ ∃ d rest, s.turn = .input (.host (.write (wordAddr 0x008) d)) rest) ∨
      (t.errCode = .ok ∧ ∃ draw rest, s.turn = .input (.reset draw) rest)) ∧
    (t.treeValid ≠ s.treeValid → s.turn = .engine (encode .build) ∨ s.turn = .engine (encode .clear) ∨
      ∃ draw rest, s.turn = .input (.reset draw) rest) ∧
    (s.hostErr = false → t.hostErr = true → s.busy = true ∧ ∃ a rest, s.turn = .input (.host a) rest) ∧
    (s.hostErr = true → t.hostErr = false →
      (∃ d rest, s.turn = .input (.host (.write (wordAddr 0x00C) d)) rest ∧ d.getLsbD 17 = true) ∨
      ∃ draw rest, s.turn = .input (.reset draw) rest)

/-- 41_tree_builder.md R141, 10_state.md R38: only BUILD and CLEAR (and reset) change the tree, and the host changes none of the
tables but FREQ and IN_MEM. -/
def Obligations.OnlyCommandsChangeTheTree : Prop :=
  ∀ s t : State, step s = .next t →
    ((t.nodes ≠ s.nodes ∨ t.nodeCount ≠ s.nodeCount ∨ t.root ≠ s.root ∨ t.symCount ≠ s.symCount ∨
        t.treeValid ≠ s.treeValid) →
      s.turn = .engine (encode .build) ∨ s.turn = .engine (encode .clear) ∨
        ∃ draw rest, s.turn = .input (.reset draw) rest) ∧
    (∀ a rest, s.turn = .input (.host a) rest →
      t = { s with
        ie := t.ie, done := t.done, errCode := t.errCode, hostErr := t.hostErr, inLen := t.inLen, pad := t.pad,
        freq := t.freq, inMem := t.inMem, eng := t.eng, inputs := t.inputs, replies := t.replies })

/-- 30_encoding.md R95, 10_state.md R27, R44: what each command may change, and that it leaves everything else as it was: the
frame of every command. That a PACK that fails leaves every OUT_MEM byte as it was is the model's choice and no rule of the
spec, which calls those bytes unspecified (log entry 8, DESIGN CHOICE). -/
def Obligations.CommandsChangeOnlyWhatTheyList : Prop :=
  (∀ s t : State, exec .clear s = .next t →
    t = { s with
      freq := t.freq, codes := t.codes, nodeCount := t.nodeCount, root := t.root, symCount := t.symCount,
      treeValid := t.treeValid, outLen := t.outLen, pad := t.pad, totalBits := t.totalBits,
      eng := .idle, done := true, errCode := t.errCode, errInfo := t.errInfo } ∧
    ∀ sym, codeAt t.codes sym = { codeAt s.codes sym with valid := false }) ∧
  (∀ s t : State, exec .count s = .next t →
    t = { s with freq := t.freq, eng := .idle, done := true, errCode := t.errCode, errInfo := t.errInfo }) ∧
  (∀ s t : State, exec .build s = .next t →
    t = { s with
      nodes := t.nodes, nodeCount := t.nodeCount, root := t.root, symCount := t.symCount, treeValid := t.treeValid,
      codes := t.codes, eng := .idle, done := true, errCode := t.errCode, errInfo := t.errInfo } ∧
    ∀ sym, codeAt t.codes sym = { codeAt s.codes sym with valid := false }) ∧
  (∀ s t : State, exec .assign s = .next t →
    t = { s with codes := t.codes, eng := .idle, done := true, errCode := t.errCode, errInfo := t.errInfo }) ∧
  (∀ s t : State, exec .pack s = .next t →
    t = { s with
      outMem := t.outMem, outLen := t.outLen, pad := t.pad, totalBits := t.totalBits,
      eng := .idle, done := true, errCode := t.errCode, errInfo := t.errInfo } ∧
    (t.errCode ≠ .ok → t.pad = s.pad ∧ ∀ i, t.outMem.read i = s.outMem.read i) ∧
    ∀ i, t.outLen.toNat ≤ i → t.errCode = .ok → t.outMem.read i = s.outMem.read i) ∧
  (∀ s t : State, exec .unpack s = .next t →
    t = { s with
      outMem := t.outMem, outLen := t.outLen, totalBits := t.totalBits,
      eng := .idle, done := true, errCode := t.errCode, errInfo := t.errInfo } ∧
    ∀ i, t.outLen.toNat ≤ i → t.errCode = .ok → t.outMem.read i = s.outMem.read i)

/-- Which result codes each of the six commands reports, and the ERR_INFO of each code (60_exceptions.md R213, R215, with
43_bit_packer.md R171, R172, R175 and 44_decoder.md R194, R195, R197 for the index); the reserved code 2 never appears (R218). -/
def Obligations.CommandErrorsAreThoseListed : Prop :=
  ∀ (i : Instr) (s t : State), exec i s = .next t →
    let N := 8 * s.inLen.toNat - s.pad.toNat
    t.errCode ≠ .degenerateTree ∧ t.errCode ≠ .illegalCommand ∧
    (i = .clear → t.errCode = .ok) ∧
    (i = .count → t.errCode = .ok ∨ t.errCode = .length) ∧
    (i = .build → t.errCode = .ok ∨ t.errCode = .emptyInput) ∧
    (i = .assign → t.errCode = .ok ∨ t.errCode = .noTree) ∧
    (i = .pack → t.errCode = .ok ∨ t.errCode = .length ∨ t.errCode = .unknownSymbol ∨ t.errCode = .outputOverflow) ∧
    (i = .unpack → t.errCode = .ok ∨ t.errCode = .length ∨ t.errCode = .invalidPadding ∨ t.errCode = .noTree ∨
      t.errCode = .malformedData ∨ t.errCode = .outputOverflow) ∧
    (t.errCode = .ok ∨ t.errCode = .emptyInput ∨ t.errCode = .noTree → t.errInfo = 0#32) ∧
    (t.errCode = .length → t.errInfo = s.inLen ∧ 65536 < s.inLen.toNat) ∧
    (t.errCode = .invalidPadding → t.errInfo = s.pad.setWidth 32) ∧
    (t.errCode = .unknownSymbol → t.errInfo.toNat < s.inLen.toNat ∧
      (∀ b ∈ s.inputBytes.take t.errInfo.toNat, (codeAt s.codes b).valid = true) ∧
      (codeAt s.codes (s.inMem.read t.errInfo.toNat)).valid = false) ∧
    (t.errCode = .malformedData → t.errInfo.toNat = N ∨
      ((nodeAt s.nodes s.root).symbol?.isSome ∧ t.errInfo.toNat < N ∧
        (streamBits s.inputBytes)[t.errInfo.toNat]? = some true)) ∧
    (t.errCode = .outputOverflow → i = .pack → t.errInfo.toNat < s.inLen.toNat ∧
      (concatCodes s.codes (s.inputBytes.take t.errInfo.toNat)).length ≤ 524288 ∧
      (codeAt s.codes (s.inMem.read t.errInfo.toNat)).valid = true ∧
      524288 < (concatCodes s.codes (s.inputBytes.take t.errInfo.toNat)).length +
        (codeAt s.codes (s.inMem.read t.errInfo.toNat)).len.toNat) ∧
    (t.errCode = .outputOverflow → i = .unpack → t.errInfo.toNat < N ∧
      ∃ cs : List (Byte × BitString), (∀ c ∈ cs, Codeword s.nodes s.root c.1 c.2) ∧ cs.length = 65537 ∧
        (streamBits s.inputBytes).take (t.errInfo.toNat + 1) = cs.flatMap Prod.snd)

/-! ### CLEAR and COUNT -/

/-- 40_session_count.md R111: CLEAR empties the tables and the output registers, leaves IN_LEN, IN_MEM, CTRL and HOSTERR, always
succeeds, and on an already clear block does nothing but complete. -/
def Obligations.ClearStartsASession : Prop :=
  ∀ s : State, ∃ t, exec .clear s = .next t ∧
    (∀ sym, t.freqAt sym = 0#32) ∧ (∀ sym, (codeAt t.codes sym).valid = false) ∧
    t.nodeCount = 0#10 ∧ t.root = 0#9 ∧ t.symCount = 0#9 ∧ t.treeValid = false ∧
    t.outLen = 0#17 ∧ t.totalBits = 0#32 ∧ t.pad = 0#8 ∧
    t.errCode = .ok ∧ t.errInfo = 0#32 ∧ t.done = true ∧ t.eng = .idle ∧
    t.inLen = s.inLen ∧ t.inMem = s.inMem ∧ t.ie = s.ie ∧ t.hostErr = s.hostErr ∧
    t.nodes = s.nodes ∧ t.outMem = s.outMem ∧ t.inputs = s.inputs ∧ t.replies = s.replies ∧
    ((∀ sym, s.freqAt sym = 0#32) → (∀ sym, (codeAt s.codes sym).valid = false) →
      s.nodeCount = 0#10 → s.root = 0#9 → s.symCount = 0#9 → s.treeValid = false →
      s.outLen = 0#17 → s.totalBits = 0#32 → s.pad = 0#8 →
      t = { s with eng := .idle, done := true, errCode := .ok, errInfo := 0#32 })

/-- 40_session_count.md R112: COUNT makes FREQ the frequency table of the input bytes and changes nothing else; an IN_LEN above
65536 is LENGTH with FREQ unchanged. -/
def Obligations.CountGivesTheFrequencies : Prop :=
  ∀ s : State,
    (s.inLen.toNat ≤ 65536 → ∃ t, exec .count s = .next t ∧
      (∀ sym : Byte, (t.freqAt sym).toNat =
        (List.range s.inLen.toNat).countP (fun i => s.inMem.read i = sym)) ∧
      t = { s with freq := t.freq, eng := .idle, done := true, errCode := .ok, errInfo := 0#32 }) ∧
    (65536 < s.inLen.toNat → exec .count s =
      .next { s with eng := .idle, done := true, errCode := .length, errInfo := s.inLen })

/-! ### BUILD -/

/-- 41_tree_builder.md R136: BUILD of the empty table fails, the earlier tree and the code table being lost. -/
def Obligations.BuildOfAnEmptyTableFails : Prop :=
  ∀ s : State, (∀ sym, s.freqAt sym = 0#32) → ∃ t, exec .build s = .next t ∧
    t.errCode = .emptyInput ∧ t.errInfo = 0#32 ∧ t.done = true ∧ t.eng = .idle ∧
    t.treeValid = false ∧ t.nodeCount = 0#10 ∧ t.root = 0#9 ∧ t.symCount = 0#9 ∧
    (∀ sym, (codeAt t.codes sym).valid = false) ∧ t.freq = s.freq ∧ t.nodes = s.nodes

/-- 41_tree_builder.md R137, 10_state.md R41: BUILD of a table with L symbols present succeeds with ROOT = 2L-2, NODE_COUNT = 2L-1,
SYM_COUNT = L, TREE_VALID = 1, and the arena satisfies the tree invariant. -/
def Obligations.BuildMakesATree : Prop :=
  ∀ s : State, presentSymbols s.freq ≠ [] → ∃ t, exec .build s = .next t ∧
    t.errCode = .ok ∧ t.errInfo = 0#32 ∧ t.treeValid = true ∧
    t.root.toNat = 2 * (presentSymbols s.freq).length - 2 ∧
    t.nodeCount.toNat = 2 * (presentSymbols s.freq).length - 1 ∧
    t.symCount.toNat = (presentSymbols s.freq).length ∧ t.TreeInv ∧
    (∀ n : NodeIndex, t.nodeCount.toNat ≤ n.toNat → nodeAt t.nodes n = nodeAt s.nodes n)

/-- 41_tree_builder.md R132: one leaf per symbol present, in ascending symbol order from slot 0, each with its frequency as
weight; absent symbols have none. -/
def Obligations.BuildLeavesAreThePresentSymbols : Prop :=
  ∀ s t : State, exec .build s = .next t → t.errCode = .ok →
    (∀ i, ∀ h : i < (presentSymbols s.freq).length,
      slot t.nodes i = .leaf (presentSymbols s.freq)[i] ((s.freqAt (presentSymbols s.freq)[i]).setWidth 40)) ∧
    (∀ n, (presentSymbols s.freq).length ≤ n → n < t.nodeCount.toNat → (slot t.nodes n).symbol? = none)

/-- The greedy merge, said of its result (41_tree_builder.md R131, R133, R134): when an internal node was created, its left child was
the least candidate in (weight, index) order and its right child the least of the others, and its weight is their sum. -/
def Obligations.BuildMergesTheTwoLeast : Prop :=
  ∀ s t : State, exec .build s = .next t → t.errCode = .ok →
    ∀ n, t.symCount.toNat ≤ n → n < t.nodeCount.toNat →
      ∃ left right w, slot t.nodes n = .internal left right w ∧
        w.toNat = (nodeAt t.nodes left).weight.toNat + (nodeAt t.nodes right).weight.toNat ∧
        IsCandidate t.nodes n left.toNat ∧ IsCandidate t.nodes n right.toNat ∧ left ≠ right ∧
        (∀ m, IsCandidate t.nodes n m → m ≠ left.toNat → keyBefore t.nodes left.toNat m) ∧
        (∀ m, IsCandidate t.nodes n m → m ≠ left.toNat → m ≠ right.toNat → keyBefore t.nodes right.toNat m)

/-- 41_tree_builder.md R135, R140, 42_code_assigner.md R152: one symbol present, byte 0 or any other, gives the one-leaf tree, and
ASSIGN gives that symbol the 1-bit code "0" and no other symbol a code. -/
def Obligations.OneSymbolTree : Prop :=
  ∀ (s : State) (sym : Byte), presentSymbols s.freq = [sym] →
    ∃ t u, exec .build s = .next t ∧ t.errCode = .ok ∧ t.treeValid = true ∧ t.root = 0#9 ∧ t.nodeCount = 1#10 ∧
      t.symCount = 1#9 ∧ slot t.nodes 0 = .leaf sym ((s.freqAt sym).setWidth 40) ∧
      exec .assign t = .next u ∧ u.errCode = .ok ∧ codeAt u.codes sym = ⟨true, 1#8, 0#256⟩ ∧
      (codeAt u.codes sym).bits = [false] ∧ ∀ x, x ≠ sym → (codeAt u.codes x).valid = false

/-- 41_tree_builder.md R139: BUILD's result is a function of the 256 FREQ values alone, and after ASSIGN so is the code table. -/
def Obligations.BuildDependsOnFreqAlone : Prop :=
  ∀ s s' t t' : State, s.freq = s'.freq → exec .build s = .next t → exec .build s' = .next t' →
    t.errCode = t'.errCode ∧ t.treeValid = t'.treeValid ∧ t.nodeCount = t'.nodeCount ∧ t.root = t'.root ∧
    t.symCount = t'.symCount ∧ (∀ n < t.nodeCount.toNat, slot t.nodes n = slot t'.nodes n) ∧
    (t.errCode = .ok → ∃ u u', exec .assign t = .next u ∧ exec .assign t' = .next u' ∧ u.codes = u'.codes)

/-- 41_tree_builder.md R138, 70_reset_and_hazards.md R247: BUILD invalidates the whole code table, on success and on failure, so a
PACK of a legal non-empty input after it fails at the first byte until ASSIGN has run. -/
def Obligations.BuildInvalidatesTheCodeTable : Prop :=
  ∀ s : State, ∃ t, exec .build s = .next t ∧ (∀ sym, (codeAt t.codes sym).valid = false) ∧
    (1 ≤ s.inLen.toNat → s.inLen.toNat ≤ 65536 → ∃ u, exec .pack t = .next u ∧
      u.errCode = .unknownSymbol ∧ u.errInfo = 0#32 ∧ u.outLen = 0#17 ∧ u.totalBits = 0#32)

/-! ### ASSIGN -/

/-- 42_code_assigner.md R150, 60_exceptions.md R214: ASSIGN without a tree is NO_TREE with CODE unchanged; with one it succeeds,
twice giving the same table as once. -/
def Obligations.AssignNeedsATree : Prop :=
  (∀ s : State, s.treeValid = false →
    exec .assign s = .next { s with eng := .idle, done := true, errCode := .noTree, errInfo := 0#32 }) ∧
  (∀ s : State, s.treeValid = true → ∃ t u, exec .assign s = .next t ∧ t.errCode = .ok ∧ t.errInfo = 0#32 ∧
    t = { s with codes := t.codes, eng := .idle, done := true, errCode := .ok, errInfo := 0#32 } ∧
    exec .assign t = .next u ∧ u.codes = t.codes)

/-- 42_code_assigner.md R150 to R154: after ASSIGN exactly the leaves' symbols have a code; it is the symbol's codeword in the tree,
read back bit by bit from its entry, of 1 to L-1 bits (1 bit if L = 1). -/
def Obligations.AssignGivesEachLeafItsPath : Prop :=
  ∀ s : State, s.treeValid = true → s.TreeInv → ∃ t, exec .assign s = .next t ∧ t.errCode = .ok ∧
    ∀ sym : Byte,
      ((codeAt t.codes sym).valid = true ↔ ∃ i < s.symCount.toNat, (slot s.nodes i).symbol? = some sym) ∧
      ((codeAt t.codes sym).valid = true →
        Codeword s.nodes s.root sym (codeAt t.codes sym).bits ∧
        (codeAt t.codes sym).len.toNat = (codeAt t.codes sym).bits.length ∧
        (codeAt t.codes sym).value.toNat < 2 ^ (codeAt t.codes sym).len.toNat ∧
        1 ≤ (codeAt t.codes sym).len.toNat ∧
        (codeAt t.codes sym).len.toNat ≤ max 1 (s.symCount.toNat - 1))

/-- 42_code_assigner.md R155: the codes of a tree with at least two leaves are prefix-free and their Kraft sum is 1; the Kraft sum of
the one code of a one-leaf tree is 1/2. -/
def Obligations.AssignedCodesArePrefixFree : Prop :=
  ∀ s t : State, s.treeValid = true → s.TreeInv → exec .assign s = .next t →
    (∀ a b : Byte, a ≠ b → (codeAt t.codes a).valid = true → (codeAt t.codes b).valid = true →
      ¬ (codeAt t.codes a).bits <+: (codeAt t.codes b).bits) ∧
    (2 ≤ s.symCount.toNat →
      ∑ a : Fin 256, (if (t.codes[a]).valid then (1 / 2 : ℚ) ^ (t.codes[a]).len.toNat else 0) = 1) ∧
    (s.symCount.toNat = 1 →
      ∑ a : Fin 256, (if (t.codes[a]).valid then (1 / 2 : ℚ) ^ (t.codes[a]).len.toNat else 0) = 1 / 2)

/-! ### Bit streams and PACK -/

/-- 20_memory.md R81: a stream is laid out most significant bit first: stream bit j of a buffer is bit 7-(j mod 8) of byte j div 8,
and the bytes that hold a stream have its bits there, missing bits being 0. -/
def Obligations.StreamBitOrder : Prop :=
  (∀ (bytes : List Byte) (j : Nat), (streamBits bytes).length = 8 * bytes.length ∧
    (∀ h : j / 8 < bytes.length, (streamBits bytes)[j]? = some ((bytes[j / 8]).getLsbD (7 - j % 8)))) ∧
  (∀ (bits : BitString) (k j t : Nat), j < k → t < 8 →
    ((packBytes k bits)[j]?).map (fun b => b.getLsbD (7 - t)) = some (bits.getD (8 * j + t) false))

/-- PACK of an input whose bytes all have codes that fit (43_bit_packer.md R171, R173): the output holds the codes one after the other
and P zero bits, with OUT_LEN, TOTAL_BITS and PAD to match; every other OUT_MEM byte and every other field is unchanged. -/
def Obligations.PackConcatenatesTheCodes : Prop :=
  ∀ s : State, s.inLen.toNat ≤ 65536 → (∀ b ∈ s.inputBytes, (codeAt s.codes b).valid = true) →
    (concatCodes s.codes s.inputBytes).length ≤ 524288 →
    let S := concatCodes s.codes s.inputBytes
    let P := (8 - S.length % 8) % 8
    ∃ t, exec .pack s = .next t ∧ t.errCode = .ok ∧ t.totalBits.toNat = S.length ∧ t.pad.toNat = P ∧
      t.outLen.toNat = (S.length + P) / 8 ∧ streamBits t.outputBytes = S ++ List.replicate P false ∧
      (∀ i, t.outLen.toNat ≤ i → t.outMem.read i = s.outMem.read i) ∧
      t = { s with
        outMem := t.outMem, outLen := t.outLen, pad := t.pad, totalBits := t.totalBits,
        eng := .idle, done := true, errCode := .ok, errInfo := 0#32 }

/-- 43_bit_packer.md R174: after a successful PACK, PAD is at most 7 and 8 OUT_LEN - PAD = TOTAL_BITS is the sum of the codeword
lengths of the input bytes. -/
def Obligations.PackPaddingBound : Prop :=
  ∀ s t : State, exec .pack s = .next t → t.errCode = .ok →
    t.pad.toNat ≤ 7 ∧ 8 * t.outLen.toNat - t.pad.toNat = t.totalBits.toNat ∧
    t.totalBits.toNat = (s.inputBytes.map (fun b => (codeAt s.codes b).len.toNat)).sum

/-- The first failing byte decides PACK's error (43_bit_packer.md R171, R172, R175): if the bytes before index i have codes that fit,
then a byte i without a code is UNKNOWN_SYMBOL and one whose code does not fit is OUTPUT_OVERFLOW, with ERR_INFO = i; an
IN_LEN above 65536 is LENGTH before any of them. OUT_LEN and TOTAL_BITS are 0 and nothing else is changed; that OUT_MEM, which the
rules call unspecified after an error, is kept too is the model's choice (log entry 8, DESIGN CHOICE). -/
def Obligations.PackReportsTheFirstFailingByte : Prop :=
  (∀ (s : State) (before : List Byte) (b : Byte) (after : List Byte), s.inLen.toNat ≤ 65536 →
    s.inputBytes = before ++ b :: after → (∀ x ∈ before, (codeAt s.codes x).valid = true) →
    (concatCodes s.codes before).length ≤ 524288 →
    ((codeAt s.codes b).valid = false →
      exec .pack s = .next { s with
        outLen := 0#17, totalBits := 0#32, eng := .idle, done := true, errCode := .unknownSymbol,
        errInfo := BitVec.ofNat 32 before.length }) ∧
    ((codeAt s.codes b).valid = true → 524288 < (concatCodes s.codes before).length + (codeAt s.codes b).len.toNat →
      exec .pack s = .next { s with
        outLen := 0#17, totalBits := 0#32, eng := .idle, done := true, errCode := .outputOverflow,
        errInfo := BitVec.ofNat 32 before.length })) ∧
  (∀ s : State, 65536 < s.inLen.toNat → exec .pack s = .next { s with
    outLen := 0#17, totalBits := 0#32, eng := .idle, done := true, errCode := .length, errInfo := s.inLen }) ∧
  (∀ s t : State, (∀ b ∈ s.inputBytes, (codeAt s.codes b).len.toNat ≤ 8) → exec .pack s = .next t →
    t.errCode ≠ .outputOverflow)

/-- 43_bit_packer.md R176: an empty input packs to nothing whatever the code table holds. -/
def Obligations.PackOfEmptyInput : Prop :=
  ∀ s : State, s.inLen = 0#32 → ∃ t, exec .pack s = .next t ∧ t.errCode = .ok ∧ t.errInfo = 0#32 ∧
    t.outLen = 0#17 ∧ t.pad = 0#8 ∧ t.totalBits = 0#32 ∧ t.outMem = s.outMem ∧ t.codes = s.codes ∧ t.inMem = s.inMem

/-- 43_bit_packer.md R177: PACK depends only on IN_LEN, the input bytes and CODE, and leaves IN_MEM, so the same input packed again
gives the same result. -/
def Obligations.PackReadsOnlyInputAndCodes : Prop :=
  (∀ s s' t t' : State, s.inLen = s'.inLen → (∀ i < s.inLen.toNat, s.inMem.read i = s'.inMem.read i) →
    s.codes = s'.codes → exec .pack s = .next t → exec .pack s' = .next t' →
    t.errCode = t'.errCode ∧ t.errInfo = t'.errInfo ∧ t.outLen = t'.outLen ∧ t.totalBits = t'.totalBits ∧
    t.outputBytes = t'.outputBytes ∧ (t.errCode = .ok → t.pad = t'.pad)) ∧
  (∀ s t : State, exec .pack s = .next t → t.inMem = s.inMem ∧ ∃ u, exec .pack t = .next u ∧
    u.errCode = t.errCode ∧ u.errInfo = t.errInfo ∧ u.outLen = t.outLen ∧ u.pad = t.pad ∧
    u.totalBits = t.totalBits ∧ u.outputBytes = t.outputBytes)

/-! ### UNPACK -/

/-- The operand checks of UNPACK in their order (44_decoder.md R191, R192; 60_exceptions.md R216): each failure leaves OUT_LEN and
TOTAL_BITS 0 and everything else as it was; that OUT_MEM, which the rules call unspecified after an error, is kept too is the
model's choice (log entry 8, DESIGN CHOICE). -/
def Obligations.UnpackChecksItsOperands : Prop :=
  ∀ s : State,
    let failed := fun (e : ErrCode) (info : Word) => (.next { s with
      outLen := 0#17, totalBits := 0#32, eng := .idle, done := true, errCode := e, errInfo := info } :
        Host.Outcome State Fault Refusal)
    (65536 < s.inLen.toNat → exec .unpack s = failed .length s.inLen) ∧
    (s.inLen.toNat ≤ 65536 → 7 < s.pad.toNat → exec .unpack s = failed .invalidPadding (s.pad.setWidth 32)) ∧
    (s.inLen.toNat = 0 → 1 ≤ s.pad.toNat → s.pad.toNat ≤ 7 →
      exec .unpack s = failed .invalidPadding (s.pad.setWidth 32)) ∧
    (s.inLen.toNat ≤ 65536 → s.pad.toNat ≤ 7 → s.pad.toNat ≤ 8 * s.inLen.toNat → s.treeValid = false →
      exec .unpack s = failed .noTree 0#32)

/-- UNPACK of retained bits that are codewords of the tree, one after the other (44_decoder.md R191): the output is their symbols,
OUT_LEN their number and TOTAL_BITS the number of retained bits; every other OUT_MEM byte and every other field is unchanged. -/
def Obligations.UnpackDecodesCodewords : Prop :=
  ∀ (s : State) (cs : List (Byte × BitString)), s.inLen.toNat ≤ 65536 → s.pad.toNat ≤ 7 →
    s.pad.toNat ≤ 8 * s.inLen.toNat → s.treeValid = true →
    (∀ c ∈ cs, Codeword s.nodes s.root c.1 c.2) →
    (streamBits s.inputBytes).take (8 * s.inLen.toNat - s.pad.toNat) = cs.flatMap Prod.snd → cs.length ≤ 65536 →
    ∃ t, exec .unpack s = .next t ∧ t.errCode = .ok ∧ t.outputBytes = cs.map Prod.fst ∧
      t.outLen.toNat = cs.length ∧ t.totalBits.toNat = 8 * s.inLen.toNat - s.pad.toNat ∧
      (∀ i, t.outLen.toNat ≤ i → t.outMem.read i = s.outMem.read i) ∧
      t = { s with
        outMem := t.outMem, outLen := t.outLen, totalBits := t.totalBits,
        eng := .idle, done := true, errCode := .ok, errInfo := 0#32 }

/-- 44_decoder.md R194: retained bits that end inside a path are MALFORMED_DATA with ERR_INFO = N; no retained bits at all are the
empty output. -/
def Obligations.UnpackRejectsAPartialPath : Prop :=
  (∀ (s : State) (cs : List (Byte × BitString)) (q : BitString), s.inLen.toNat ≤ 65536 → s.pad.toNat ≤ 7 →
    s.pad.toNat ≤ 8 * s.inLen.toNat → s.treeValid = true → s.TreeInv →
    (∀ c ∈ cs, Codeword s.nodes s.root c.1 c.2) → q ≠ [] → StaysInside s.nodes s.root q →
    (nodeAt s.nodes (descend s.nodes s.root q)).symbol? = none →
    (streamBits s.inputBytes).take (8 * s.inLen.toNat - s.pad.toNat) = cs.flatMap Prod.snd ++ q →
    cs.length ≤ 65536 →
    ∃ t, exec .unpack s = .next t ∧ t.errCode = .malformedData ∧
      t.errInfo.toNat = 8 * s.inLen.toNat - s.pad.toNat ∧ t.outLen = 0#17 ∧ t.totalBits = 0#32) ∧
  (∀ s : State, s.inLen = 0#32 → s.pad = 0#8 → s.treeValid = true → ∃ t, exec .unpack s = .next t ∧
    t.errCode = .ok ∧ t.errInfo = 0#32 ∧ t.outLen = 0#17 ∧ t.totalBits = 0#32)

/-- 44_decoder.md R195: with a one-leaf tree each retained bit 0 emits the symbol, and the first retained bit 1, if the symbols
before it fit, is MALFORMED_DATA at its index. -/
def Obligations.UnpackWithAOneLeafTree : Prop :=
  ∀ (s : State) (sym : Byte) (w : Weight) (m : Nat), s.inLen.toNat ≤ 65536 → s.pad.toNat ≤ 7 →
    s.pad.toNat ≤ 8 * s.inLen.toNat → s.treeValid = true → nodeAt s.nodes s.root = .leaf sym w → m ≤ 65536 →
    ((streamBits s.inputBytes).take (8 * s.inLen.toNat - s.pad.toNat) = List.replicate m false →
      ∃ t, exec .unpack s = .next t ∧ t.errCode = .ok ∧ t.outputBytes = List.replicate m sym) ∧
    (∀ rest, (streamBits s.inputBytes).take (8 * s.inLen.toNat - s.pad.toNat) =
        List.replicate m false ++ true :: rest →
      ∃ t, exec .unpack s = .next t ∧ t.errCode = .malformedData ∧ t.errInfo.toNat = m ∧
        t.outLen = 0#17 ∧ t.totalBits = 0#32)

/-- 44_decoder.md R197: the 65537th symbol fails UNPACK with OUTPUT_OVERFLOW at the bit that completes it. -/
def Obligations.UnpackRejectsTooManySymbols : Prop :=
  ∀ (s : State) (cs : List (Byte × BitString)) (c : Byte × BitString) (rest : BitString), s.inLen.toNat ≤ 65536 →
    s.pad.toNat ≤ 7 → s.pad.toNat ≤ 8 * s.inLen.toNat → s.treeValid = true →
    (∀ x ∈ cs, Codeword s.nodes s.root x.1 x.2) → Codeword s.nodes s.root c.1 c.2 → cs.length = 65536 →
    (streamBits s.inputBytes).take (8 * s.inLen.toNat - s.pad.toNat) = cs.flatMap Prod.snd ++ c.2 ++ rest →
    ∃ t, exec .unpack s = .next t ∧ t.errCode = .outputOverflow ∧
      t.errInfo.toNat = (cs.flatMap Prod.snd).length + c.2.length - 1 ∧ t.outLen = 0#17 ∧ t.totalBits = 0#32

/-- 44_decoder.md R193, R198: UNPACK's result does not depend on the padding bits or any other byte bit past the retained ones, nor
on CODE; it writes neither the tree nor IN_MEM nor PAD, and decoding again gives the same result. -/
def Obligations.UnpackReadsOnlyRetainedBitsAndTree : Prop :=
  (∀ (s t : State) (m : Memory) (codes : Vector CodeEntry 256),
    (streamBits ((List.range s.inLen.toNat).map m.read)).take (8 * s.inLen.toNat - s.pad.toNat) =
      (streamBits s.inputBytes).take (8 * s.inLen.toNat - s.pad.toNat) →
    exec .unpack s = .next t →
    exec .unpack { s with inMem := m, codes := codes } = .next { t with inMem := m, codes := codes }) ∧
  (∀ s t : State, exec .unpack s = .next t →
    t.nodes = s.nodes ∧ t.nodeCount = s.nodeCount ∧ t.root = s.root ∧ t.symCount = s.symCount ∧
    t.treeValid = s.treeValid ∧ t.codes = s.codes ∧ t.inMem = s.inMem ∧ t.inLen = s.inLen ∧ t.pad = s.pad ∧
    ∃ u, exec .unpack t = .next u ∧ u.errCode = t.errCode ∧ u.errInfo = t.errInfo ∧ u.outLen = t.outLen ∧
      u.totalBits = t.totalBits ∧ u.outputBytes = t.outputBytes)

/-! ### The whole machine -/

/-- 44_decoder.md R199: the round trip. -/
def Obligations.RoundTrip : Prop :=
  ∀ (B : List Byte) (s s1 s2 s3 s4 s5 : State), 1 ≤ B.length → B.length ≤ 65536 →
    s.inMem.holds B → s.inLen.toNat = B.length →
    exec .count s = .next s1 → s1.errCode = .ok → exec .build s1 = .next s2 → s2.errCode = .ok →
    exec .assign s2 = .next s3 → s3.errCode = .ok → exec .pack s3 = .next s4 → s4.errCode = .ok →
    s5.inMem.holds s4.outputBytes → s5.inLen.toNat = s4.outLen.toNat → s5.pad = s4.pad →
    s5.treeValid = s4.treeValid → s5.root = s4.root → s5.nodes = s4.nodes →
    ∃ t, exec .unpack s5 = .next t ∧ t.errCode = .ok ∧ t.outLen.toNat = B.length ∧ t.outMem.holds B

/-- Encoding a non-empty input of at most 65536 bytes never misses a symbol (43_bit_packer.md R172): COUNT, BUILD and ASSIGN
succeed, and PACK succeeds or overflows its buffer. -/
def Obligations.EncodingNeverMissesASymbol : Prop :=
  ∀ s : State, 1 ≤ s.inLen.toNat → s.inLen.toNat ≤ 65536 →
    ∃ s1 s2 s3 s4, exec .count s = .next s1 ∧ s1.errCode = .ok ∧ exec .build s1 = .next s2 ∧ s2.errCode = .ok ∧
      exec .assign s2 = .next s3 ∧ s3.errCode = .ok ∧ exec .pack s3 = .next s4 ∧
      (s4.errCode = .ok ∨ s4.errCode = .outputOverflow)

/-- The buffers keep their canonical form over every step. -/
def Obligations.BuffersStayCanonical : Prop :=
  ∀ s t : State, s.inMem.wf → s.outMem.wf → step s = .next t → t.inMem.wf ∧ t.outMem.wf

/-- The invariant holds at reset. -/
def Obligations.InvariantHoldsAtReset : Prop := State.reset.Inv

/-- Every step keeps the invariant: canonical buffers, result registers in range, no DONE or ERRCODE while busy, never the reserved
code, the tree invariant of 10_state.md R41 whenever TREE_VALID = 1, and a code table that is empty or the current tree's
(41_tree_builder.md R138). -/
def Obligations.EveryStepKeepsTheInvariant : Prop := ∀ s t : State, s.Inv → step s = .next t → t.Inv

/-- What reset left and what commands leave behind out of sight stays out of sight (10_state.md R40, R42, R45; 20_memory.md R67, R68,
R71): two states that differ only there step alike and return the same replies. -/
def Obligations.HiddenContentsAreNeverObserved : Prop :=
  ∀ s s' t : State, s.Inv → SameVisible s s' → step s = .next t → ∃ t', step s' = .next t' ∧ SameVisible t t'

/-! ### Host scripts -/

/-- The LOADIN pseudo-statement (30_encoding.md R99), run by an idle block: IN_MEM holds the bytes from index 0 on, the rest of the last
word is 0, IN_LEN is their number, and nothing else changes. -/
def Obligations.LoadInLoadsTheBytes : Prop :=
  ∀ (s : State) (l : Learned) (bytes : List Byte) (rest : List Input), s.eng = .idle → bytes.length ≤ 65536 →
    s.inputs = inputsOf false ((Pseudo.loadIn bytes).expand l) ++ rest →
    ∃ k t, Host.Core.run Sys2Proof.core k s = .next t ∧
      t = { s with inMem := t.inMem, inLen := BitVec.ofNat 32 bytes.length, inputs := rest } ∧
      t.inMem.holds bytes ∧
      (∀ i, bytes.length ≤ i → i < 4 * wordsFor bytes.length → t.inMem.read i = 0#8) ∧
      (∀ i, 4 * wordsFor bytes.length ≤ i → t.inMem.read i = s.inMem.read i)

/-- The COPYOUT pseudo-statement (30_encoding.md R99), run by an idle block: IN_MEM holds the output bytes and IN_LEN is OUT_LEN, which
is what UNPACK needs to decode what PACK produced (44_decoder.md R190). -/
def Obligations.CopyOutCopiesTheOutput : Prop :=
  ∀ (s : State) (rest : List Input), s.eng = .idle → s.outLen.toNat ≤ 65536 →
    s.inputs = inputsOf false (Pseudo.copyOut.expand s.learned) ++ rest →
    ∃ k t, Host.Core.run Sys2Proof.core k s = .next t ∧
      t = { s with inMem := t.inMem, inLen := s.outLen.setWidth 32, inputs := rest, replies := t.replies } ∧
      t.inMem.holds s.outputBytes ∧
      t.replies = s.replies ++ s.outLen.setWidth 32 :: s.learned.outWords
end

