-- ==== Sys2Proof/Laws/Bits.lean ====
section
/-! SUPPORT. Bit strings: a codeword read back from its table entry, and a bit stream read back from its bytes. -/

namespace Sys2Proof.Machine

@[simp] theorem num_nil : num [] = 0 := rfl

@[simp] theorem num_append_singleton (p : BitString) (c : Bool) : num (p ++ [c]) = 2 * num p + c.toNat := by
  simp [num, List.foldl_append]

theorem num_lt (p : BitString) : num p < 2 ^ p.length := by
  induction p using List.reverseRecOn with
  | nil => simp
  | append_singleton p c ih =>
    rw [num_append_singleton, List.length_append, List.length_singleton, Nat.pow_succ]
    have := Bool.toNat_le c; omega

/-- Bit `len-1-k` of the number is digit k of the bit string (42_code_assigner.md R150, R156). -/
theorem num_testBit (p : BitString) (k : Nat) (h : k < p.length) : (num p).testBit (p.length - 1 - k) = p[k] := by
  induction p using List.reverseRecOn with
  | nil => simp at h
  | append_singleton p c ih =>
    simp only [List.length_append, List.length_singleton] at h
    rw [num_append_singleton, List.length_append, List.length_singleton]
    by_cases hk : k < p.length
    · rw [show p.length + 1 - 1 - k = (p.length - 1 - k) + 1 by omega, Nat.testBit_succ,
        show (2 * num p + c.toNat) / 2 = num p by have := Bool.toNat_le c; omega, ih hk, List.getElem_append_left]
    · obtain rfl : k = p.length := by omega
      cases c <;> simp [Nat.testBit_zero]

theorem codeEntryOf_len {p : BitString} (h : p.length ≤ 255) : (codeEntryOf p).len.toNat = p.length := by
  simp only [codeEntryOf, BitVec.toNat_ofNat]; exact Nat.mod_eq_of_lt (by omega)

/-- A codeword of at most 255 bits is read back as it was stored (42_code_assigner.md R156). -/
theorem codeEntryOf_bits {p : BitString} (h : p.length ≤ 255) : (codeEntryOf p).bits = p := by
  have hl := codeEntryOf_len h
  apply List.ext_getElem
  · simp [CodeEntry.bits, hl]
  · intro k h1 h2
    simp only [CodeEntry.bits, hl, List.getElem_map, List.getElem_range]
    rw [← num_testBit p k h2]
    simp only [codeEntryOf, BitVec.getLsbD_ofNat]
    simp; omega

/-! ### Bytes and bits -/

@[simp] theorem bitsOfByte_length (b : Byte) : (bitsOfByte b).length = 8 := by simp [bitsOfByte]

theorem bitsOfByte_getElem (b : Byte) (t : Nat) (h : t < (bitsOfByte b).length) :
    (bitsOfByte b)[t] = b.getLsbD (7 - t) := by simp [bitsOfByte]

/-- Bit t of the eight, first bit first, is bit 7-t of the byte (20_memory.md R81). -/
theorem byteOfBits_getLsbD (bits : BitString) (t : Nat) (h : t < 8) :
    (byteOfBits bits).getLsbD (7 - t) = bits.getD t false := by
  have h8 : ∀ b0 b1 b2 b3 b4 b5 b6 b7 : Bool, ∀ t < 8,
      (BitVec.ofNat 8 (0 + b0.toNat * 2 ^ (7 - 0) + b1.toNat * 2 ^ (7 - 1) + b2.toNat * 2 ^ (7 - 2) + b3.toNat * 2 ^ (7 - 3)
        + b4.toNat * 2 ^ (7 - 4) + b5.toNat * 2 ^ (7 - 5) + b6.toNat * 2 ^ (7 - 6) + b7.toNat * 2 ^ (7 - 7))).getLsbD (7 - t)
      = [b0, b1, b2, b3, b4, b5, b6, b7].getD t false := by decide +kernel
  have := h8 (bits.getD 0 false) (bits.getD 1 false) (bits.getD 2 false) (bits.getD 3 false) (bits.getD 4 false)
    (bits.getD 5 false) (bits.getD 6 false) (bits.getD 7 false) t h
  have hr : List.range 8 = [0, 1, 2, 3, 4, 5, 6, 7] := rfl
  rw [byteOfBits, hr]
  simp only [List.foldl_cons, List.foldl_nil]
  rw [this]
  match t, h with
  | 0, _ | 1, _ | 2, _ | 3, _ | 4, _ | 5, _ | 6, _ | 7, _ => simp

theorem bitsOfByte_byteOfBits {bits : BitString} (h : bits.length = 8) : bitsOfByte (byteOfBits bits) = bits := by
  apply List.ext_getElem
  · simp [h]
  · intro t h1 h2
    rw [bitsOfByte_getElem, byteOfBits_getLsbD _ _ (by omega), List.getD_eq_getElem]

theorem byteOfBits_bitsOfByte (b : Byte) : byteOfBits (bitsOfByte b) = b := by
  apply BitVec.eq_of_getLsbD_eq
  intro i hi
  have := byteOfBits_getLsbD (bitsOfByte b) (7 - i) (by omega)
  rw [show 7 - (7 - i) = i by omega] at this
  rw [this, List.getD_eq_getElem _ _ (by simp; omega), bitsOfByte_getElem]
  congr 1; omega

@[simp] theorem streamBits_nil : streamBits [] = [] := rfl
@[simp] theorem streamBits_cons (b : Byte) (bs : List Byte) : streamBits (b :: bs) = bitsOfByte b ++ streamBits bs := by
  simp [streamBits]

@[simp] theorem streamBits_length (bytes : List Byte) : (streamBits bytes).length = 8 * bytes.length := by
  induction bytes with
  | nil => rfl
  | cons b bs ih => simp [ih]; omega

@[simp] theorem packBytes_length (k : Nat) (bits : BitString) : (packBytes k bits).length = k := by
  induction k generalizing bits with
  | zero => rfl
  | succ k ih => simp [packBytes, ih]

/-- A stream of 8k bits is read back from its k bytes (20_memory.md R81). -/
theorem streamBits_packBytes {k : Nat} {bits : BitString} (h : bits.length = 8 * k) :
    streamBits (packBytes k bits) = bits := by
  induction k generalizing bits with
  | zero => simp [packBytes, List.eq_nil_of_length_eq_zero h]
  | succ k ih =>
    rw [packBytes, streamBits_cons, bitsOfByte_byteOfBits (by simp; omega), ih (by simp; omega), List.take_append_drop]

end Sys2Proof.Machine
end

