-- ==== Sys2Proof/Laws/State.lean ====
section
/-! SUPPORT. One lemma per field per named update of State, true by rfl, so that no proof unfolds a record update. -/

namespace Sys2Proof.Machine

variable (s : State)

@[simp] theorem State.succeed_eq : s.succeed = s.complete .ok 0#32 := rfl
@[simp] theorem State.raise_eq (r : Raise) : s.raise r = s.complete r.code r.info := rfl
@[simp] theorem State.completeIllegal_eq (d : Word) : s.completeIllegal d = s.complete .illegalCommand d := rfl

@[simp] theorem State.complete_ie (e : ErrCode) (info : Word) : (s.complete e info).ie = s.ie := rfl
@[simp] theorem State.complete_done (e : ErrCode) (info : Word) : (s.complete e info).done = true := rfl
@[simp] theorem State.complete_errCode (e : ErrCode) (info : Word) : (s.complete e info).errCode = e := rfl
@[simp] theorem State.complete_treeValid (e : ErrCode) (info : Word) : (s.complete e info).treeValid = s.treeValid := rfl
@[simp] theorem State.complete_hostErr (e : ErrCode) (info : Word) : (s.complete e info).hostErr = s.hostErr := rfl
@[simp] theorem State.complete_inLen (e : ErrCode) (info : Word) : (s.complete e info).inLen = s.inLen := rfl
@[simp] theorem State.complete_outLen (e : ErrCode) (info : Word) : (s.complete e info).outLen = s.outLen := rfl
@[simp] theorem State.complete_pad (e : ErrCode) (info : Word) : (s.complete e info).pad = s.pad := rfl
@[simp] theorem State.complete_root (e : ErrCode) (info : Word) : (s.complete e info).root = s.root := rfl
@[simp] theorem State.complete_nodeCount (e : ErrCode) (info : Word) : (s.complete e info).nodeCount = s.nodeCount := rfl
@[simp] theorem State.complete_symCount (e : ErrCode) (info : Word) : (s.complete e info).symCount = s.symCount := rfl
@[simp] theorem State.complete_totalBits (e : ErrCode) (info : Word) : (s.complete e info).totalBits = s.totalBits := rfl
@[simp] theorem State.complete_errInfo (e : ErrCode) (info : Word) : (s.complete e info).errInfo = info := rfl
@[simp] theorem State.complete_freq (e : ErrCode) (info : Word) : (s.complete e info).freq = s.freq := rfl
@[simp] theorem State.complete_nodes (e : ErrCode) (info : Word) : (s.complete e info).nodes = s.nodes := rfl
@[simp] theorem State.complete_codes (e : ErrCode) (info : Word) : (s.complete e info).codes = s.codes := rfl
@[simp] theorem State.complete_inMem (e : ErrCode) (info : Word) : (s.complete e info).inMem = s.inMem := rfl
@[simp] theorem State.complete_outMem (e : ErrCode) (info : Word) : (s.complete e info).outMem = s.outMem := rfl
@[simp] theorem State.complete_eng (e : ErrCode) (info : Word) : (s.complete e info).eng = .idle := rfl
@[simp] theorem State.complete_inputs (e : ErrCode) (info : Word) : (s.complete e info).inputs = s.inputs := rfl
@[simp] theorem State.complete_replies (e : ErrCode) (info : Word) : (s.complete e info).replies = s.replies := rfl

@[simp] theorem State.accept_ie (d : Word) : (s.accept d).ie = s.ie := rfl
@[simp] theorem State.accept_done (d : Word) : (s.accept d).done = false := rfl
@[simp] theorem State.accept_errCode (d : Word) : (s.accept d).errCode = .ok := rfl
@[simp] theorem State.accept_treeValid (d : Word) : (s.accept d).treeValid = s.treeValid := rfl
@[simp] theorem State.accept_hostErr (d : Word) : (s.accept d).hostErr = s.hostErr := rfl
@[simp] theorem State.accept_inLen (d : Word) : (s.accept d).inLen = s.inLen := rfl
@[simp] theorem State.accept_outLen (d : Word) : (s.accept d).outLen = s.outLen := rfl
@[simp] theorem State.accept_pad (d : Word) : (s.accept d).pad = s.pad := rfl
@[simp] theorem State.accept_root (d : Word) : (s.accept d).root = s.root := rfl
@[simp] theorem State.accept_nodeCount (d : Word) : (s.accept d).nodeCount = s.nodeCount := rfl
@[simp] theorem State.accept_symCount (d : Word) : (s.accept d).symCount = s.symCount := rfl
@[simp] theorem State.accept_totalBits (d : Word) : (s.accept d).totalBits = s.totalBits := rfl
@[simp] theorem State.accept_errInfo (d : Word) : (s.accept d).errInfo = s.errInfo := rfl
@[simp] theorem State.accept_freq (d : Word) : (s.accept d).freq = s.freq := rfl
@[simp] theorem State.accept_nodes (d : Word) : (s.accept d).nodes = s.nodes := rfl
@[simp] theorem State.accept_codes (d : Word) : (s.accept d).codes = s.codes := rfl
@[simp] theorem State.accept_inMem (d : Word) : (s.accept d).inMem = s.inMem := rfl
@[simp] theorem State.accept_outMem (d : Word) : (s.accept d).outMem = s.outMem := rfl
@[simp] theorem State.accept_eng (d : Word) : (s.accept d).eng = .busy d := rfl
@[simp] theorem State.accept_inputs (d : Word) : (s.accept d).inputs = s.inputs := rfl
@[simp] theorem State.accept_replies (d : Word) : (s.accept d).replies = s.replies := rfl

@[simp] theorem State.refuseAccess_ie : s.refuseAccess.ie = s.ie := rfl
@[simp] theorem State.refuseAccess_done : s.refuseAccess.done = s.done := rfl
@[simp] theorem State.refuseAccess_errCode : s.refuseAccess.errCode = s.errCode := rfl
@[simp] theorem State.refuseAccess_treeValid : s.refuseAccess.treeValid = s.treeValid := rfl
@[simp] theorem State.refuseAccess_hostErr : s.refuseAccess.hostErr = true := rfl
@[simp] theorem State.refuseAccess_inLen : s.refuseAccess.inLen = s.inLen := rfl
@[simp] theorem State.refuseAccess_outLen : s.refuseAccess.outLen = s.outLen := rfl
@[simp] theorem State.refuseAccess_pad : s.refuseAccess.pad = s.pad := rfl
@[simp] theorem State.refuseAccess_root : s.refuseAccess.root = s.root := rfl
@[simp] theorem State.refuseAccess_nodeCount : s.refuseAccess.nodeCount = s.nodeCount := rfl
@[simp] theorem State.refuseAccess_symCount : s.refuseAccess.symCount = s.symCount := rfl
@[simp] theorem State.refuseAccess_totalBits : s.refuseAccess.totalBits = s.totalBits := rfl
@[simp] theorem State.refuseAccess_errInfo : s.refuseAccess.errInfo = s.errInfo := rfl
@[simp] theorem State.refuseAccess_freq : s.refuseAccess.freq = s.freq := rfl
@[simp] theorem State.refuseAccess_nodes : s.refuseAccess.nodes = s.nodes := rfl
@[simp] theorem State.refuseAccess_codes : s.refuseAccess.codes = s.codes := rfl
@[simp] theorem State.refuseAccess_inMem : s.refuseAccess.inMem = s.inMem := rfl
@[simp] theorem State.refuseAccess_outMem : s.refuseAccess.outMem = s.outMem := rfl
@[simp] theorem State.refuseAccess_eng : s.refuseAccess.eng = s.eng := rfl
@[simp] theorem State.refuseAccess_inputs : s.refuseAccess.inputs = s.inputs := rfl
@[simp] theorem State.refuseAccess_replies : s.refuseAccess.replies = s.replies := rfl

@[simp] theorem State.writeStatus_ie (d : Word) : (s.writeStatus d).ie = s.ie := rfl
@[simp] theorem State.writeStatus_done (d : Word) : (s.writeStatus d).done = (s.done && !d.getLsbD 1) := rfl
@[simp] theorem State.writeStatus_errCode (d : Word) : (s.writeStatus d).errCode = s.errCode := rfl
@[simp] theorem State.writeStatus_treeValid (d : Word) : (s.writeStatus d).treeValid = s.treeValid := rfl
@[simp] theorem State.writeStatus_hostErr (d : Word) : (s.writeStatus d).hostErr = (s.hostErr && !d.getLsbD 17) := rfl
@[simp] theorem State.writeStatus_inLen (d : Word) : (s.writeStatus d).inLen = s.inLen := rfl
@[simp] theorem State.writeStatus_outLen (d : Word) : (s.writeStatus d).outLen = s.outLen := rfl
@[simp] theorem State.writeStatus_pad (d : Word) : (s.writeStatus d).pad = s.pad := rfl
@[simp] theorem State.writeStatus_root (d : Word) : (s.writeStatus d).root = s.root := rfl
@[simp] theorem State.writeStatus_nodeCount (d : Word) : (s.writeStatus d).nodeCount = s.nodeCount := rfl
@[simp] theorem State.writeStatus_symCount (d : Word) : (s.writeStatus d).symCount = s.symCount := rfl
@[simp] theorem State.writeStatus_totalBits (d : Word) : (s.writeStatus d).totalBits = s.totalBits := rfl
@[simp] theorem State.writeStatus_errInfo (d : Word) : (s.writeStatus d).errInfo = s.errInfo := rfl
@[simp] theorem State.writeStatus_freq (d : Word) : (s.writeStatus d).freq = s.freq := rfl
@[simp] theorem State.writeStatus_nodes (d : Word) : (s.writeStatus d).nodes = s.nodes := rfl
@[simp] theorem State.writeStatus_codes (d : Word) : (s.writeStatus d).codes = s.codes := rfl
@[simp] theorem State.writeStatus_inMem (d : Word) : (s.writeStatus d).inMem = s.inMem := rfl
@[simp] theorem State.writeStatus_outMem (d : Word) : (s.writeStatus d).outMem = s.outMem := rfl
@[simp] theorem State.writeStatus_eng (d : Word) : (s.writeStatus d).eng = s.eng := rfl
@[simp] theorem State.writeStatus_inputs (d : Word) : (s.writeStatus d).inputs = s.inputs := rfl
@[simp] theorem State.writeStatus_replies (d : Word) : (s.writeStatus d).replies = s.replies := rfl

@[simp] theorem State.writeCtrl_ie (d : Word) : (s.writeCtrl d).ie = d.getLsbD 0 := rfl
@[simp] theorem State.writeCtrl_done (d : Word) : (s.writeCtrl d).done = s.done := rfl
@[simp] theorem State.writeCtrl_errCode (d : Word) : (s.writeCtrl d).errCode = s.errCode := rfl
@[simp] theorem State.writeCtrl_treeValid (d : Word) : (s.writeCtrl d).treeValid = s.treeValid := rfl
@[simp] theorem State.writeCtrl_hostErr (d : Word) : (s.writeCtrl d).hostErr = s.hostErr := rfl
@[simp] theorem State.writeCtrl_inLen (d : Word) : (s.writeCtrl d).inLen = s.inLen := rfl
@[simp] theorem State.writeCtrl_outLen (d : Word) : (s.writeCtrl d).outLen = s.outLen := rfl
@[simp] theorem State.writeCtrl_pad (d : Word) : (s.writeCtrl d).pad = s.pad := rfl
@[simp] theorem State.writeCtrl_root (d : Word) : (s.writeCtrl d).root = s.root := rfl
@[simp] theorem State.writeCtrl_nodeCount (d : Word) : (s.writeCtrl d).nodeCount = s.nodeCount := rfl
@[simp] theorem State.writeCtrl_symCount (d : Word) : (s.writeCtrl d).symCount = s.symCount := rfl
@[simp] theorem State.writeCtrl_totalBits (d : Word) : (s.writeCtrl d).totalBits = s.totalBits := rfl
@[simp] theorem State.writeCtrl_errInfo (d : Word) : (s.writeCtrl d).errInfo = s.errInfo := rfl
@[simp] theorem State.writeCtrl_freq (d : Word) : (s.writeCtrl d).freq = s.freq := rfl
@[simp] theorem State.writeCtrl_nodes (d : Word) : (s.writeCtrl d).nodes = s.nodes := rfl
@[simp] theorem State.writeCtrl_codes (d : Word) : (s.writeCtrl d).codes = s.codes := rfl
@[simp] theorem State.writeCtrl_inMem (d : Word) : (s.writeCtrl d).inMem = s.inMem := rfl
@[simp] theorem State.writeCtrl_outMem (d : Word) : (s.writeCtrl d).outMem = s.outMem := rfl
@[simp] theorem State.writeCtrl_eng (d : Word) : (s.writeCtrl d).eng = s.eng := rfl
@[simp] theorem State.writeCtrl_inputs (d : Word) : (s.writeCtrl d).inputs = s.inputs := rfl
@[simp] theorem State.writeCtrl_replies (d : Word) : (s.writeCtrl d).replies = s.replies := rfl

@[simp] theorem State.afterReset_ie (d : ResetDraw) : (s.afterReset d).ie = false := rfl
@[simp] theorem State.afterReset_done (d : ResetDraw) : (s.afterReset d).done = false := rfl
@[simp] theorem State.afterReset_errCode (d : ResetDraw) : (s.afterReset d).errCode = .ok := rfl
@[simp] theorem State.afterReset_treeValid (d : ResetDraw) : (s.afterReset d).treeValid = false := rfl
@[simp] theorem State.afterReset_hostErr (d : ResetDraw) : (s.afterReset d).hostErr = false := rfl
@[simp] theorem State.afterReset_inLen (d : ResetDraw) : (s.afterReset d).inLen = 0#32 := rfl
@[simp] theorem State.afterReset_outLen (d : ResetDraw) : (s.afterReset d).outLen = 0#17 := rfl
@[simp] theorem State.afterReset_pad (d : ResetDraw) : (s.afterReset d).pad = 0#8 := rfl
@[simp] theorem State.afterReset_root (d : ResetDraw) : (s.afterReset d).root = 0#9 := rfl
@[simp] theorem State.afterReset_nodeCount (d : ResetDraw) : (s.afterReset d).nodeCount = 0#10 := rfl
@[simp] theorem State.afterReset_symCount (d : ResetDraw) : (s.afterReset d).symCount = 0#9 := rfl
@[simp] theorem State.afterReset_totalBits (d : ResetDraw) : (s.afterReset d).totalBits = 0#32 := rfl
@[simp] theorem State.afterReset_errInfo (d : ResetDraw) : (s.afterReset d).errInfo = 0#32 := rfl
@[simp] theorem State.afterReset_freq (d : ResetDraw) : (s.afterReset d).freq = d.freq := rfl
@[simp] theorem State.afterReset_nodes (d : ResetDraw) : (s.afterReset d).nodes = d.nodes := rfl
@[simp] theorem State.afterReset_codes (d : ResetDraw) : (s.afterReset d).codes = invalidateCodes d.codes := rfl
@[simp] theorem State.afterReset_inMem (d : ResetDraw) : (s.afterReset d).inMem = Memory.cells 0 (d.inBytes.take Config.bufBytes) := rfl
@[simp] theorem State.afterReset_outMem (d : ResetDraw) : (s.afterReset d).outMem = Memory.cells 0 (d.outBytes.take Config.bufBytes) := rfl
@[simp] theorem State.afterReset_eng (d : ResetDraw) : (s.afterReset d).eng = .idle := rfl
@[simp] theorem State.afterReset_inputs (d : ResetDraw) : (s.afterReset d).inputs = s.inputs := rfl
@[simp] theorem State.afterReset_replies (d : ResetDraw) : (s.afterReset d).replies = s.replies := rfl

/-- BUSY is `eng` holding a word (10_state.md R25). -/
theorem State.busy_iff : s.busy = true ↔ ∃ d, s.eng = .busy d := by
  unfold State.busy; cases s.eng <;> simp

theorem State.not_busy_iff : s.busy = false ↔ s.eng = .idle := by
  unfold State.busy; simp

end Sys2Proof.Machine
end

