-- ==== Sys2Proof/Laws/Exec.lean ====
section
/-! SUPPORT. What one command, one completion and one step can do, each said once. -/

namespace Sys2Proof.Machine

/-- What a PACK can do (43_bit_packer.md R171). -/
theorem execPack_cases (s : State) :
    (s.lengthOk = false ∧
      execPack s = .next ({ s with outLen := 0#17, totalBits := 0#32 }.raise s.lengthError)) ∨
    (∃ r, s.lengthOk = true ∧ packLoop s.codes 0 0 s.inputBytes = .error r ∧
      execPack s = .next ({ s with outLen := 0#17, totalBits := 0#32 }.raise r)) ∨
    (∃ bits, s.lengthOk = true ∧ packLoop s.codes 0 0 s.inputBytes = .ok bits ∧
      execPack s = .next { s with
        outMem := s.outMem.writeBytes 0 (packedBytes bits)
        outLen := BitVec.ofNat 17 (packedBytes bits).length
        totalBits := BitVec.ofNat 32 bits.length
        pad := BitVec.ofNat 8 (paddingOf bits.length) }.succeed) := by
  unfold execPack
  cases hl : s.lengthOk
  · exact .inl ⟨rfl, by simp⟩
  · cases hp : packLoop s.codes 0 0 s.inputBytes with
    | error r => exact .inr (.inl ⟨r, rfl, rfl, by simp⟩)
    | ok bits => exact .inr (.inr ⟨bits, rfl, rfl, by simp⟩)

/-- What an UNPACK can do (44_decoder.md R191). -/
theorem execUnpack_cases (s : State) :
    (∃ r, s.unpackCheck = some r ∧
      execUnpack s = .next ({ s with outLen := 0#17, totalBits := 0#32 }.raise r)) ∨
    (∃ d r, s.unpackCheck = none ∧ decodeBits s.nodes s.root s.retainedBits = d ∧ d.failure = some r ∧
      execUnpack s = .next ({ s with
        outLen := 0#17, totalBits := 0#32, outMem := s.outMem.writeBytes 0 d.symbols }.raise r)) ∨
    (∃ d, s.unpackCheck = none ∧ decodeBits s.nodes s.root s.retainedBits = d ∧ d.failure = none ∧
      execUnpack s = .next { s with
        outMem := s.outMem.writeBytes 0 d.symbols
        outLen := BitVec.ofNat 17 d.symbols.length
        totalBits := BitVec.ofNat 32 s.retainedCount }.succeed) := by
  unfold execUnpack
  cases hc : s.unpackCheck with
  | some r => exact .inl ⟨r, rfl, rfl⟩
  | none =>
    cases hf : (decodeBits s.nodes s.root s.retainedBits).failure with
    | some r => exact .inr (.inl ⟨_, r, rfl, rfl, hf, by simp [hf]⟩)
    | none => exact .inr (.inr ⟨_, rfl, rfl, hf, by simp [hf]⟩)

/-- What a BUILD can do (41_tree_builder.md R131). -/
theorem execBuild_cases (s : State) :
    (leaves s.freq = [] ∧ execBuild s = .next ({ s with
      codes := invalidateCodes s.codes
      nodeCount := 0#10
      root := 0#9
      symCount := 0#9
      treeValid := false }.raise ⟨.emptyInput, 0#32⟩)) ∨
    (leaves s.freq ≠ [] ∧ execBuild s = .next { s with
      codes := invalidateCodes s.codes
      nodes := storeNodes s.nodes (treeOf s.freq)
      root := BitVec.ofNat 9 ((treeOf s.freq).length - 1)
      nodeCount := BitVec.ofNat 10 (treeOf s.freq).length
      symCount := BitVec.ofNat 9 (leaves s.freq).length
      treeValid := true }.succeed) := by
  unfold execBuild
  by_cases h : leaves s.freq = []
  · exact .inl ⟨h, if_pos h⟩
  · exact .inr ⟨h, if_neg h⟩

/-- What an ASSIGN can do (42_code_assigner.md R150). -/
theorem execAssign_cases (s : State) :
    (s.treeValid = false ∧ execAssign s = .next (s.raise ⟨.noTree, 0#32⟩)) ∨
    (s.treeValid = true ∧
      execAssign s = .next { s with codes := codeTable (treeCodes s.nodes s.root) }.succeed) := by
  unfold execAssign; cases s.treeValid <;> simp

/-- What a COUNT can do (40_session_count.md R112). -/
theorem execCount_cases (s : State) :
    (s.lengthOk = false ∧ execCount s = .next (s.raise s.lengthError)) ∨
    (s.lengthOk = true ∧ execCount s = .next { s with freq := countBytes s.inputBytes }.succeed) := by
  unfold execCount; cases s.lengthOk <;> simp

/-- What one step can do: the engine completes, an input is delivered, or the run has ended (00_scope.md R11). -/
theorem step_cases {s t : State} (h : step s = .next t) :
    (∃ d, s.turn = .engine d ∧ s.eng = .busy d ∧ completionStep d s = .next t) ∨
    (∃ e rest, s.turn = .input e rest ∧ (∃ i, s.inputs = i :: rest ∧ i.event = e) ∧
      t = { s with inputs := rest }.deliver e) ∨
    (s.turn = .ended ∧ s.eng = .idle ∧ s.inputs = [] ∧ t = s) := by
  unfold step at h
  cases ht : s.turn with
  | engine d =>
    rw [ht] at h
    refine .inl ⟨d, rfl, ?_, h⟩
    unfold State.turn at ht
    split at ht <;> try split at ht
    all_goals simp_all
  | input e rest =>
    rw [ht] at h
    refine .inr (.inl ⟨e, rest, rfl, ?_, by simpa using h.symm⟩)
    unfold State.turn at ht
    split at ht <;> try split at ht
    all_goals simp_all
  | ended =>
    rw [ht] at h
    refine .inr (.inr ⟨rfl, ?_, ?_, by simpa using h.symm⟩)
    all_goals
      unfold State.turn at ht
      split at ht <;> try split at ht
      all_goals simp_all

/-- The engine's completion is a command's meaning or the illegal completion (60_exceptions.md R212). -/
theorem completionStep_cases (d : Word) (s : State) :
    (∃ i, decode d = .ok i ∧ completionStep d s = exec i s) ∨
    (∃ e, decode d = .error e ∧ completionStep d s = .next (s.completeIllegal d)) := by
  unfold completionStep
  cases h : decode d with
  | ok i => exact .inl ⟨i, rfl, rfl⟩
  | error e => exact .inr ⟨e, rfl, rfl⟩

/-- One more step of a run of any machine, where the step answers a next state. -/
theorem run_next_of (M : Host.Core) {k : Nat} {s t : M.State} (h : M.step s = .next t) :
    M.run (k + 1) s = M.run k t := by
  rw [Host.Core.run, h]

/-- One more step of a run of this machine, where the step answers a next state. -/
theorem run_next {k : Nat} {s t : State} (h : step s = .next t) :
    Host.Core.run Sys2Proof.core (k + 1) s = Host.Core.run Sys2Proof.core k t :=
  run_next_of Sys2Proof.core h

end Sys2Proof.Machine
end

