-- ==== Sys2Proof/Laws/Tables.lean ====
section
/-! SUPPORT. The tables FREQ, NODE and CODE: what an entry is after a write, and what COUNT puts into FREQ. -/

namespace Sys2Proof.Machine

theorem toNat_ne_of_ne {n : Nat} {a b : BitVec n} (h : a ≠ b) : a.toNat ≠ b.toNat := fun e => h (BitVec.eq_of_toNat_eq e)

/-! ### FREQ -/

theorem setFreq_get (f : Vector Word Config.nsym) (a b : Byte) (v : Word) :
    (setFreq f a v)[b.toNat]'b.isLt = if a = b then v else f[b.toNat]'b.isLt := by
  unfold setFreq
  rw [Vector.getElem_set]
  by_cases h : a = b
  · simp [h]
  · rw [if_neg h, if_neg (toNat_ne_of_ne h)]

@[simp] theorem zeroFreq_get (b : Byte) : zeroFreq[b.toNat]'b.isLt = 0#32 := by simp [zeroFreq]

/-- Two frequency tables with the same entries are the same. -/
theorem freq_ext {f g : Vector Word Config.nsym} (h : ∀ b : Byte, f[b.toNat]'b.isLt = g[b.toNat]'b.isLt) : f = g := by
  apply Vector.ext
  intro i hi
  have := h (BitVec.ofNat 8 i)
  simpa [Nat.mod_eq_of_lt hi] using this

theorem countBytes_foldl (bytes : List Byte) (f : Vector Word Config.nsym) (b : Byte) :
    (bytes.foldl (fun freq b => setFreq freq b (freq[b.toNat]'b.isLt + 1#32)) f)[b.toNat]'b.isLt =
      f[b.toNat]'b.isLt + BitVec.ofNat 32 (bytes.count b) := by
  induction bytes generalizing f with
  | nil => simp
  | cons c bs ih =>
    rw [List.foldl_cons, ih, setFreq_get, List.count_cons]
    by_cases h : c = b
    · subst h; simp only [if_true, beq_self_eq_true, BitVec.ofNat_add]; ac_rfl
    · simp [h]

/-- FREQ after COUNT: each entry is how often its symbol occurs (40_session_count.md R112). -/
theorem countBytes_get (bytes : List Byte) (b : Byte) :
    (countBytes bytes)[b.toNat]'b.isLt = BitVec.ofNat 32 (bytes.count b) := by
  unfold countBytes; rw [countBytes_foldl]; simp

/-! ### CODE -/

theorem codeAt_setCode (c : Vector CodeEntry Config.nsym) (a b : Byte) (e : CodeEntry) :
    codeAt (setCode c a e) b = if a = b then e else codeAt c b := by
  unfold codeAt setCode
  rw [Vector.getElem_set]
  by_cases h : a = b
  · simp [h]
  · rw [if_neg h, if_neg (toNat_ne_of_ne h)]

@[simp] theorem codeAt_emptyCodes (b : Byte) : codeAt emptyCodes b = ⟨false, 0#8, 0#256⟩ := by
  simp [codeAt, emptyCodes]

@[simp] theorem codeAt_invalidateCodes (c : Vector CodeEntry Config.nsym) (b : Byte) :
    codeAt (invalidateCodes c) b = { codeAt c b with valid := false } := by
  simp [codeAt, invalidateCodes]

/-- Two code tables with the same entries are the same. -/
theorem codes_ext {c d : Vector CodeEntry Config.nsym} (h : ∀ b, codeAt c b = codeAt d b) : c = d := by
  apply Vector.ext
  intro i hi
  have := h (BitVec.ofNat 8 i)
  simpa [codeAt, Nat.mod_eq_of_lt hi] using this

/-- Making an invalid table invalid changes nothing. -/
theorem invalidateCodes_of_invalid {c : Vector CodeEntry Config.nsym} (h : ∀ b, (codeAt c b).valid = false) :
    invalidateCodes c = c := by
  apply codes_ext
  intro b
  rw [codeAt_invalidateCodes, ← h b]

/-! ### NODE -/

/-- Two arenas with the same slots are the same. -/
theorem nodes_ext {v w : Vector Node Config.nodeSlots} (h : ∀ n, nodeAt v n = nodeAt w n) : v = w := by
  apply Vector.ext
  intro i hi
  have := h (BitVec.ofNat 9 i)
  simpa [nodeAt, Nat.mod_eq_of_lt hi] using this

theorem slot_toNat (nodes : Vector Node Config.nodeSlots) (n : NodeIndex) : slot nodes n.toNat = nodeAt nodes n := by
  unfold slot; congr 1; simp

theorem nodeAt_storeNodes (nodes : Vector Node Config.nodeSlots) (arena : List Node) (n : NodeIndex) :
    nodeAt (storeNodes nodes arena) n = (arena[n.toNat]?).getD (nodeAt nodes n) := by
  simp [nodeAt, storeNodes]

/-- The slots an arena is stored in. -/
theorem slot_storeNodes {nodes : Vector Node Config.nodeSlots} {arena : List Node} {n : Nat} (h : n < arena.length)
    (h5 : n < 512) : slot (storeNodes nodes arena) n = arena[n] := by
  unfold slot
  rw [nodeAt_storeNodes]
  have : (BitVec.ofNat 9 n).toNat = n := by simp; omega
  rw [this, List.getElem?_eq_getElem h]; rfl

/-- The slots past the stored arena keep their contents. -/
theorem nodeAt_storeNodes_of_le {nodes : Vector Node Config.nodeSlots} {arena : List Node} {n : NodeIndex}
    (h : arena.length ≤ n.toNat) : nodeAt (storeNodes nodes arena) n = nodeAt nodes n := by
  rw [nodeAt_storeNodes, List.getElem?_eq_none h]; rfl

end Sys2Proof.Machine
end

