-- ==== Sys2Proof/Laws/Tree.lean ====
section
/-! SUPPORT. The greedy merge: what extraction takes, what every merge keeps, and the shape of the tree BUILD stores. -/

namespace Sys2Proof.Machine

/-! ### Extraction -/

theorem Cand.before_iff (x y : Cand) : x.before y = true ↔
    x.weight.toNat < y.weight.toNat ∨ (x.weight.toNat = y.weight.toNat ∧ x.index < y.index) := by
  simp [Cand.before]

theorem argmin_mem (x : Cand) (ys : List Cand) : argmin x ys ∈ x :: ys := by
  induction ys generalizing x with
  | nil => simp [argmin]
  | cons y ys ih =>
    rw [argmin]
    have := ih (if y.before x then y else x)
    split <;> rename_i hb <;> simp only [hb, if_true, Bool.false_eq_true, if_false] at this ⊢
    · exact List.mem_cons_of_mem _ this
    · rcases List.mem_cons.1 this with h | h
      · rw [h]; exact List.mem_cons_self ..
      · exact List.mem_cons_of_mem _ (List.mem_cons_of_mem _ h)

/-- Nothing in the queue comes before the extracted candidate (00_scope.md R10). -/
theorem argmin_least (x : Cand) (ys : List Cand) : ∀ z ∈ x :: ys, z.before (argmin x ys) = false := by
  induction ys generalizing x with
  | nil =>
    intro z hz
    obtain rfl : z = x := by simpa using hz
    rw [argmin, ← Bool.not_eq_true, Cand.before_iff]; omega
  | cons y ys ih =>
    intro z hz
    rw [argmin]
    have htrans : ∀ a b c : Cand, a.before b = false → b.before c = false → a.before c = false := by
      intro a b c
      simp only [← Bool.not_eq_true, Cand.before_iff]; omega
    have hhead := ih (if y.before x then y else x) _ (List.mem_cons_self ..)
    have hx : x.before (if y.before x then y else x) = false := by
      split
      · rename_i h
        rw [Cand.before_iff] at h; rw [← Bool.not_eq_true, Cand.before_iff]; omega
      · rw [← Bool.not_eq_true, Cand.before_iff]; omega
    have hy : y.before (if y.before x then y else x) = false := by
      split
      · rw [← Bool.not_eq_true, Cand.before_iff]; omega
      · rename_i h; simpa using h
    rcases List.mem_cons.1 hz with rfl | hz
    · exact htrans _ _ _ hx hhead
    · rcases List.mem_cons.1 hz with rfl | hz
      · exact htrans _ _ _ hy hhead
      · exact ih _ z (List.mem_cons_of_mem _ hz)

/-- What extraction gives: the queue is the extracted candidate and the rest, and if the indices are distinct the extracted one
comes before every other (41_tree_builder.md R134). -/
theorem extractMin_spec {q rest : List Cand} {a : Cand} (h : extractMin q = some (a, rest)) :
    q.Perm (a :: rest) ∧ ((q.map Cand.index).Nodup → ∀ y ∈ rest, a.before y = true) := by
  cases q with
  | nil => simp [extractMin] at h
  | cons x xs =>
    simp only [extractMin, Option.some.injEq, Prod.mk.injEq] at h
    obtain ⟨rfl, rfl⟩ := h
    have hperm := List.perm_cons_erase (argmin_mem x xs)
    refine ⟨hperm, fun hnd y hy => ?_⟩
    have hy' : y ∈ x :: xs := List.mem_of_mem_erase hy
    have hle := argmin_least x xs y hy'
    have hne : y.index ≠ (argmin x xs).index := by
      have := (hperm.map Cand.index).nodup_iff.1 hnd
      rw [List.map_cons, List.nodup_cons] at this
      intro he
      exact this.1 (he ▸ List.mem_map_of_mem hy)
    rw [← Bool.not_eq_true, Cand.before_iff] at hle
    rw [Cand.before_iff]; omega

theorem extractMin_eq_none {q : List Cand} : extractMin q = none ↔ q = [] := by
  cases q <;> simp [extractMin]

/-! ### The merge loop -/

/-- The children listed in an arena. -/
def childList (A : List Node) : List Nat := A.flatMap Node.children

@[simp] theorem childList_append (A B : List Node) : childList (A ++ B) = childList A ++ childList B := by
  simp [childList]

/-- The weight of a slot of an arena. -/
def nodeWeight (A : List Node) (i : Nat) : Nat := ((A[i]?).map (fun n => n.weight.toNat)).getD 0

theorem nodeWeight_append {A : List Node} (B : List Node) {i : Nat} (h : i < A.length) :
    nodeWeight (A ++ B) i = nodeWeight A i := by
  simp [nodeWeight, List.getElem?_append_left h]

/-- The (weight, index) order on slots of an arena. -/
def keyLt (A : List Node) (a b : Nat) : Prop :=
  nodeWeight A a < nodeWeight A b ∨ (nodeWeight A a = nodeWeight A b ∧ a < b)

/-- Slot n of the arena was made by a merge of the two least candidates. -/
def MergedAt (A : List Node) (n : Nat) : Prop :=
  ∃ left right w, A[n]? = some (.internal left right w) ∧
    w.toNat = nodeWeight A left.toNat + nodeWeight A right.toNat ∧ left.toNat < n ∧ right.toNat < n ∧ left ≠ right ∧
    left.toNat ∉ childList (A.take n) ∧ right.toNat ∉ childList (A.take n) ∧
    (∀ m < n, m ∉ childList (A.take n) → m ≠ left.toNat → keyLt A left.toNat m) ∧
    (∀ m < n, m ∉ childList (A.take n) → m ≠ left.toNat → m ≠ right.toNat → keyLt A right.toNat m)

theorem MergedAt.append {A : List Node} (B : List Node) {n : Nat} (hn : n < A.length) (h : MergedAt A n) :
    MergedAt (A ++ B) n := by
  obtain ⟨l, r, w, h1, h2, h3, h4, h5, h6, h7, h8, h9⟩ := h
  have ht : (A ++ B).take n = A.take n := List.take_append_of_le_length (by omega)
  have hk : ∀ a < n, ∀ m < n, keyLt A a m → keyLt (A ++ B) a m := by
    intro a ha m hm hkey
    unfold keyLt at *
    rwa [nodeWeight_append B (by omega), nodeWeight_append B (by omega)]
  refine ⟨l, r, w, by rw [List.getElem?_append_left hn, h1], ?_, h3, h4, h5, by rwa [ht], by rwa [ht], ?_, ?_⟩
  · rwa [nodeWeight_append B (by omega), nodeWeight_append B (by omega)]
  · intro m hm hc hne; rw [ht] at hc; exact hk _ h3 _ hm (h8 m hm hc hne)
  · intro m hm hc hne hne'; rw [ht] at hc; exact hk _ h4 _ hm (h9 m hm hc hne hne')

/-- What holds between merges: the queue holds exactly the slots that are no node's child, under their weights. -/
structure MergeInv (L : Nat) (A : List Node) (q : List Cand) : Prop where
  nodup : (q.map Cand.index).Nodup
  weight : ∀ c ∈ q, nodeWeight A c.index = c.weight.toNat
  cover : ∀ i < A.length, (childList A).count i + (q.map Cand.index).count i = 1
  child_lt : ∀ i ∈ childList A, i < A.length
  index_lt : ∀ c ∈ q, c.index < A.length
  sum_lt : (q.map (fun c => c.weight.toNat)).sum < 2 ^ 40
  merged : ∀ n < A.length, L ≤ n → MergedAt A n
  last : q.length = 1 → ∀ c ∈ q, c.index + 1 = A.length

theorem MergeInv.mem_iff {L : Nat} {A : List Node} {q : List Cand} (h : MergeInv L A q) {i : Nat} (hi : i < A.length) :
    i ∈ q.map Cand.index ↔ i ∉ childList A := by
  have := h.cover i hi
  rw [← List.count_pos_iff, ← List.count_eq_zero]
  omega

/-- The queue may be listed in any order. -/
theorem MergeInv.perm {L : Nat} {A : List Node} {q q' : List Cand} (h : MergeInv L A q) (hp : q.Perm q') :
    MergeInv L A q' where
  nodup := (hp.map _).nodup_iff.1 h.nodup
  weight := fun c hc => h.weight c (hp.mem_iff.2 hc)
  cover := fun i hi => by rw [← (hp.map Cand.index).count_eq]; exact h.cover i hi
  child_lt := h.child_lt
  index_lt := fun c hc => h.index_lt c (hp.mem_iff.2 hc)
  sum_lt := by rw [← (hp.map _).sum_eq]; exact h.sum_lt
  merged := h.merged
  last := fun hl c hc => h.last (by rw [hp.length_eq, hl]) c (hp.mem_iff.2 hc)

/-- The node a merge creates. -/
def mergedNode (a b : Cand) : Node :=
  .internal (BitVec.ofNat 9 a.index) (BitVec.ofNat 9 b.index) (a.weight + b.weight)

/-- A merge of the two least candidates keeps what holds between merges (41_tree_builder.md R131, R133, R134). -/
theorem MergeInv.merge {L : Nat} {A : List Node} {a b : Cand} {rest : List Cand} (h : MergeInv L A (a :: b :: rest))
    (ha : ∀ y ∈ b :: rest, a.before y = true) (hb : ∀ y ∈ rest, b.before y = true) (h5 : A.length < 512) :
    MergeInv L (A ++ [mergedNode a b]) (⟨a.weight + b.weight, A.length⟩ :: rest) := by
  have hai := h.index_lt a (by simp)
  have hbi := h.index_lt b (by simp)
  have ea : (BitVec.ofNat 9 a.index).toNat = a.index := by simp; omega
  have eb : (BitVec.ofNat 9 b.index).toNat = b.index := by simp; omega
  have hsum := h.sum_lt
  simp only [List.map_cons, List.sum_cons] at hsum
  have hw : (a.weight + b.weight).toNat = a.weight.toNat + b.weight.toNat := by
    rw [BitVec.toNat_add, Nat.mod_eq_of_lt (by omega)]
  have hnd := h.nodup
  simp only [List.map_cons, List.nodup_cons, List.mem_cons, not_or] at hnd
  have hnew : A.length ∉ rest.map Cand.index := by
    rintro hm
    obtain ⟨c, hc, hce⟩ := List.mem_map.1 hm
    have := h.index_lt c (by simp [hc]); omega
  have hch : childList (A ++ [mergedNode a b]) = childList A ++ [a.index, b.index] := by
    rw [childList_append]; simp [childList, mergedNode, Node.children, ea, eb]
  have hwa := h.weight a (by simp)
  have hwb := h.weight b (by simp)
  -- the candidates of the new slot are the queue's
  have hcand : ∀ m < A.length, m ∉ childList A → ∃ c ∈ a :: b :: rest, c.index = m := by
    intro m hm hc
    have := (h.mem_iff hm).2 hc
    obtain ⟨c, hc, he⟩ := List.mem_map.1 this
    exact ⟨c, hc, he⟩
  refine ⟨?_, ?_, ?_, ?_, ?_, ?_, ?_, ?_⟩
  · rw [List.map_cons, List.nodup_cons]; exact ⟨hnew, hnd.2.2⟩
  · intro c hc
    rcases List.mem_cons.1 hc with rfl | hc
    · simp [nodeWeight, mergedNode, Node.weight]
    · rw [nodeWeight_append _ (h.index_lt c (by simp [hc]))]; exact h.weight c (by simp [hc])
  · intro i hi
    rw [hch, List.count_append, List.map_cons]
    rw [List.length_append, List.length_singleton] at hi
    by_cases hiA : i = A.length
    · have h1 : (childList A).count i = 0 := List.count_eq_zero.2 (fun hm => by have := h.child_lt i hm; omega)
      have h2 : (rest.map Cand.index).count i = 0 := List.count_eq_zero.2 (by rwa [hiA])
      simp only [List.count_cons, h1, h2, List.count_nil]
      simp [hiA, show ¬ a.index = A.length by omega, show ¬ b.index = A.length by omega]
    · have := h.cover i (by omega)
      simp only [List.map_cons, List.count_cons] at this
      simp only [List.count_cons, List.count_nil]
      have hi' : ¬ A.length = i := fun e => hiA e.symm
      simp only [beq_iff_eq, hi', if_false] at this ⊢
      omega
  · intro i hi
    rw [hch] at hi
    rw [List.length_append, List.length_singleton]
    rcases List.mem_append.1 hi with hi | hi
    · have := h.child_lt i hi; omega
    · simp only [List.mem_cons, List.not_mem_nil, or_false] at hi; omega
  · intro c hc
    rw [List.length_append, List.length_singleton]
    rcases List.mem_cons.1 hc with rfl | hc
    · simp
    · have := h.index_lt c (by simp [hc]); omega
  · simp only [List.map_cons, List.sum_cons, hw]; omega
  · intro n hn hL
    rw [List.length_append, List.length_singleton] at hn
    by_cases hnA : n < A.length
    · exact (h.merged n hnA hL).append _ hnA
    · obtain rfl : n = A.length := by omega
      have hta : (A ++ [mergedNode a b]).take A.length = A := by simp
      have key : ∀ x y : Cand, x ∈ a :: b :: rest → y ∈ a :: b :: rest → x.before y = true →
          keyLt (A ++ [mergedNode a b]) x.index y.index := by
        intro x y hx hy hxy
        unfold keyLt
        rw [nodeWeight_append _ (h.index_lt x hx), nodeWeight_append _ (h.index_lt y hy), h.weight x hx, h.weight y hy]
        exact (Cand.before_iff x y).1 hxy
      refine ⟨BitVec.ofNat 9 a.index, BitVec.ofNat 9 b.index, a.weight + b.weight, by simp [mergedNode], ?_,
        by rw [ea]; omega, by rw [eb]; omega, ?_, ?_, ?_, ?_, ?_⟩
      · rw [ea, eb, nodeWeight_append _ hai, nodeWeight_append _ hbi, hwa, hwb, hw]
      · intro he; have := congrArg BitVec.toNat he; rw [ea, eb] at this; exact hnd.1.1 this
      · rw [hta, ea]; exact (h.mem_iff hai).1 (by simp)
      · rw [hta, eb]; exact (h.mem_iff hbi).1 (by simp)
      · intro m hm hc hne
        rw [hta] at hc; rw [ea] at hne ⊢
        obtain ⟨c, hcq, rfl⟩ := hcand m hm hc
        have hca : c ∈ b :: rest := by
          rcases List.mem_cons.1 hcq with rfl | hc'
          · exact absurd rfl hne
          · exact hc'
        exact key a c (by simp) hcq (ha c hca)
      · intro m hm hc hne hne'
        rw [hta] at hc; rw [ea] at hne; rw [eb] at hne' ⊢
        obtain ⟨c, hcq, rfl⟩ := hcand m hm hc
        have hca : c ∈ rest := by
          rcases List.mem_cons.1 hcq with rfl | hc'
          · exact absurd rfl hne
          · rcases List.mem_cons.1 hc' with rfl | hc''
            · exact absurd rfl hne'
            · exact hc''
        exact key b c (by simp) hcq (hb c hca)
  · intro hl c hc
    rw [List.length_cons] at hl
    have : rest = [] := List.eq_nil_of_length_eq_zero (by omega)
    subst this
    obtain rfl := List.mem_singleton.1 hc
    simp

/-- The merge loop ends with one candidate, the last node, and as many more nodes as it removed candidates
(41_tree_builder.md R131, R137). -/
theorem merges_spec {L fuel : Nat} {A : List Node} {q : List Cand} (h : MergeInv L A q) (hne : q ≠ [])
    (hfuel : q.length ≤ fuel + 1) (h5 : A.length + q.length ≤ 512) :
    (A ++ merges fuel A.length q).length + 1 = A.length + q.length ∧
    ∃ c, MergeInv L (A ++ merges fuel A.length q) [c] := by
  induction fuel generalizing A q with
  | zero =>
    obtain ⟨c, rfl⟩ : ∃ c, q = [c] := List.length_eq_one_iff.1
      (by have := List.length_pos_iff.2 hne; omega)
    simp only [merges, List.append_nil]
    exact ⟨rfl, c, h⟩
  | succ fuel ih =>
    rw [merges]
    cases he : extractMin q with
    | none => exact absurd (extractMin_eq_none.1 he) hne
    | some ar =>
      obtain ⟨a, rest⟩ := ar
      obtain ⟨hp, hmin⟩ := extractMin_spec he
      have hlen := hp.length_eq
      rw [List.length_cons] at hlen
      cases he' : extractMin rest with
      | none =>
        have hr := extractMin_eq_none.1 he'
        subst hr
        simp only [he', List.append_nil]
        simp only [List.length_nil] at hlen
        exact ⟨by omega, a, h.perm hp⟩
      | some br =>
        obtain ⟨b, rest'⟩ := br
        obtain ⟨hp', hmin'⟩ := extractMin_spec he'
        have hlen' := hp'.length_eq
        rw [List.length_cons] at hlen'
        have hq : MergeInv L A (a :: b :: rest') := h.perm (hp.trans (hp'.cons a))
        have hnd : (rest.map Cand.index).Nodup := by
          have := (hp.map Cand.index).nodup_iff.1 h.nodup
          rw [List.map_cons, List.nodup_cons] at this; exact this.2
        have hm := hq.merge (fun y hy => hmin h.nodup y (hp'.mem_iff.2 hy)) (hmin' hnd) (by omega)
        obtain ⟨i1, c, i2⟩ := ih hm (by simp) (by simp only [List.length_cons]; omega)
          (by simp only [List.length_append, List.length_cons, List.length_nil]; omega)
        simp only [he']
        have hcons : A ++ (Node.internal (BitVec.ofNat 9 a.index) (BitVec.ofNat 9 b.index) (a.weight + b.weight) ::
            merges fuel (A.length + 1) (⟨a.weight + b.weight, A.length⟩ :: rest')) =
            (A ++ [mergedNode a b]) ++ merges fuel (A ++ [mergedNode a b]).length
              (⟨a.weight + b.weight, A.length⟩ :: rest') := by
          simp [mergedNode]
        rw [hcons]
        refine ⟨?_, c, i2⟩
        rw [i1]; simp only [List.length_append, List.length_cons, List.length_nil]; omega

end Sys2Proof.Machine
end

