-- ==== Sys2Proof/Laws/Build.lean ====
section
/-! SUPPORT. What BUILD stores: the leaves, the length of the tree, and the tree invariant of 10_state.md R41. -/

namespace Sys2Proof.Machine

/-! ### The leaves -/

theorem mem_symbols (b : Byte) : b ∈ symbols :=
  List.mem_map.2 ⟨b.toNat, List.mem_range.2 b.isLt, by simp⟩

theorem symbols_sorted : symbols.Pairwise (fun a b => a.toNat < b.toNat) := by
  unfold symbols
  rw [List.pairwise_map]
  refine List.Pairwise.imp_of_mem ?_ (List.pairwise_lt_range (n := Config.nsym))
  intro a b ha hb h
  simp only [List.mem_range, Config.nsym] at ha hb
  simp only [BitVec.toNat_ofNat]; omega

theorem mem_presentSymbols {freq : Vector Word Config.nsym} {b : Byte} :
    b ∈ presentSymbols freq ↔ freq[b.toNat]'b.isLt ≠ 0#32 := by
  have := mem_symbols b
  simp only [presentSymbols, List.mem_filter, decide_eq_true_eq]
  exact ⟨fun h => h.2, fun h => ⟨this, h⟩⟩

theorem presentSymbols_sorted (freq : Vector Word Config.nsym) :
    (presentSymbols freq).Pairwise (fun a b => a.toNat < b.toNat) := symbols_sorted.filter _

theorem presentSymbols_length_le (freq : Vector Word Config.nsym) : (presentSymbols freq).length ≤ 256 := by
  have : (presentSymbols freq).length ≤ symbols.length := List.length_filter_le _ _
  simpa [symbols] using this

/-- The leaf of a present symbol. -/
def leafOf (freq : Vector Word Config.nsym) (b : Byte) : Node := .leaf b ((freq[b.toNat]'b.isLt).setWidth 40)

/-- The table's entries in symbol order. -/
theorem freq_toList (freq : Vector Word Config.nsym) : freq.toList = symbols.map (fun b => freq[b.toNat]'b.isLt) := by
  apply List.ext_getElem
  · simp [symbols]
  · intro i h1 h2
    have hi : i < 256 := by simpa using h1
    simp [symbols, Nat.mod_eq_of_lt hi]

/-- The leaves are those of the present symbols (41_tree_builder.md R132). -/
theorem leaves_eq (freq : Vector Word Config.nsym) : leaves freq = (presentSymbols freq).map (leafOf freq) := by
  have hsym : (List.range Config.nsym).map (BitVec.ofNat 8) = symbols := rfl
  unfold leaves presentSymbols
  rw [hsym, freq_toList]
  induction symbols with
  | nil => rfl
  | cons b bs ih =>
    rw [List.map_cons, List.zip_cons_cons, List.filterMap_cons, ih]
    by_cases h : freq[b.toNat]'b.isLt = 0#32
    · simp [h]
    · simp [h, leafOf]

/-- The present symbols, read from the entries in one pass. -/
theorem presentSymbols_eq_zip (freq : Vector Word Config.nsym) :
    presentSymbols freq = ((symbols.zip freq.toList).filter (fun e => e.2 ≠ 0#32)).map Prod.fst := by
  have hsym : (List.range Config.nsym).map (BitVec.ofNat 8) = symbols := rfl
  unfold presentSymbols
  rw [hsym, freq_toList]
  induction symbols with
  | nil => rfl
  | cons b bs ih =>
    rw [List.map_cons, List.zip_cons_cons, List.filter_cons, List.filter_cons, ih]
    by_cases h : freq[b.toNat]'b.isLt = 0#32 <;> simp [h]

@[simp] theorem leaves_length (freq : Vector Word Config.nsym) :
    (leaves freq).length = (presentSymbols freq).length := by simp [leaves_eq]

theorem leaves_eq_nil {freq : Vector Word Config.nsym} : leaves freq = [] ↔ presentSymbols freq = [] := by
  simp [leaves_eq]

theorem presentSymbols_eq_nil {freq : Vector Word Config.nsym} :
    presentSymbols freq = [] ↔ ∀ b : Byte, freq[b.toNat]'b.isLt = 0#32 := by
  rw [List.eq_nil_iff_forall_not_mem]
  simp only [mem_presentSymbols, not_not]

theorem leaves_get {freq : Vector Word Config.nsym} {i : Nat} (h : i < (presentSymbols freq).length) :
    (leaves freq)[i]? = some (leafOf freq (presentSymbols freq)[i]) := by
  rw [leaves_eq, List.getElem?_map, List.getElem?_eq_getElem h]; rfl

theorem leafOf_weight_lt (freq : Vector Word Config.nsym) (b : Byte) : (leafOf freq b).weight.toNat < 2 ^ 32 := by
  simp only [leafOf, Node.weight, BitVec.toNat_setWidth]
  have := (freq[b.toNat]'b.isLt).isLt
  omega

theorem leafOf_weight (freq : Vector Word Config.nsym) (b : Byte) :
    (leafOf freq b).weight.toNat = (freq[b.toNat]'b.isLt).toNat := by
  simp only [leafOf, Node.weight, BitVec.toNat_setWidth]
  have := (freq[b.toNat]'b.isLt).isLt
  omega

theorem childList_leaves (freq : Vector Word Config.nsym) : childList (leaves freq) = [] := by
  rw [leaves_eq]; simp [childList, leafOf, Node.children, List.flatMap_map]

theorem leafQueue_index (ls : List Node) : (leafQueue ls).map Cand.index = List.range ls.length := by
  apply List.ext_getElem <;> simp [leafQueue]

/-- What holds between merges holds before the first (41_tree_builder.md R131). -/
theorem leafQueue_inv {freq : Vector Word Config.nsym} :
    MergeInv (leaves freq).length (leaves freq) (leafQueue (leaves freq)) := by
  have hmem : ∀ c ∈ leafQueue (leaves freq), ∃ i, ∃ h : i < (leaves freq).length, c = ⟨(leaves freq)[i].weight, i⟩ := by
    intro c hc
    obtain ⟨i, hi, rfl⟩ := List.mem_iff_getElem.1 hc
    have hi' : i < (leaves freq).length := by simpa [leafQueue] using hi
    exact ⟨i, hi', by simp [leafQueue]⟩
  refine ⟨?_, ?_, ?_, ?_, ?_, ?_, ?_, ?_⟩
  · rw [leafQueue_index]; exact List.nodup_range
  · intro c hc
    obtain ⟨i, hi, rfl⟩ := hmem c hc
    simp [nodeWeight, List.getElem?_eq_getElem hi]
  · intro i hi
    rw [childList_leaves, leafQueue_index, List.count_nil, Nat.zero_add]
    exact List.count_eq_one_of_mem List.nodup_range (List.mem_range.2 hi)
  · rw [childList_leaves]; simp
  · intro c hc
    obtain ⟨i, hi, rfl⟩ := hmem c hc
    exact hi
  · have hb : ∀ x ∈ (leafQueue (leaves freq)).map (fun c => c.weight.toNat), x ≤ 2 ^ 32 - 1 := by
      intro x hx
      obtain ⟨c, hc, rfl⟩ := List.mem_map.1 hx
      obtain ⟨i, hi, rfl⟩ := hmem c hc
      have h2 : i < (presentSymbols freq).length := by simpa using hi
      have := leaves_get h2
      rw [List.getElem?_eq_getElem hi, Option.some.injEq] at this
      simp only [this]
      have := leafOf_weight_lt freq (presentSymbols freq)[i]; omega
    have hs := List.sum_le_card_nsmul _ _ hb
    have hl : (leafQueue (leaves freq)).length ≤ 256 := by
      have := presentSymbols_length_le freq
      simpa [leafQueue] using this
    rw [List.length_map, smul_eq_mul] at hs
    have := Nat.mul_le_mul_right (2 ^ 32 - 1) hl
    omega
  · intro n hn hL; omega
  · intro hl c hc
    obtain ⟨i, hi, rfl⟩ := hmem c hc
    have : (leaves freq).length = 1 := by simpa [leafQueue] using hl
    simp only; omega

/-! ### The whole tree -/

theorem treeOf_spec {freq : Vector Word Config.nsym} (h : presentSymbols freq ≠ []) :
    (treeOf freq).length = 2 * (presentSymbols freq).length - 1 ∧
    ∃ c, MergeInv (presentSymbols freq).length (treeOf freq) [c] := by
  have hl : (leafQueue (leaves freq)).length = (leaves freq).length := by simp [leafQueue]
  have hpos := List.length_pos_iff.2 h
  have hle := presentSymbols_length_le freq
  have hle' := leaves_length freq
  have := merges_spec (fuel := (leaves freq).length) leafQueue_inv
    (by rw [← List.length_pos_iff, hl, hle']; exact hpos) (by omega) (by omega)
  obtain ⟨h1, c, h2⟩ := this
  refine ⟨?_, c, by simpa [treeOf] using h2⟩
  unfold treeOf; omega

theorem treeOf_get_leaf {freq : Vector Word Config.nsym} {i : Nat} (h : i < (presentSymbols freq).length) :
    (treeOf freq)[i]? = some (leafOf freq (presentSymbols freq)[i]) := by
  unfold treeOf
  rw [List.getElem?_append_left (by simpa using h), leaves_get h]

theorem slot_storeNodes_eq {nodes : Vector Node Config.nodeSlots} {arena : List Node} {n : Nat} (h : n < arena.length)
    (h5 : n < 512) : arena[n]? = some (slot (storeNodes nodes arena) n) := by
  rw [slot_storeNodes h h5, List.getElem?_eq_getElem h]

/-- The children of the stored slots are those of the arena. -/
theorem childSlots_storeNodes {nodes : Vector Node Config.nodeSlots} {arena : List Node} {n : Nat} (h : n ≤ arena.length)
    (h5 : n ≤ 512) : childSlots (storeNodes nodes arena) n = childList (arena.take n) := by
  unfold childSlots childList
  have : (List.range n).map (slot (storeNodes nodes arena)) = arena.take n := by
    apply List.ext_getElem
    · simp; omega
    · intro i h1 h2
      have hi : i < n := by simpa using h1
      simp only [List.getElem_map, List.getElem_range, List.getElem_take]
      exact slot_storeNodes (by omega) (by omega)
  rw [← this, List.flatMap_map]

theorem nodeWeight_stored {nodes : Vector Node Config.nodeSlots} {arena : List Node} {n : Nat} (h : n < arena.length)
    (h5 : n < 512) : nodeWeight arena n = (slot (storeNodes nodes arena) n).weight.toNat := by
  simp [nodeWeight, slot_storeNodes_eq (nodes := nodes) h h5]

/-- The stored tree has the shape of 10_state.md R41. -/
theorem storeNodes_shape {freq : Vector Word Config.nsym} (nodes : Vector Node Config.nodeSlots)
    (h : presentSymbols freq ≠ []) : TreeShape (storeNodes nodes (treeOf freq)) (presentSymbols freq).length := by
  obtain ⟨hlen, c, hinv⟩ := treeOf_spec h
  have hpos := List.length_pos_iff.2 h
  have hle := presentSymbols_length_le freq
  have hleaf : ∀ i, ∀ hi : i < (presentSymbols freq).length,
      slot (storeNodes nodes (treeOf freq)) i = leafOf freq (presentSymbols freq)[i] := by
    intro i hi
    have h1 := slot_storeNodes_eq (nodes := nodes) (arena := treeOf freq) (n := i) (by omega) (by omega)
    rw [treeOf_get_leaf hi, Option.some.injEq] at h1
    exact h1.symm
  refine ⟨hpos, hle, ?_, ?_, ?_, ?_⟩
  · intro i hi
    rw [IsLeafSlot, hleaf i hi]
    refine ⟨rfl, ?_⟩
    have hp : freq[((presentSymbols freq)[i]).toNat]'(BitVec.isLt _) ≠ 0#32 := mem_presentSymbols.1 (List.getElem_mem hi)
    intro he
    have := congrArg BitVec.toNat he
    rw [leafOf_weight] at this
    exact hp (BitVec.eq_of_toNat_eq (by simpa using this))
  · intro i hi j hj a ha b hb
    rw [hleaf j (by omega)] at ha
    rw [hleaf i hi] at hb
    obtain rfl : _ = a := by simpa [leafOf, Node.symbol?] using ha
    obtain rfl : _ = b := by simpa [leafOf, Node.symbol?] using hb
    exact List.pairwise_iff_getElem.1 (presentSymbols_sorted freq) j i (by omega) hi hj
  · intro n hn hL
    obtain ⟨l, r, w, h1, h2, h3, h4, h5, -⟩ := hinv.merged n (by omega) hL
    rw [slot_storeNodes_eq (nodes := nodes) (by omega) (by omega), Option.some.injEq] at h1
    rw [nodeWeight_stored (nodes := nodes) (by omega) (by omega), nodeWeight_stored (nodes := nodes) (by omega) (by omega),
      slot_toNat, slot_toNat] at h2
    simp [internalSlotOk, h1, h2, h3, h4, h5]
  · intro i hi
    rw [childSlots_storeNodes (by omega) (by omega), List.take_of_length_le (by omega)]
    have h1 := hinv.cover i (by omega)
    have h2 := hinv.last rfl c (by simp)
    simp only [List.map_cons, List.map_nil, List.count_cons, List.count_nil, Nat.zero_add, beq_iff_eq] at h1
    split at h1 <;> split <;> omega

/-- The tree registers BUILD writes. -/
theorem build_registers {freq : Vector Word Config.nsym} (h : presentSymbols freq ≠ []) :
    (BitVec.ofNat 9 ((treeOf freq).length - 1)).toNat = 2 * (presentSymbols freq).length - 2 ∧
    (BitVec.ofNat 10 (treeOf freq).length).toNat = 2 * (presentSymbols freq).length - 1 ∧
    (BitVec.ofNat 9 (leaves freq).length).toNat = (presentSymbols freq).length := by
  have hlen := (treeOf_spec h).1
  have hle := presentSymbols_length_le freq
  have hpos := List.length_pos_iff.2 h
  simp only [BitVec.toNat_ofNat, leaves_length]
  refine ⟨?_, ?_, ?_⟩ <;> omega

end Sys2Proof.Machine
end

