-- ==== Sys2Proof/Laws/Memory.lean ====
section
/-! SUPPORT. The byte buffers: what a read gives after a write, and that a write keeps the canonical form. -/

namespace Sys2Proof.Machine

namespace Memory

theorem read_append (m n : Memory) (i : Nat) :
    read (m ++ n) i = if i ∈ m.map Prod.fst then read m i else read n i := by
  induction m with
  | nil => simp
  | cons c m ih =>
    simp only [List.cons_append, read, List.map_cons, List.mem_cons]
    by_cases h : c.1 = i
    · simp [h]
    · simp [h, ih, Ne.symm h]

/-- An index the buffer does not list reads as an unlisted byte. -/
theorem read_of_not_mem {m : Memory} {i : Nat} (h : i ∉ m.map Prod.fst) : read m i = Config.unlistedByte := by
  induction m with
  | nil => rfl
  | cons c m ih =>
    simp only [List.map_cons, List.mem_cons, not_or] at h
    simp [read, Ne.symm h.1, ih h.2]

theorem read_filter (m : Memory) (p : Nat → Bool) (i : Nat) :
    read (m.filter (fun c => p c.1)) i = if p i then read m i else Config.unlistedByte := by
  induction m with
  | nil => simp [read]
  | cons c m ih =>
    by_cases hp : p c.1 = true <;> by_cases hc : c.1 = i
    · simp [read, hp, hc ▸ hp]; simp [hc]
    · simp [read, hp, hc, ih]
    · subst hc; simp [hp, ih]
    · simp [read, hp, hc, ih]

theorem mem_cells {bs : List Byte} {base : Nat} {c : Host.Cell} (h : c ∈ cells base bs) :
    base ≤ c.1 ∧ c.1 < base + bs.length ∧ c.2 ≠ Config.unlistedByte := by
  induction bs generalizing base with
  | nil => simp [cells] at h
  | cons b bs ih =>
    simp only [cells] at h
    split at h
    · have := ih h; rw [List.length_cons]; exact ⟨by omega, by omega, this.2.2⟩
    · rcases List.mem_cons.1 h with rfl | h
      · simp_all
      · have := ih h; rw [List.length_cons]; exact ⟨by omega, by omega, this.2.2⟩

theorem read_cells (bs : List Byte) (base i : Nat) :
    read (cells base bs) i = if base ≤ i then bs.getD (i - base) Config.unlistedByte else Config.unlistedByte := by
  induction bs generalizing base with
  | nil => simp [cells, read]
  | cons b bs ih =>
    have key : read (cells base (b :: bs)) i = if base = i then b else read (cells (base + 1) bs) i := by
      simp only [cells]
      split
      · rename_i hb
        split
        · rename_i h
          rw [hb, ih]; simp [← h]
        · rfl
      · simp [read]
    rw [key, ih]
    by_cases h : base = i
    · simp [h]
    · rcases Nat.lt_or_ge i base with h1 | h1
      · simp [h, show ¬ base + 1 ≤ i by omega, show ¬ base ≤ i by omega]
      · rw [if_neg h, if_pos (by omega), if_pos h1, show i - base = (i - (base + 1)) + 1 by omega]; simp

/-- Reading after a write: the written byte inside the written range, the old byte outside it. -/
theorem read_writeBytes (m : Memory) (base : Nat) (bs : List Byte) (i : Nat) :
    (m.writeBytes base bs).read i =
      if h : base ≤ i ∧ i < base + bs.length then bs[i - base]'(by omega) else m.read i := by
  unfold writeBytes
  rw [read_append, read_append, read_filter m (fun a => decide (a < base)) i,
    read_filter m (fun a => decide (base + bs.length ≤ a)) i, read_cells]
  have hlow : i ∈ (m.filter (fun c => decide (c.1 < base))).map Prod.fst → i < base := by
    simp only [List.mem_map, List.mem_filter, decide_eq_true_eq]; rintro ⟨c, ⟨-, h⟩, rfl⟩; exact h
  have hcell : i ∈ (cells base bs).map Prod.fst → base ≤ i ∧ i < base + bs.length := by
    simp only [List.mem_map]; rintro ⟨c, h, rfl⟩; have := mem_cells h; omega
  by_cases h : base ≤ i ∧ i < base + bs.length
  · rw [dif_pos h]
    by_cases hc : i ∈ (cells base bs).map Prod.fst
    · simp only [List.map_append, List.mem_append, hc, or_true, if_true]
      rw [if_neg (fun hl => by have := hlow hl; omega), if_pos h.1, List.getD_eq_getElem _ _ (by omega)]
    · have hv : bs[i - base]'(by omega) = Config.unlistedByte := by
        have := read_of_not_mem hc
        rw [read_cells, if_pos h.1, List.getD_eq_getElem _ _ (by omega)] at this; exact this
      have hl : ¬ i ∈ (m.filter (fun c => decide (c.1 < base))).map Prod.fst := fun hl => by have := hlow hl; omega
      simp only [List.map_append, List.mem_append, hc, hl, or_false, if_false]
      rw [if_neg (by simp; omega), hv]
  · rw [dif_neg h]
    have hc : ¬ i ∈ (cells base bs).map Prod.fst := fun hc => h (hcell hc)
    by_cases hl : i ∈ (m.filter (fun c => decide (c.1 < base))).map Prod.fst
    · simp [hc, hl, hlow hl]
    · simp only [List.map_append, List.mem_append, hc, hl, or_false, if_false]
      by_cases hi : i < base
      · rw [if_neg (by simp; omega)]
        have : i ∉ m.map Prod.fst := by
          intro hm; apply hl
          simp only [List.mem_map, List.mem_filter, decide_eq_true_eq] at hm ⊢
          obtain ⟨c, hc1, rfl⟩ := hm; exact ⟨c, ⟨hc1, hi⟩, rfl⟩
        rw [read_of_not_mem this]
      · rw [if_pos (by simp; omega)]

/-- A byte outside the written range reads as before. -/
theorem read_writeBytes_of_outside {m : Memory} {base : Nat} {bs : List Byte} {i : Nat}
    (h : i < base ∨ base + bs.length ≤ i) : (m.writeBytes base bs).read i = m.read i := by
  rw [read_writeBytes, dif_neg (by omega)]

theorem cells_sorted (bs : List Byte) (base : Nat) : (cells base bs).Pairwise (fun a b => a.1 < b.1) := by
  induction bs generalizing base with
  | nil => simp [cells]
  | cons b bs ih =>
    simp only [cells]
    split
    · exact ih _
    · exact List.pairwise_cons.2 ⟨fun c hc => by have := mem_cells hc; simp only; omega, ih _⟩

/-- Listing bytes that fit the buffer gives the canonical form. -/
theorem cells_wf {bs : List Byte} {base : Nat} (h : base + bs.length ≤ Config.bufBytes) : wf (cells base bs) :=
  ⟨cells_sorted bs base, fun c hc => by have := mem_cells hc; exact ⟨this.2.2, by omega⟩⟩

/-- Writing bytes that fit the buffer keeps the canonical form. -/
theorem writeBytes_wf {m : Memory} {base : Nat} {bs : List Byte} (hm : wf m)
    (h : base + bs.length ≤ Config.bufBytes) : wf (m.writeBytes base bs) := by
  obtain ⟨hs, hv⟩ := hm
  have hc := cells_wf h
  refine ⟨List.pairwise_append.2 ⟨List.pairwise_append.2 ⟨hs.filter _, hc.1, ?_⟩, hs.filter _, ?_⟩, ?_⟩
  · intro a ha b hb
    have := (List.mem_filter.1 ha).2; have := mem_cells hb; simp at *; omega
  · intro a ha b hb
    have hb2 := (List.mem_filter.1 hb).2
    rcases List.mem_append.1 ha with ha | ha
    · have := (List.mem_filter.1 ha).2; simp at *; omega
    · have := mem_cells ha; simp at *; omega
  · intro c hc'
    rcases List.mem_append.1 hc' with hc' | hc'
    · rcases List.mem_append.1 hc' with hc' | hc'
      · exact hv c (List.mem_filter.1 hc').1
      · exact hc.2 c hc'
    · exact hv c (List.mem_filter.1 hc').1

/-- Writing a word of the buffer keeps the canonical form. -/
theorem writeWord_wf {mem : Memory} (hm : wf mem) (m : BitVec 14) (d : Word) : wf (mem.writeWord m.toNat d) :=
  writeBytes_wf hm (by have := m.isLt; simp only [List.length_cons, List.length_nil, Config.bufBytes]; omega)

end Memory

/-- The bytes of a word put together give the word (20_memory.md R69). -/
@[simp] theorem wordOfBytes_byteOfWord (d : Word) :
    wordOfBytes (byteOfWord d 0) (byteOfWord d 1) (byteOfWord d 2) (byteOfWord d 3) = d := by
  unfold wordOfBytes byteOfWord
  ext i hi
  simp only [BitVec.getElem_append, BitVec.getElem_extractLsb']
  split <;> [skip; split <;> [skip; split]]
  all_goals simp only [← BitVec.getLsbD_eq_getElem]
  all_goals congr 1; try omega

end Sys2Proof.Machine
end

