-- ==== Sys2Proof/Laws/Bus.lean ====
section
/-! SUPPORT. The address map at the byte addresses the spec gives, and what a host access can do. -/

namespace Sys2Proof.Machine

theorem wordAddr_toNat {a : Nat} (h : a < 0x40000) : (wordAddr a).toNat = a / 4 := by
  simp only [wordAddr, BitVec.toNat_ofNat]; omega

/-- The register offsets (10_state.md R21). -/
theorem locate_registers :
    locate (wordAddr 0x000) = .reg .id ∧ locate (wordAddr 0x004) = .reg .ctrl ∧ locate (wordAddr 0x008) = .reg .cmd ∧
    locate (wordAddr 0x00C) = .reg .status ∧ locate (wordAddr 0x010) = .reg .inLen ∧
    locate (wordAddr 0x014) = .reg .outLen ∧ locate (wordAddr 0x018) = .reg .pad ∧ locate (wordAddr 0x01C) = .reg .root ∧
    locate (wordAddr 0x020) = .reg .nodeCount ∧ locate (wordAddr 0x024) = .reg .symCount ∧
    locate (wordAddr 0x028) = .reg .totalBits ∧ locate (wordAddr 0x02C) = .reg .errInfo := by decide

/-- The reserved ranges (20_memory.md R63). -/
theorem locate_reserved {a : Nat} (h4 : a % 4 = 0) (h : (0x30 ≤ a ∧ a < 0x400) ∨ (0x800 ≤ a ∧ a < 0x2000) ∨
    (0x8000 ≤ a ∧ a < 0x10000) ∨ (0x30000 ≤ a ∧ a < 0x40000)) : locate (wordAddr a) = .reserved := by
  have hw : (wordAddr a).toNat = a / 4 := wordAddr_toNat (by omega)
  unfold locate
  have h4' : 4 * (a / 4) = a := by omega
  simp only [hw, h4']
  repeat' split
  all_goals first | rfl | omega

/-- The FREQ window (20_memory.md R63, R66). -/
theorem locate_freq (sym : Byte) : locate (wordAddr (0x400 + 4 * sym.toNat)) = .freq sym := by
  have hs := sym.isLt
  have hw : (wordAddr (0x400 + 4 * sym.toNat)).toNat = 0x100 + sym.toNat := by rw [wordAddr_toNat (by omega)]; omega
  unfold locate
  simp only [hw]
  repeat' split
  all_goals try omega
  exact congrArg Loc.freq (BitVec.eq_of_toNat_eq (by rw [BitVec.extractLsb'_toNat, hw]; omega))

/-- The NODE window (20_memory.md R63, R67). -/
theorem locate_node (n : NodeIndex) {k : Nat} (h : k < 4) :
    locate (wordAddr (0x2000 + 16 * n.toNat + 4 * k)) = .node n (BitVec.ofNat 2 k) := by
  have hn := n.isLt
  have hw : (wordAddr (0x2000 + 16 * n.toNat + 4 * k)).toNat = 0x800 + 4 * n.toNat + k := by
    rw [wordAddr_toNat (by omega)]; omega
  unfold locate
  simp only [hw]
  repeat' split
  all_goals try omega
  congr 1 <;> apply BitVec.eq_of_toNat_eq <;>
    simp only [BitVec.extractLsb'_toNat, BitVec.toNat_ofNat, hw, Nat.shiftRight_eq_div_pow] <;> omega

/-- The CODE window (20_memory.md R63, R68). -/
theorem locate_code (sym : Byte) {k : Nat} (h : k < 16) :
    locate (wordAddr (0x4000 + 64 * sym.toNat + 4 * k)) = .code sym (BitVec.ofNat 4 k) := by
  have hs := sym.isLt
  have hw : (wordAddr (0x4000 + 64 * sym.toNat + 4 * k)).toNat = 0x1000 + 16 * sym.toNat + k := by
    rw [wordAddr_toNat (by omega)]; omega
  unfold locate
  simp only [hw]
  repeat' split
  all_goals try omega
  congr 1 <;> apply BitVec.eq_of_toNat_eq <;>
    simp only [BitVec.extractLsb'_toNat, BitVec.toNat_ofNat, hw, Nat.shiftRight_eq_div_pow] <;> omega

/-- The IN window (20_memory.md R63, R69). -/
theorem locate_inWord {m : Nat} (h : m < 16384) : locate (wordAddr (0x10000 + 4 * m)) = .inWord (BitVec.ofNat 14 m) := by
  have hw : (wordAddr (0x10000 + 4 * m)).toNat = 0x4000 + m := by rw [wordAddr_toNat (by omega)]; omega
  unfold locate
  simp only [hw]
  repeat' split
  all_goals try omega
  exact congrArg Loc.inWord (BitVec.eq_of_toNat_eq (by rw [BitVec.extractLsb'_toNat, hw, BitVec.toNat_ofNat]; omega))

/-- The OUT window (20_memory.md R63, R71). -/
theorem locate_outWord {m : Nat} (h : m < 16384) : locate (wordAddr (0x20000 + 4 * m)) = .outWord (BitVec.ofNat 14 m) := by
  have hw : (wordAddr (0x20000 + 4 * m)).toNat = 0x8000 + m := by rw [wordAddr_toNat (by omega)]; omega
  unfold locate
  simp only [hw]
  repeat' split
  all_goals try omega
  exact congrArg Loc.outWord (BitVec.eq_of_toNat_eq (by rw [BitVec.extractLsb'_toNat, hw, BitVec.toNat_ofNat]; omega))

/-- A location that names a register is that register's own address (10_state.md R21). -/
theorem eq_wordAddr_of_locate_reg {addr : BitVec 16} {r : Reg} (h : locate addr = .reg r) :
    ∃ k, addr.toNat = k ∧ Reg.ofOffset k = some r := by
  refine ⟨addr.toNat, rfl, ?_⟩
  unfold locate at h
  dsimp only at h
  split at h
  · cases ho : Reg.ofOffset addr.toNat with
    | none => rw [ho] at h; simp at h
    | some r' => rw [ho] at h; simp at h; rw [h]
  · repeat' split at h
    all_goals simp at h

/-- CMD is at byte offset 0x008 and at no other (10_state.md R21). -/
theorem locate_eq_cmd {addr : BitVec 16} (h : locate addr = .reg .cmd) : addr = wordAddr 0x008 := by
  obtain ⟨k, hk, ho⟩ := eq_wordAddr_of_locate_reg h
  have : k = 2 := by unfold Reg.ofOffset at ho; split at ho <;> simp_all
  apply BitVec.eq_of_toNat_eq; rw [hk, this]; rfl

/-- STATUS is at byte offset 0x00C and at no other (10_state.md R21). -/
theorem locate_eq_status {addr : BitVec 16} (h : locate addr = .reg .status) : addr = wordAddr 0x00C := by
  obtain ⟨k, hk, ho⟩ := eq_wordAddr_of_locate_reg h
  have : k = 3 := by unfold Reg.ofOffset at ho; split at ho <;> simp_all
  apply BitVec.eq_of_toNat_eq; rw [hk, this]; rfl

/-! ### The words of the windows as numbers -/

/-- A field above a lower one: the word is their sum. -/
theorem toNat_shiftLeft_or {n : Nat} {hi lo : Word} (hn : n < 32) (hlo : lo.toNat < 2 ^ n)
    (hhi : hi.toNat < 2 ^ (32 - n)) : (hi <<< n ||| lo).toNat = hi.toNat * 2 ^ n + lo.toNat := by
  have hlt : hi.toNat * 2 ^ n < 2 ^ 32 := by
    have : 2 ^ (32 - n) * 2 ^ n = 2 ^ 32 := by rw [← Nat.pow_add]; congr 1; omega
    calc hi.toNat * 2 ^ n < 2 ^ (32 - n) * 2 ^ n := Nat.mul_lt_mul_of_pos_right hhi (Nat.two_pow_pos n)
      _ = 2 ^ 32 := this
  rw [BitVec.toNat_or, BitVec.toNat_shiftLeft, Nat.shiftLeft_eq, Nat.mod_eq_of_lt hlt, ← Nat.shiftLeft_eq,
    ← Nat.shiftLeft_add_eq_or_of_lt hlo, Nat.shiftLeft_eq]

/-- The words of a leaf (20_memory.md R67). -/
theorem Node.word_leaf (sym : Byte) (w : Weight) :
    ((Node.leaf sym w).word 0#2).toNat = 1 + 2 ^ 8 * sym.toNat ∧ ((Node.leaf sym w).word 1#2).toNat = 0 ∧
    ((Node.leaf sym w).word 2#2).toNat = w.toNat % 2 ^ 32 ∧ ((Node.leaf sym w).word 3#2).toNat = w.toNat / 2 ^ 32 := by
  have := sym.isLt
  have := w.isLt
  refine ⟨?_, rfl, by simp [Node.word], ?_⟩
  · simp only [Node.word, BitVec.toNat_ofNat]
    rw [toNat_shiftLeft_or (by omega) (by decide) (by rw [BitVec.toNat_setWidth]; omega), BitVec.toNat_setWidth]
    simp only [BitVec.toNat_ofNat]; omega
  · show ((w >>> 32).setWidth 32).toNat = _
    rw [BitVec.toNat_setWidth, BitVec.toNat_ushiftRight, Nat.shiftRight_eq_div_pow]; omega

/-- The words of an internal node (20_memory.md R67). -/
theorem Node.word_internal (l r : NodeIndex) (w : Weight) :
    ((Node.internal l r w).word 0#2).toNat = 0 ∧
    ((Node.internal l r w).word 1#2).toNat = l.toNat + 2 ^ 16 * r.toNat ∧
    ((Node.internal l r w).word 2#2).toNat = w.toNat % 2 ^ 32 ∧
    ((Node.internal l r w).word 3#2).toNat = w.toNat / 2 ^ 32 := by
  have := l.isLt
  have := r.isLt
  have := w.isLt
  refine ⟨rfl, ?_, by simp [Node.word], ?_⟩
  · simp only [Node.word, BitVec.toNat_ofNat]
    rw [toNat_shiftLeft_or (by omega) (by rw [BitVec.toNat_setWidth]; omega) (by rw [BitVec.toNat_setWidth]; omega),
      BitVec.toNat_setWidth, BitVec.toNat_setWidth]; omega
  · show ((w >>> 32).setWidth 32).toNat = _
    rw [BitVec.toNat_setWidth, BitVec.toNat_ushiftRight, Nat.shiftRight_eq_div_pow]; omega

/-- Word 0 of a code table entry (20_memory.md R68). -/
theorem CodeEntry.word_zero (e : CodeEntry) : (e.word 0#4).toNat = 2 ^ 31 + e.len.toNat := by
  have := e.len.isLt
  simp only [CodeEntry.word, BitVec.toNat_ofNat, Nat.zero_mod, if_true]
  rw [toNat_shiftLeft_or (by omega) (by rw [BitVec.toNat_setWidth]; omega) (by decide), BitVec.toNat_setWidth]
  simp only [BitVec.toNat_ofNat]; omega

/-- Four bytes as a number, byte 0 the least significant (20_memory.md R69). -/
theorem wordOfBytes_toNat (b0 b1 b2 b3 : Byte) :
    (wordOfBytes b0 b1 b2 b3).toNat = b0.toNat + 2 ^ 8 * b1.toNat + 2 ^ 16 * b2.toNat + 2 ^ 24 * b3.toNat := by
  have := b0.isLt
  have := b1.isLt
  have := b2.isLt
  have := b3.isLt
  unfold wordOfBytes
  simp only [BitVec.toNat_append]
  rw [← Nat.shiftLeft_add_eq_or_of_lt (by omega), ← Nat.shiftLeft_add_eq_or_of_lt (by omega),
    ← Nat.shiftLeft_add_eq_or_of_lt (by omega)]
  simp only [Nat.shiftLeft_eq]; omega

/-! ### Accesses -/

theorem hostRead_of_idle {s : State} (h : s.eng = .idle) (l : Loc) : s.hostRead l = s.reply (s.peek l) := by
  simp [State.hostRead, State.busy, h, State.reply]

theorem hostWrite_of_idle {s : State} (h : s.eng = .idle) (l : Loc) (d : Word) : s.hostWrite l d = s.poke d l := by
  simp [State.hostWrite, State.busy, h]

/-- What a host read can do (20_memory.md R61, R70). -/
theorem hostRead_cases (s : State) (l : Loc) :
    (s.busy = true ∧ l.readRefused = true ∧ s.hostRead l = s.refuseAccess.reply 0#32) ∨
    ((s.busy = false ∨ l.readRefused = false) ∧ s.hostRead l = s.reply (s.peek l)) := by
  unfold State.hostRead
  cases hb : s.busy <;> cases hr : l.readRefused <;> simp [State.reply]

/-- What a host write can do (20_memory.md R62, R70). -/
theorem hostWrite_cases (s : State) (l : Loc) (d : Word) :
    (s.busy = true ∧ l.writeRefused = true ∧ s.hostWrite l d = s.refuseAccess) ∨
    ((s.busy = false ∨ l.writeRefused = false) ∧ s.hostWrite l d = s.poke d l) := by
  unfold State.hostWrite
  cases hb : s.busy <;> cases hr : l.writeRefused <;> simp

/-- What a host access can leave, each case with what it takes (20_memory.md R60 to R70). -/
inductive AccessResult (s : State) (a : Access) : State → Prop
  /-- A read that is answered. -/
  | replied (v : Word) : AccessResult s a (s.reply v)
  /-- A read refused while busy. -/
  | readRefused (busy : s.busy = true) : AccessResult s a (s.refuseAccess.reply 0#32)
  /-- A write refused while busy. -/
  | writeRefused (busy : s.busy = true) : AccessResult s a s.refuseAccess
  /-- A write to CMD while idle. -/
  | accepted (d : Word) (idle : s.eng = .idle) (write : a = .write (wordAddr 0x008) d) : AccessResult s a (s.accept d)
  /-- A write to STATUS. -/
  | cleared (d : Word) (write : a = .write (wordAddr 0x00C) d) : AccessResult s a (s.writeStatus d)
  /-- A write to CTRL. -/
  | enabled (d : Word) : AccessResult s a (s.writeCtrl d)
  /-- A write to IN_LEN while idle. -/
  | inLen (d : Word) (idle : s.eng = .idle) : AccessResult s a { s with inLen := d }
  /-- A write to PAD while idle. -/
  | pad (d : Word) (idle : s.eng = .idle) : AccessResult s a { s with pad := d.setWidth 8 }
  /-- A write to FREQ while idle. -/
  | freq (sym : Byte) (d : Word) (idle : s.eng = .idle) : AccessResult s a { s with freq := setFreq s.freq sym d }
  /-- A write to IN_MEM while idle. -/
  | inMem (m : BitVec 14) (d : Word) (idle : s.eng = .idle) :
    AccessResult s a { s with inMem := s.inMem.writeWord m.toNat d }
  /-- A write that is ignored. -/
  | ignored : AccessResult s a s

/-- What a host access can do: a reply, a refusal, or one of the accepted writes (20_memory.md R60 to R70). -/
theorem access_result (s : State) (a : Access) : AccessResult s a (s.access a) := by
  cases a with
  | read addr =>
    unfold State.access
    rcases hostRead_cases s (locate addr) with ⟨hb, -, h⟩ | ⟨-, h⟩ <;> simp only [h]
    · exact .readRefused hb
    · exact .replied _
  | write addr d =>
    unfold State.access
    rcases hostWrite_cases s (locate addr) d with ⟨hb, -, h⟩ | ⟨hc, h⟩ <;> simp only [h]
    · exact .writeRefused hb
    · have idle (hw : (locate addr).writeRefused = true) : s.eng = .idle := by
        simpa [hw, State.not_busy_iff] using hc
      cases hl : locate addr with
      | reg r =>
        rw [hl] at idle
        cases r with
        | ctrl => exact .enabled d
        | cmd => exact .accepted d (idle rfl) (by rw [locate_eq_cmd hl])
        | status => exact .cleared d (by rw [locate_eq_status hl])
        | inLen => exact .inLen d (idle rfl)
        | pad => exact .pad d (idle rfl)
        | id | outLen | root | nodeCount | symCount | totalBits | errInfo => exact .ignored
      | freq sym => exact .freq sym d (idle (by rw [hl]; rfl))
      | inWord m => exact .inMem m d (idle (by rw [hl]; rfl))
      | node _ _ | code _ _ | outWord _ | reserved => exact .ignored

end Sys2Proof.Machine
end

