-- ==== Sys2Proof/Laws/Codes.lean ====
section
/-! SUPPORT. The code assigner: paths in a tree, the walk along them, and the code table it fills. -/

namespace Sys2Proof.Machine

variable {nodes : Vector Node Config.nodeSlots} {L : Nat}

/-! ### Paths -/

@[simp] theorem descend_nil (n : NodeIndex) : descend nodes n [] = n := rfl
@[simp] theorem descend_cons (n : NodeIndex) (c : Bool) (p : BitString) :
    descend nodes n (c :: p) = descend nodes ((nodeAt nodes n).child c) p := rfl
theorem descend_append (n : NodeIndex) (p q : BitString) :
    descend nodes n (p ++ q) = descend nodes (descend nodes n p) q := by simp [descend]

@[simp] theorem staysInside_nil (n : NodeIndex) : StaysInside nodes n [] := fun _ h => absurd h (by simp)

theorem staysInside_cons (n : NodeIndex) (c : Bool) (p : BitString) :
    StaysInside nodes n (c :: p) ↔
      (nodeAt nodes n).symbol? = none ∧ StaysInside nodes ((nodeAt nodes n).child c) p := by
  constructor
  · intro h
    refine ⟨by simpa using h 0 (by simp), fun k hk => ?_⟩
    simpa using h (k + 1) (by simpa using hk)
  · rintro ⟨h0, h⟩ k hk
    cases k with
    | zero => simpa using h0
    | succ k => simpa using h k (by simpa using hk)

/-- A path leads from node n to a leaf of the symbol. -/
def LeadsTo (nodes : Vector Node Config.nodeSlots) (n : NodeIndex) (p : BitString) (sym : Byte) : Prop :=
  StaysInside nodes n p ∧ (nodeAt nodes (descend nodes n p)).symbol? = some sym

theorem leadsTo_of_leaf {n : NodeIndex} {x : Byte} {w : Weight} (h : nodeAt nodes n = .leaf x w) (p : BitString)
    (sym : Byte) : LeadsTo nodes n p sym ↔ p = [] ∧ sym = x := by
  cases p with
  | nil => simp [LeadsTo, h, Node.symbol?, eq_comm]
  | cons c p => simp [LeadsTo, staysInside_cons, h, Node.symbol?]

theorem leadsTo_of_internal {n l r : NodeIndex} {w : Weight} (h : nodeAt nodes n = .internal l r w) (p : BitString)
    (sym : Byte) : LeadsTo nodes n p sym ↔
      (∃ q, p = false :: q ∧ LeadsTo nodes l q sym) ∨ (∃ q, p = true :: q ∧ LeadsTo nodes r q sym) := by
  cases p with
  | nil => simp [LeadsTo, h, Node.symbol?]
  | cons c p => cases c <;> simp [LeadsTo, staysInside_cons, h, Node.symbol?, Node.child]

/-- No codeword goes on past another's leaf (42_code_assigner.md R155). -/
theorem LeadsTo.eq_of_prefix {n : NodeIndex} {p q : BitString} {a b : Byte} (hp : LeadsTo nodes n p a)
    (hq : LeadsTo nodes n q b) (h : p <+: q) : p = q := by
  obtain ⟨t, rfl⟩ := h
  by_contra hne
  have ht : t ≠ [] := by rintro rfl; simp at hne
  have hlt : p.length < (p ++ t).length := by
    have := List.length_pos_iff.2 ht; rw [List.length_append]; omega
  have := hq.1 p.length hlt
  rw [List.take_left' rfl, hp.2] at this
  simp at this

theorem codeword_iff {root l r : NodeIndex} {w : Weight} (h : nodeAt nodes root = .internal l r w) (sym : Byte)
    (p : BitString) : Codeword nodes root sym p ↔ LeadsTo nodes root p sym := by
  simp [Codeword, h, LeadsTo]

/-! ### Inside a tree -/

theorem TreeShape.internal {n : NodeIndex} (h : TreeShape nodes L) (hL : L ≤ n.toNat) (hN : n.toNat < 2 * L - 1) :
    ∃ l r w, nodeAt nodes n = .internal l r w ∧ l.toNat < n.toNat ∧ r.toNat < n.toNat ∧ l ≠ r ∧
      w.toNat = (nodeAt nodes l).weight.toNat + (nodeAt nodes r).weight.toNat := by
  have := h.internal_slots n.toNat hN hL
  unfold internalSlotOk at this
  rw [slot_toNat] at this
  cases hn : nodeAt nodes n with
  | leaf x w => simp [hn] at this
  | internal l r w =>
    simp only [hn, Bool.and_eq_true, decide_eq_true_eq] at this
    exact ⟨l, r, w, rfl, this.1.1.1, this.1.1.2, by simpa using this.1.2, this.2⟩

theorem TreeShape.leaf {n : NodeIndex} (h : TreeShape nodes L) (hL : n.toNat < L) :
    ∃ x w, nodeAt nodes n = .leaf x w := by
  have := (h.leaf_slots n.toNat hL).1
  rw [IsLeafSlot, slot_toNat] at this
  cases hn : nodeAt nodes n with
  | leaf x w => exact ⟨x, w, rfl⟩
  | internal l r w => simp [hn, Node.symbol?] at this

/-- How far below node n a leaf can lie: the internal slots up to n (00_scope.md R7). -/
def depthBound (L : Nat) (n : NodeIndex) : Nat := n.toNat + 1 - L

/-- A path from n to a leaf is no longer than the internal slots up to n (00_scope.md R7, 42_code_assigner.md R154). -/
theorem LeadsTo.length_le {n : NodeIndex} {p : BitString} {sym : Byte} (h : TreeShape nodes L)
    (hn : n.toNat < 2 * L - 1) (hp : LeadsTo nodes n p sym) : p.length ≤ depthBound L n := by
  induction p generalizing n with
  | nil => simp
  | cons c p ih =>
    have hL : L ≤ n.toNat := by
      by_contra hlt
      obtain ⟨x, w, hx⟩ := h.leaf (n := n) (by omega)
      rw [leadsTo_of_leaf hx] at hp; simp at hp
    obtain ⟨l, r, w, hi, hl, hr, -, -⟩ := h.internal hL hn
    rw [leadsTo_of_internal hi] at hp
    unfold depthBound at *
    rcases hp with ⟨q, he, hq⟩ | ⟨q, he, hq⟩
    · obtain ⟨rfl, rfl⟩ := List.cons.inj he
      have := ih (by omega) hq; simp only [List.length_cons]; omega
    · obtain ⟨rfl, rfl⟩ := List.cons.inj he
      have := ih (by omega) hq; simp only [List.length_cons]; omega

/-- The walk from node n lists exactly the paths from n to leaves (42_code_assigner.md R150). -/
theorem mem_walk (h : TreeShape nodes L) {fuel : Nat} {n : NodeIndex} (hn : n.toNat < 2 * L - 1)
    (hf : depthBound L n < fuel) (pre : BitString) (sym : Byte) (q : BitString) :
    (sym, q) ∈ walk nodes fuel n pre ↔ ∃ p, q = pre ++ p ∧ LeadsTo nodes n p sym := by
  induction fuel generalizing n pre with
  | zero => omega
  | succ fuel ih =>
    rw [walk]
    by_cases hL : n.toNat < L
    · obtain ⟨x, w, hx⟩ := h.leaf hL
      simp only [hx, leadsTo_of_leaf hx]
      simp [and_comm]
    · obtain ⟨l, r, w, hi, hl, hr, -, -⟩ := h.internal (by omega) hn
      simp only [hi, leadsTo_of_internal hi, List.mem_append]
      unfold depthBound at *
      rw [ih (by omega) (by omega), ih (by omega) (by omega)]
      constructor
      · rintro (⟨p, rfl, hp⟩ | ⟨p, rfl, hp⟩)
        · exact ⟨false :: p, by simp, .inl ⟨p, rfl, hp⟩⟩
        · exact ⟨true :: p, by simp, .inr ⟨p, rfl, hp⟩⟩
      · rintro ⟨p, rfl, ⟨q, rfl, hq⟩ | ⟨q, rfl, hq⟩⟩
        · exact .inl ⟨q, by simp, hq⟩
        · exact .inr ⟨q, by simp, hq⟩

/-! ### Every slot has one path -/

theorem TreeShape.childSlots_nodup (h : TreeShape nodes L) : (childSlots nodes (2 * L - 1)).Nodup := by
  rw [List.nodup_iff_count_le_one]
  intro i
  by_cases hi : i < 2 * L - 1
  · rw [h.one_parent i hi]; split <;> omega
  · rw [List.count_eq_zero.2]
    · omega
    · intro hm
      obtain ⟨x, hx, hc⟩ := List.mem_flatMap.1 hm
      have hx' := List.mem_range.1 hx
      have h9 := h.le_nsym
      simp only [Config.nsym] at h9
      have hxn : (BitVec.ofNat 9 x).toNat = x := by simp; omega
      by_cases hL : x < L
      · obtain ⟨y, w, hy⟩ := h.leaf (n := BitVec.ofNat 9 x) (by omega)
        simp [slot, hy, Node.children] at hc
      · obtain ⟨l, r, w, hi', hl, hr, -, -⟩ := h.internal (n := BitVec.ofNat 9 x) (by omega) (by omega)
        simp only [slot, hi', Node.children, List.mem_cons, List.not_mem_nil, or_false] at hc
        omega

theorem child_mem_children {n : NodeIndex} (h : (nodeAt nodes n).symbol? = none) (c : Bool) :
    ((nodeAt nodes n).child c).toNat ∈ (nodeAt nodes n).children := by
  cases hn : nodeAt nodes n with
  | leaf x w => simp [hn, Node.symbol?] at h
  | internal l r w => cases c <;> simp [Node.child, Node.children]

/-- Two internal nodes of a tree share no child, and a node's two children differ (10_state.md R41). -/
theorem TreeShape.child_inj (h : TreeShape nodes L) {m n : NodeIndex} {b c : Bool} (hm : m.toNat < 2 * L - 1)
    (hn : n.toNat < 2 * L - 1) (im : (nodeAt nodes m).symbol? = none) (inn : (nodeAt nodes n).symbol? = none)
    (he : (nodeAt nodes m).child b = (nodeAt nodes n).child c) : m = n ∧ b = c := by
  have hnd := h.childSlots_nodup
  unfold childSlots at hnd
  rw [List.nodup_flatMap] at hnd
  have hmn : m = n := by
    by_contra hne
    have hne' : m.toNat ≠ n.toNat := toNat_ne_of_ne hne
    have hpw := List.pairwise_iff_getElem.1 hnd.2
    have h1 : ((nodeAt nodes n).child c).toNat ∈ (slot nodes m.toNat).children := by
      rw [slot_toNat, ← he]; exact child_mem_children im b
    have h2 : ((nodeAt nodes n).child c).toNat ∈ (slot nodes n.toNat).children := by
      rw [slot_toNat]; exact child_mem_children inn c
    rcases Nat.lt_or_gt_of_ne hne' with hlt | hlt
    · have := hpw m.toNat n.toNat (by simpa using hm) (by simpa using hn) hlt
      simp only [List.getElem_range, Function.onFun] at this
      exact this h1 h2
    · have := hpw n.toNat m.toNat (by simpa using hn) (by simpa using hm) hlt
      simp only [List.getElem_range, Function.onFun] at this
      exact this h2 h1
  refine ⟨hmn, ?_⟩
  subst hmn
  have hc := hnd.1 m.toNat (List.mem_range.2 hm)
  rw [slot_toNat] at hc
  cases hx : nodeAt nodes m with
  | leaf x w => simp [hx, Node.symbol?] at im
  | internal l r w =>
    simp only [hx, Node.children, List.nodup_cons, List.mem_singleton, List.not_mem_nil, not_false_eq_true,
      List.nodup_nil, and_true] at hc
    rw [hx] at he
    cases b <;> cases c <;> simp_all [Node.child]

/-- Where a path that stays inside goes from a slot of the tree: to a slot that is smaller unless the path is empty. -/
theorem TreeShape.descend_lt (h : TreeShape nodes L) {n : NodeIndex} {p : BitString} (hn : n.toNat < 2 * L - 1)
    (hp : StaysInside nodes n p) :
    (descend nodes n p).toNat ≤ n.toNat ∧ (p ≠ [] → (descend nodes n p).toNat < n.toNat) := by
  induction p generalizing n with
  | nil => simp
  | cons c p ih =>
    rw [staysInside_cons] at hp
    have hL : L ≤ n.toNat := by
      by_contra hlt
      obtain ⟨x, w, hx⟩ := h.leaf (n := n) (by omega)
      simp [hx, Node.symbol?] at hp
    obtain ⟨l, r, w, hi, hl, hr, -, -⟩ := h.internal hL hn
    have hc : ((nodeAt nodes n).child c).toNat < n.toNat := by rw [hi]; cases c <;> simpa [Node.child]
    have := ih (by omega) hp.2
    rw [descend_cons]
    exact ⟨by omega, fun _ => by omega⟩

theorem staysInside_append_singleton {n : NodeIndex} {p : BitString} {c : Bool} :
    StaysInside nodes n (p ++ [c]) ↔ StaysInside nodes n p ∧ (nodeAt nodes (descend nodes n p)).symbol? = none := by
  constructor
  · intro h
    refine ⟨fun k hk => ?_, ?_⟩
    · have := h k (by simp; omega)
      rwa [List.take_append_of_le_length (by omega)] at this
    · have := h p.length (by simp)
      rwa [List.take_left' rfl] at this
  · rintro ⟨h1, h2⟩ k hk
    simp only [List.length_append, List.length_singleton] at hk
    by_cases hk' : k < p.length
    · rw [List.take_append_of_le_length (by omega)]; exact h1 k hk'
    · obtain rfl : k = p.length := by omega
      rwa [List.take_left' rfl]

/-- Two paths from the root to one slot are the same path (10_state.md R41). -/
theorem TreeShape.path_unique (h : TreeShape nodes L) {root : NodeIndex} (hr : root.toNat < 2 * L - 1)
    {p q : BitString} (hp : StaysInside nodes root p) (hq : StaysInside nodes root q)
    (he : descend nodes root p = descend nodes root q) : p = q := by
  induction p using List.reverseRecOn generalizing q with
  | nil =>
    by_contra hne
    have := (h.descend_lt hr hq).2 (fun e => hne e.symm)
    rw [← he, descend_nil] at this; omega
  | append_singleton p c ih =>
    rcases List.eq_nil_or_concat q with rfl | ⟨q', d, rfl⟩
    · have := (h.descend_lt hr hp).2 (by simp)
      rw [he, descend_nil] at this; omega
    · rw [List.concat_eq_append] at *
      obtain ⟨hp1, hp2⟩ := staysInside_append_singleton.1 hp
      obtain ⟨hq1, hq2⟩ := staysInside_append_singleton.1 hq
      rw [descend_append, descend_append] at he
      simp only [descend_cons, descend_nil] at he
      have l1 := (h.descend_lt hr hp1).1
      have l2 := (h.descend_lt hr hq1).1
      obtain ⟨e1, e2⟩ := h.child_inj (by omega) (by omega) hp2 hq2 he
      rw [ih hp1 hq1 e1, e2]

/-- Every slot of a tree lies on a path from its root (10_state.md R41). -/
theorem TreeShape.reachable (h : TreeShape nodes L) {root : NodeIndex} (hr : root.toNat = 2 * L - 2) {n : Nat}
    (hn : n < 2 * L - 1) : ∃ p, StaysInside nodes root p ∧ (descend nodes root p).toNat = n := by
  have h1 := h.one_le
  have h9 := h.le_nsym
  simp only [Config.nsym] at h9
  induction hk : 2 * L - 2 - n using Nat.strong_induction_on generalizing n with
  | _ k ih =>
    by_cases hroot : n = 2 * L - 2
    · exact ⟨[], by simp, by simp [hr, hroot]⟩
    · have hc := h.one_parent n hn
      rw [if_neg hroot] at hc
      have hm : n ∈ childSlots nodes (2 * L - 1) := List.count_pos_iff.1 (by omega)
      obtain ⟨x, hx, hxc⟩ := List.mem_flatMap.1 hm
      have hx' := List.mem_range.1 hx
      have hxn : (BitVec.ofNat 9 x).toNat = x := by simp; omega
      have hL : L ≤ x := by
        by_contra hlt
        obtain ⟨y, w, hy⟩ := h.leaf (n := BitVec.ofNat 9 x) (by omega)
        simp [slot, hy, Node.children] at hxc
      obtain ⟨l, r, w, hi, hl, hr', -, -⟩ := h.internal (n := BitVec.ofNat 9 x) (by omega) (by omega)
      simp only [slot, hi, Node.children, List.mem_cons, List.not_mem_nil, or_false] at hxc
      obtain ⟨p, hp1, hp2⟩ := ih (2 * L - 2 - x) (by omega) hx' rfl
      have hpx : descend nodes root p = BitVec.ofNat 9 x := BitVec.eq_of_toNat_eq (by rw [hp2, hxn])
      have hin : (nodeAt nodes (descend nodes root p)).symbol? = none := by rw [hpx, hi]; rfl
      rcases hxc with e | e
      · exact ⟨p ++ [false], staysInside_append_singleton.2 ⟨hp1, hin⟩, by
          rw [descend_append, hpx]; simp [hi, Node.child, e]⟩
      · exact ⟨p ++ [true], staysInside_append_singleton.2 ⟨hp1, hin⟩, by
          rw [descend_append, hpx]; simp [hi, Node.child, e]⟩

/-- Two leaves of one symbol are one slot (10_state.md R41.1). -/
theorem TreeShape.symbol_inj (h : TreeShape nodes L) {m n : NodeIndex} {a : Byte} (hm : m.toNat < 2 * L - 1)
    (hn : n.toNat < 2 * L - 1) (em : (nodeAt nodes m).symbol? = some a) (en : (nodeAt nodes n).symbol? = some a) :
    m = n := by
  have low : ∀ k : NodeIndex, k.toNat < 2 * L - 1 → (nodeAt nodes k).symbol? = some a → k.toNat < L := by
    intro k hk ek
    by_contra hL
    obtain ⟨l, r, w, hi, -⟩ := h.internal (n := k) (by omega) hk
    simp [hi, Node.symbol?] at ek
  have lm := low m hm em
  have ln := low n hn en
  apply BitVec.eq_of_toNat_eq
  by_contra hne
  rcases Nat.lt_or_gt_of_ne hne with hlt | hlt
  · have := h.leaf_order n.toNat ln m.toNat hlt a (by rw [slot_toNat]; exact em) a (by rw [slot_toNat]; exact en)
    omega
  · have := h.leaf_order m.toNat lm n.toNat hlt a (by rw [slot_toNat]; exact en) a (by rw [slot_toNat]; exact em)
    omega

/-- A symbol has at most one codeword in a tree (42_code_assigner.md R150). -/
theorem TreeShape.leadsTo_unique (h : TreeShape nodes L) {root : NodeIndex} (hr : root.toNat < 2 * L - 1) {a : Byte}
    {p q : BitString} (hp : LeadsTo nodes root p a) (hq : LeadsTo nodes root q a) : p = q := by
  have l1 := (h.descend_lt hr hp.1).1
  have l2 := (h.descend_lt hr hq.1).1
  exact h.path_unique hr hp.1 hq.1 (h.symbol_inj (by omega) (by omega) hp.2 hq.2)

/-! ### The code table -/

theorem codeTable_foldl_of_not_mem {cs : List (Byte × BitString)} {sym : Byte} (h : ∀ c ∈ cs, c.1 ≠ sym)
    (codes : Vector CodeEntry Config.nsym) :
    codeAt (cs.foldl (fun codes c => setCode codes c.1 (codeEntryOf c.2)) codes) sym = codeAt codes sym := by
  induction cs generalizing codes with
  | nil => rfl
  | cons c cs ih =>
    rw [List.foldl_cons, ih (fun x hx => h x (by simp [hx])), codeAt_setCode, if_neg (h c (by simp))]

theorem codeTable_foldl_of_mem {cs : List (Byte × BitString)} {sym : Byte} {p : BitString} (hm : (sym, p) ∈ cs)
    (hu : ∀ c ∈ cs, c.1 = sym → c.2 = p) (codes : Vector CodeEntry Config.nsym) :
    codeAt (cs.foldl (fun codes c => setCode codes c.1 (codeEntryOf c.2)) codes) sym = codeEntryOf p := by
  induction cs generalizing codes with
  | nil => simp at hm
  | cons c cs ih =>
    rw [List.foldl_cons]
    by_cases hin : (sym, p) ∈ cs
    · exact ih hin (fun x hx => hu x (by simp [hx])) _
    · obtain rfl : (sym, p) = c := by simpa [hin] using hm
      rw [codeTable_foldl_of_not_mem, codeAt_setCode, if_pos rfl]
      intro x hx he
      exact hin (by rw [← hu x (by simp [hx]) he, ← he]; exact hx)

/-- The entry of a listed symbol whose codeword is listed once (42_code_assigner.md R150). -/
theorem codeAt_codeTable_of_mem {cs : List (Byte × BitString)} {sym : Byte} {p : BitString} (hm : (sym, p) ∈ cs)
    (hu : ∀ c ∈ cs, c.1 = sym → c.2 = p) : codeAt (codeTable cs) sym = codeEntryOf p :=
  codeTable_foldl_of_mem hm hu _

/-- The entry of a symbol not listed is invalid (42_code_assigner.md R153). -/
theorem codeAt_codeTable_of_not_mem {cs : List (Byte × BitString)} {sym : Byte} (h : ∀ c ∈ cs, c.1 ≠ sym) :
    codeAt (codeTable cs) sym = ⟨false, 0#8, 0#256⟩ := by
  unfold codeTable; rw [codeTable_foldl_of_not_mem h]; simp

/-! ### The codewords of a tree -/

/-- The codewords ASSIGN lists are those of the tree (42_code_assigner.md R150, R152). -/
theorem mem_treeCodes (h : TreeShape nodes L) {root : NodeIndex} (hr : root.toNat = 2 * L - 2) (sym : Byte)
    (p : BitString) : (sym, p) ∈ treeCodes nodes root ↔ Codeword nodes root sym p := by
  have h1 := h.one_le
  have h2 := h.le_nsym
  simp only [Config.nsym] at h2
  unfold treeCodes
  cases hn : nodeAt nodes root with
  | leaf x w => simp [Codeword, hn]
  | internal l r w =>
    simp only []
    rw [codeword_iff hn, mem_walk h (by omega) (by unfold depthBound; simp only [Config.walkFuel]; omega)]
    simp

/-- A symbol has at most one codeword (42_code_assigner.md R150). -/
theorem codeword_unique (h : TreeShape nodes L) {root : NodeIndex} (hr : root.toNat = 2 * L - 2) {sym : Byte}
    {p q : BitString} (hp : Codeword nodes root sym p) (hq : Codeword nodes root sym q) : p = q := by
  have h1 := h.one_le
  cases hn : nodeAt nodes root with
  | leaf x w =>
    simp only [Codeword, hn] at hp hq
    rw [hp.2, hq.2]
  | internal l r w =>
    rw [codeword_iff hn] at hp hq
    exact h.leadsTo_unique (by omega) hp hq

/-- A codeword has 1 to L-1 bits, or 1 bit if L = 1 (42_code_assigner.md R154). -/
theorem codeword_length (h : TreeShape nodes L) {root : NodeIndex} (hr : root.toNat = 2 * L - 2) {sym : Byte}
    {p : BitString} (hp : Codeword nodes root sym p) : 1 ≤ p.length ∧ p.length ≤ max 1 (L - 1) ∧ p.length ≤ 255 := by
  have h1 := h.one_le
  have h2 := h.le_nsym
  simp only [Config.nsym] at h2
  cases hn : nodeAt nodes root with
  | leaf x w =>
    simp only [Codeword, hn] at hp
    simp [hp.2]
  | internal l r w =>
    rw [codeword_iff hn] at hp
    have hne : p ≠ [] := by rintro rfl; simp [LeadsTo, hn, Node.symbol?] at hp
    have := List.length_pos_iff.2 hne
    have := hp.length_le h (by omega)
    unfold depthBound at this
    omega

/-- The table ASSIGN makes of a tree: a symbol with a codeword has it as its entry (42_code_assigner.md R150, R153). -/
theorem codeAt_assigned (h : TreeShape nodes L) {root : NodeIndex} (hr : root.toNat = 2 * L - 2) {sym : Byte}
    {p : BitString} (hp : Codeword nodes root sym p) :
    codeAt (codeTable (treeCodes nodes root)) sym = codeEntryOf p := by
  apply codeAt_codeTable_of_mem ((mem_treeCodes h hr sym p).2 hp)
  rintro ⟨s, q⟩ hc rfl
  exact codeword_unique h hr ((mem_treeCodes h hr s q).1 hc) hp

/-- The table ASSIGN makes of a tree: a symbol without a codeword has an invalid entry (42_code_assigner.md R153). -/
theorem codeAt_unassigned (h : TreeShape nodes L) {root : NodeIndex} (hr : root.toNat = 2 * L - 2) {sym : Byte}
    (hp : ∀ p, ¬ Codeword nodes root sym p) :
    codeAt (codeTable (treeCodes nodes root)) sym = ⟨false, 0#8, 0#256⟩ := by
  apply codeAt_codeTable_of_not_mem
  rintro ⟨s, q⟩ hc rfl
  exact hp q ((mem_treeCodes h hr s q).1 hc)

/-- The symbols with a codeword are the leaves' (42_code_assigner.md R153). -/
theorem exists_codeword_iff (h : TreeShape nodes L) {root : NodeIndex} (hr : root.toNat = 2 * L - 2) (sym : Byte) :
    (∃ p, Codeword nodes root sym p) ↔ ∃ i < L, (slot nodes i).symbol? = some sym := by
  have h1 := h.one_le
  have h2 := h.le_nsym
  simp only [Config.nsym] at h2
  have hslot : ∀ n : NodeIndex, n.toNat < 2 * L - 1 → (nodeAt nodes n).symbol? = some sym →
      ∃ i < L, (slot nodes i).symbol? = some sym := by
    intro n hn hs
    refine ⟨n.toNat, ?_, by rw [slot_toNat]; exact hs⟩
    by_contra hL
    obtain ⟨l, r, w, hi, -⟩ := h.internal (n := n) (by omega) hn
    simp [hi, Node.symbol?] at hs
  cases hn : nodeAt nodes root with
  | leaf x w =>
    have hL1 : L = 1 := by
      by_contra hne
      obtain ⟨l, r, w', hi, -⟩ := h.internal (n := root) (by omega) (by omega)
      simp [hi] at hn
    have hroot0 : root = 0#9 := BitVec.eq_of_toNat_eq (by simp [hr, hL1])
    constructor
    · rintro ⟨p, hp⟩
      simp only [Codeword, hn] at hp
      exact hslot root (by omega) (by simp [hn, Node.symbol?, hp.1])
    · rintro ⟨i, hi, hs⟩
      obtain rfl : i = 0 := by omega
      have : slot nodes 0 = .leaf x w := by rw [← hn, hroot0]; rfl
      simp only [this, Node.symbol?, Option.some.injEq] at hs
      exact ⟨[false], by simp [Codeword, hn, hs]⟩
  | internal l r w =>
    constructor
    · rintro ⟨p, hp⟩
      rw [codeword_iff hn] at hp
      have := (h.descend_lt (by omega) hp.1).1
      exact hslot _ (by omega) hp.2
    · rintro ⟨i, hi, hs⟩
      obtain ⟨p, hp1, hp2⟩ := h.reachable hr (n := i) (by omega)
      refine ⟨p, (codeword_iff hn _ _).2 ⟨hp1, ?_⟩⟩
      rw [← slot_toNat, hp2]; exact hs

end Sys2Proof.Machine
end

