-- ==== Sys2Proof/Laws/Decoder.lean ====
section
/-! SUPPORT. The decoding loops: what they do with codewords, a partial path, too many symbols, and what errors they report. -/

namespace Sys2Proof.Machine

@[simp] theorem Decoded.emit_symbols (d : Decoded) (sym : Byte) : (d.emit sym).symbols = sym :: d.symbols := rfl
@[simp] theorem Decoded.emit_failure (d : Decoded) (sym : Byte) : (d.emit sym).failure = d.failure := rfl

variable {nodes : Vector Node Config.nodeSlots} {root : NodeIndex}

/-- The symbols decoded already, put before what a loop goes on to do. -/
def Decoded.emitAll (syms : List Byte) (d : Decoded) : Decoded := { d with symbols := syms ++ d.symbols }

@[simp] theorem Decoded.emitAll_nil (d : Decoded) : d.emitAll [] = d := rfl
@[simp] theorem Decoded.emitAll_cons (d : Decoded) (sym : Byte) (syms : List Byte) :
    d.emitAll (sym :: syms) = (d.emitAll syms).emit sym := rfl

/-- A walk along a path that ends at a leaf emits its symbol and returns to the root (44_decoder.md R191). -/
theorem decodeWalk_path {p : BitString} {n : NodeIndex} {sym : Byte} (rest : BitString) {j k : Nat} (hp : p ≠ [])
    (hin : ∀ m < p.length, (nodeAt nodes (descend nodes n (p.take m))).symbol? = none)
    (hleaf : (nodeAt nodes (descend nodes n p)).symbol? = some sym) :
    decodeWalk nodes root j k n (p ++ rest) =
      if k = Config.bufBytes then ⟨[], some (overflowAt (j + p.length - 1))⟩
      else (decodeWalk nodes root (j + p.length) (k + 1) root rest).emit sym := by
  induction p generalizing n j with
  | nil => exact absurd rfl hp
  | cons c p ih =>
    rw [List.cons_append, decodeWalk]
    have hd : ∀ q, descend nodes n (c :: q) = descend nodes ((nodeAt nodes n).child c) q := fun q => rfl
    by_cases hp' : p = []
    · subst hp'
      rw [hd] at hleaf
      simp only [descend, List.foldl_nil] at hleaf
      cases hq : nodeAt nodes ((nodeAt nodes n).child c) with
      | leaf x w =>
        obtain rfl : x = sym := by simpa [hq, Node.symbol?] using hleaf
        simp
      | internal l r w => simp [hq, Node.symbol?] at hleaf
    · have h1 := hin 1 (by have := List.length_pos_iff.2 hp'; simp; omega)
      simp only [List.take_succ_cons, List.take_zero, descend, List.foldl_cons, List.foldl_nil] at h1
      have hih := ih (n := (nodeAt nodes n).child c) (j := j + 1) hp'
        (fun m hm => by have := hin (m + 1) (by simp; omega); rwa [List.take_succ_cons, hd] at this) (by rwa [hd] at hleaf)
      cases hq : nodeAt nodes ((nodeAt nodes n).child c) with
      | leaf x w => simp [hq, Node.symbol?] at h1
      | internal l r w =>
        simp only []
        rw [hih, List.length_cons, show j + 1 + p.length - 1 = j + (p.length + 1) - 1 by omega,
          show j + 1 + p.length = j + (p.length + 1) by omega]

/-- A walk along a path that stays at internal nodes ends there, inside the path (44_decoder.md R194). -/
theorem decodeWalk_inside {p : BitString} {n : NodeIndex} {j k : Nat}
    (hin : ∀ m ≤ p.length, (nodeAt nodes (descend nodes n (p.take m))).symbol? = none) :
    decodeWalk nodes root j k n p =
      ⟨[], if descend nodes n p = root then none else some (malformedAt (j + p.length))⟩ := by
  induction p generalizing n j with
  | nil => simp [decodeWalk, descend]
  | cons c p ih =>
    rw [decodeWalk]
    have hd : ∀ q, descend nodes n (c :: q) = descend nodes ((nodeAt nodes n).child c) q := fun q => rfl
    have h1 := hin 1 (by simp)
    simp only [List.take_succ_cons, List.take_zero, descend, List.foldl_cons, List.foldl_nil] at h1
    have hih := ih (n := (nodeAt nodes n).child c) (j := j + 1)
      (fun m hm => by have := hin (m + 1) (by simp; omega); rwa [List.take_succ_cons, hd] at this)
    cases hq : nodeAt nodes ((nodeAt nodes n).child c) with
    | leaf x w => simp [hq, Node.symbol?] at h1
    | internal l r w =>
      simp only []
      rw [hih, hd, List.length_cons, show j + 1 + p.length = j + (p.length + 1) by omega]

/-- A codeword is not empty (42_code_assigner.md R152, R154). -/
theorem Codeword.ne_nil {sym : Byte} {p : BitString} (h : Codeword nodes root sym p) : p ≠ [] := by
  unfold Codeword at h
  split at h
  · simp [h.2]
  · rename_i l r w hr
    rintro rfl
    simp [descend, hr, Node.symbol?] at h

/-- With an internal root, a walk over codewords emits their symbols as long as they fit (44_decoder.md R191). -/
theorem decodeWalk_codewords {l r : NodeIndex} {w : Weight} (hroot : nodeAt nodes root = .internal l r w)
    {cs : List (Byte × BitString)} (rest : BitString) {j k : Nat} (hcs : ∀ c ∈ cs, Codeword nodes root c.1 c.2)
    (hk : k + cs.length ≤ Config.bufBytes) :
    decodeWalk nodes root j k root (cs.flatMap Prod.snd ++ rest) =
      (decodeWalk nodes root (j + (cs.flatMap Prod.snd).length) (k + cs.length) root rest).emitAll (cs.map Prod.fst) := by
  induction cs generalizing j k with
  | nil => simp
  | cons c cs ih =>
    have hc := hcs c (by simp)
    have hne := hc.ne_nil
    simp only [Codeword, hroot] at hc
    simp only [List.length_cons] at hk
    rw [List.flatMap_cons, List.append_assoc, decodeWalk_path _ hne hc.1 hc.2, if_neg (by omega),
      ih (fun x hx => hcs x (by simp [hx])) (by omega)]
    simp only [List.map_cons, Decoded.emitAll_cons, List.length_append, List.length_cons]
    rw [show j + c.2.length + (cs.flatMap Prod.snd).length = j + (c.2.length + (cs.flatMap Prod.snd).length) by omega,
      show k + 1 + cs.length = k + (cs.length + 1) by omega]

/-- With a one-leaf tree, bits 0 emit the symbol as long as they fit (44_decoder.md R195). -/
theorem decodeOneLeaf_zeros (sym : Byte) (rest : BitString) {m j k : Nat} (hk : k + m ≤ Config.bufBytes) :
    decodeOneLeaf sym j k (List.replicate m false ++ rest) =
      (decodeOneLeaf sym (j + m) (k + m) rest).emitAll (List.replicate m sym) := by
  induction m generalizing j k with
  | zero => simp
  | succ m ih =>
    rw [List.replicate_succ, List.cons_append, decodeOneLeaf, if_neg (by omega), ih (by omega), List.replicate_succ,
      Decoded.emitAll_cons, show j + 1 + m = j + (m + 1) by omega, show k + 1 + m = k + (m + 1) by omega]

/-- Codewords of a one-leaf tree are zeros, one bit each (42_code_assigner.md R152). -/
theorem codewords_of_leaf {x : Byte} {w : Weight} (hroot : nodeAt nodes root = .leaf x w) {cs : List (Byte × BitString)}
    (hcs : ∀ c ∈ cs, Codeword nodes root c.1 c.2) :
    cs.flatMap Prod.snd = List.replicate cs.length false ∧ cs.map Prod.fst = List.replicate cs.length x := by
  induction cs with
  | nil => simp
  | cons c cs ih =>
    have hc := hcs c (by simp)
    simp only [Codeword, hroot] at hc
    obtain ⟨h1, h2⟩ := ih (fun y hy => hcs y (by simp [hy]))
    simp [h1, h2, hc.1, hc.2, List.replicate_succ]

/-- The decoding of codewords, and of what follows them (44_decoder.md R191). -/
theorem decodeBits_codewords {cs : List (Byte × BitString)} (hcs : ∀ c ∈ cs, Codeword nodes root c.1 c.2)
    (hk : cs.length ≤ Config.bufBytes) (rest : BitString) :
    decodeBits nodes root (cs.flatMap Prod.snd ++ rest) =
      (match nodeAt nodes root with
        | .leaf sym _ => decodeOneLeaf sym (cs.flatMap Prod.snd).length cs.length rest
        | .internal _ _ _ => decodeWalk nodes root (cs.flatMap Prod.snd).length cs.length root rest).emitAll
        (cs.map Prod.fst) := by
  unfold decodeBits
  cases hroot : nodeAt nodes root with
  | leaf x w =>
    obtain ⟨h1, h2⟩ := codewords_of_leaf hroot hcs
    simp only []
    rw [h1, h2, decodeOneLeaf_zeros _ _ (by omega)]; simp
  | internal l r w =>
    simp only []
    rw [decodeWalk_codewords hroot rest hcs (by omega)]; simp

/-- A decoding loop emits no more symbols than fit, and reports MALFORMED_DATA or OUTPUT_OVERFLOW at a bit it was given
(44_decoder.md R191). -/
theorem decodeWalk_spec (bits : BitString) (j k : Nat) (p : NodeIndex) (hk : k ≤ Config.bufBytes) :
    k + (decodeWalk nodes root j k p bits).symbols.length ≤ Config.bufBytes ∧
    ∀ r ∈ (decodeWalk nodes root j k p bits).failure, ∃ m ≤ j + bits.length, r.info = BitVec.ofNat 32 m ∧
      (r.code = .malformedData ∨ r.code = .outputOverflow) := by
  induction bits generalizing j k p with
  | nil =>
    simp only [decodeWalk]
    refine ⟨by simpa using hk, ?_⟩
    intro r hr
    split at hr
    · simp at hr
    · obtain rfl : malformedAt j = r := by simpa using hr
      exact ⟨j, by simp, rfl, .inl rfl⟩
  | cons c bits ih =>
    simp only [decodeWalk]
    split
    · split
      · refine ⟨by simpa using hk, ?_⟩
        intro r hr
        obtain rfl : overflowAt j = r := by simpa using hr
        exact ⟨j, by omega, rfl, .inr rfl⟩
      · obtain ⟨h1, h2⟩ := ih (j + 1) (k + 1) root (by omega)
        refine ⟨by simp only [Decoded.emit_symbols, List.length_cons]; omega, ?_⟩
        intro r hr
        obtain ⟨m, hm, h3⟩ := h2 r (by simpa using hr)
        exact ⟨m, by simp only [List.length_cons]; omega, h3⟩
    · obtain ⟨h1, h2⟩ := ih (j + 1) k ((nodeAt nodes p).child c) hk
      refine ⟨h1, ?_⟩
      intro r hr
      obtain ⟨m, hm, h3⟩ := h2 r hr
      exact ⟨m, by simp only [List.length_cons]; omega, h3⟩

theorem decodeOneLeaf_spec (sym : Byte) (bits : BitString) (j k : Nat) (hk : k ≤ Config.bufBytes) :
    k + (decodeOneLeaf sym j k bits).symbols.length ≤ Config.bufBytes ∧
    ∀ r ∈ (decodeOneLeaf sym j k bits).failure, ∃ m ≤ j + bits.length, r.info = BitVec.ofNat 32 m ∧
      (r.code = .malformedData ∨ r.code = .outputOverflow) := by
  induction bits generalizing j k with
  | nil => simpa [decodeOneLeaf] using hk
  | cons c bits ih =>
    cases c with
    | true =>
      simp only [decodeOneLeaf]
      refine ⟨by simpa using hk, ?_⟩
      intro r hr
      obtain rfl : malformedAt j = r := by simpa using hr
      exact ⟨j, by omega, rfl, .inl rfl⟩
    | false =>
      simp only [decodeOneLeaf]
      split
      · refine ⟨by simpa using hk, ?_⟩
        intro r hr
        obtain rfl : overflowAt j = r := by simpa using hr
        exact ⟨j, by omega, rfl, .inr rfl⟩
      · obtain ⟨h1, h2⟩ := ih (j + 1) (k + 1) (by omega)
        refine ⟨by simp only [Decoded.emit_symbols, List.length_cons]; omega, ?_⟩
        intro r hr
        obtain ⟨m, hm, h3⟩ := h2 r (by simpa using hr)
        exact ⟨m, by simp only [List.length_cons]; omega, h3⟩

/-- Where a walk fails: at the end of the bits inside a path, or at the bit that completes the symbol that does not fit
(44_decoder.md R194, R197). `pre` is the path walked since the last symbol. -/
theorem decodeWalk_failure {l r : NodeIndex} {w : Weight} (hroot : nodeAt nodes root = .internal l r w) (bits : BitString)
    {j k : Nat} {pre : BitString} {e : Raise} (hpre : StaysInside nodes root pre)
    (hn : (nodeAt nodes (descend nodes root pre)).symbol? = none) (hk : k ≤ Config.bufBytes)
    (he : (decodeWalk nodes root j k (descend nodes root pre) bits).failure = some e) :
    e = malformedAt (j + bits.length) ∨
    ∃ m < bits.length, e = overflowAt (j + m) ∧ ∃ cs : List (Byte × BitString),
      (∀ c ∈ cs, Codeword nodes root c.1 c.2) ∧ k + cs.length = Config.bufBytes + 1 ∧
      pre ++ bits.take (m + 1) = cs.flatMap Prod.snd := by
  induction bits generalizing j k pre with
  | nil =>
    rw [decodeWalk] at he
    split at he
    · cases he
    · exact .inl (by simpa using he.symm)
  | cons c bits ih =>
    have hstay : StaysInside nodes root (pre ++ [c]) := staysInside_append_singleton.2 ⟨hpre, hn⟩
    have hd : (nodeAt nodes (descend nodes root pre)).child c = descend nodes root (pre ++ [c]) := by
      rw [descend_append, descend_cons, descend_nil]
    rw [decodeWalk, hd] at he
    cases hq : nodeAt nodes (descend nodes root (pre ++ [c])) with
    | leaf sym v =>
      have hword : Codeword nodes root sym (pre ++ [c]) := by
        unfold Codeword; rw [hroot]; exact ⟨hstay, by rw [hq]; rfl⟩
      simp only [hq] at he
      split at he
      · rename_i hkk
        refine .inr ⟨0, by simp, by simpa using he.symm, [(sym, pre ++ [c])], by simpa using hword, by simp; omega, by simp⟩
      · rw [Decoded.emit_failure] at he
        rcases ih (pre := []) (by simp) (by simp [hroot, Node.symbol?]) (by omega) he with h | ⟨m, hm, h, cs, hcs, hl, hb⟩
        · exact .inl (by rw [h, List.length_cons]; congr 1; omega)
        · refine .inr ⟨m + 1, by simpa using hm, by rw [h]; congr 1; omega, (sym, pre ++ [c]) :: cs, ?_, by simp; omega, ?_⟩
          · simpa using ⟨hword, fun a b hab => hcs (a, b) hab⟩
          · rw [List.flatMap_cons, ← hb, List.take_succ_cons]; simp
    | internal l' r' v =>
      simp only [hq] at he
      rcases ih hstay (by rw [hq]; rfl) hk he with h | ⟨m, hm, h, cs, hcs, hl, hb⟩
      · exact .inl (by rw [h, List.length_cons]; congr 1; omega)
      · exact .inr ⟨m + 1, by simpa using hm, by rw [h]; congr 1; omega, cs, hcs, hl, by
          rw [← hb, List.take_succ_cons]; simp⟩

/-- Where the decoding loop of a one-leaf tree fails: at a bit 1, or at the bit 0 whose symbol does not fit
(44_decoder.md R195, R197). -/
theorem decodeOneLeaf_failure (sym : Byte) (bits : BitString) {j k : Nat} {e : Raise} (hk : k ≤ Config.bufBytes)
    (he : (decodeOneLeaf sym j k bits).failure = some e) :
    ∃ m < bits.length, (e = malformedAt (j + m) ∧ bits[m]? = some true) ∨
      (e = overflowAt (j + m) ∧ k + m = Config.bufBytes ∧ bits.take (m + 1) = List.replicate (m + 1) false) := by
  induction bits generalizing j k with
  | nil => simp [decodeOneLeaf] at he
  | cons c bits ih =>
    cases c with
    | true => exact ⟨0, by simp, .inl ⟨by simpa [decodeOneLeaf] using he.symm, by simp⟩⟩
    | false =>
      rw [decodeOneLeaf] at he
      split at he
      · exact ⟨0, by simp, .inr ⟨by simpa using he.symm, by simpa, by simp⟩⟩
      · obtain ⟨m, hm, h⟩ := ih (k := k + 1) (by omega) he
        refine ⟨m + 1, by simpa using hm, ?_⟩
        rw [show j + (m + 1) = j + 1 + m by omega, List.getElem?_cons_succ, List.take_succ_cons, List.replicate_succ]
        rcases h with h | ⟨h1, h2, h3⟩
        · exact .inl h
        · exact .inr ⟨h1, by omega, by rw [h3]⟩

/-- Where a decoding fails: MALFORMED_DATA at the end of the bits or at a bit 1 of a one-leaf tree, OUTPUT_OVERFLOW at the
bit that completes the 65537th codeword (44_decoder.md R194, R195, R197). -/
theorem decodeBits_failure {bits : BitString} {e : Raise} (he : (decodeBits nodes root bits).failure = some e) :
    (∃ m, e = malformedAt m ∧
      (m = bits.length ∨ ((nodeAt nodes root).symbol?.isSome ∧ m < bits.length ∧ bits[m]? = some true))) ∨
    ∃ m < bits.length, e = overflowAt m ∧ ∃ cs : List (Byte × BitString),
      (∀ c ∈ cs, Codeword nodes root c.1 c.2) ∧ cs.length = Config.bufBytes + 1 ∧
      bits.take (m + 1) = cs.flatMap Prod.snd := by
  unfold decodeBits at he
  cases hroot : nodeAt nodes root with
  | leaf sym w =>
    simp only [hroot] at he
    obtain ⟨m, hm, ⟨h, hb⟩ | ⟨h, hl, hb⟩⟩ := decodeOneLeaf_failure sym bits (Nat.zero_le _) he
    · exact .inl ⟨m, by simpa using h, .inr ⟨rfl, hm, hb⟩⟩
    · refine .inr ⟨m, hm, by simpa using h, List.replicate (m + 1) (sym, [false]), ?_, by simp; omega, ?_⟩
      · intro c hc
        rw [(List.mem_replicate.1 hc).2]; simp [Codeword, hroot]
      · rw [hb, List.flatMap_replicate]; simp
  | internal l r w =>
    simp only [hroot] at he
    rcases decodeWalk_failure hroot bits (pre := []) (by simp) (by simp [hroot, Node.symbol?]) (Nat.zero_le _) he with
      h | ⟨m, hm, h, cs, hcs, hl, hb⟩
    · exact .inl ⟨bits.length, by simpa using h, .inl rfl⟩
    · exact .inr ⟨m, hm, by simpa using h, cs, hcs, by simpa using hl, by simpa using hb⟩

/-- A decoding emits no more symbols than fit, and reports MALFORMED_DATA or OUTPUT_OVERFLOW (44_decoder.md R191). -/
theorem decodeBits_spec (bits : BitString) :
    (decodeBits nodes root bits).symbols.length ≤ Config.bufBytes ∧
    ∀ r ∈ (decodeBits nodes root bits).failure, ∃ m ≤ bits.length, r.info = BitVec.ofNat 32 m ∧
      (r.code = .malformedData ∨ r.code = .outputOverflow) := by
  unfold decodeBits
  split
  · simpa using decodeOneLeaf_spec _ bits 0 0 (by simp)
  · simpa using decodeWalk_spec (nodes := nodes) (root := root) bits 0 0 root (by simp)

end Sys2Proof.Machine
end

