-- ==== Sys2Proof/Laws/Packer.lean ====
section
/-! SUPPORT. The packing loop and the packed bytes. -/

namespace Sys2Proof.Machine

@[simp] theorem concatCodes_nil (codes : Vector CodeEntry Config.nsym) : concatCodes codes [] = [] := rfl
@[simp] theorem concatCodes_cons (codes : Vector CodeEntry Config.nsym) (b : Byte) (bs : List Byte) :
    concatCodes codes (b :: bs) = (codeAt codes b).bits ++ concatCodes codes bs := by simp [concatCodes]

@[simp] theorem CodeEntry.bits_length (e : CodeEntry) : e.bits.length = e.len.toNat := by simp [CodeEntry.bits]

/-- A packing loop that succeeds has appended the codes of its bytes, all valid, and they fit (43_bit_packer.md R171). -/
theorem packLoop_ok {codes : Vector CodeEntry Config.nsym} {bs : List Byte} {i len : Nat} {S : BitString}
    (h : packLoop codes i len bs = .ok S) (hlen : len ≤ Config.bufBits) :
    (∀ b ∈ bs, (codeAt codes b).valid = true) ∧ S = concatCodes codes bs ∧ len + S.length ≤ Config.bufBits := by
  induction bs generalizing i len S with
  | nil => simp [packLoop] at h; subst h; simp; omega
  | cons b bs ih =>
    rw [packLoop] at h
    split at h
    · exact absurd h (by simp)
    · rename_i hv
      split at h
      · exact absurd h (by simp)
      · rename_i hf
        split at h
        · exact absurd h (by simp)
        · rename_i rest hrest
          obtain ⟨h1, rfl, h3⟩ := ih hrest (by omega)
          obtain rfl : _ = S := by simpa using h
          refine ⟨?_, by simp, by simp only [List.length_append]; omega⟩
          intro x hx
          rcases List.mem_cons.1 hx with rfl | hx
          · simpa using hv
          · exact h1 x hx

/-- A packing loop over bytes whose codes are valid and fit succeeds, or goes on (43_bit_packer.md R171). -/
theorem packLoop_append {codes : Vector CodeEntry Config.nsym} {before : List Byte} (after : List Byte) {i len : Nat}
    (hv : ∀ b ∈ before, (codeAt codes b).valid = true)
    (hf : len + (concatCodes codes before).length ≤ Config.bufBits) :
    packLoop codes i len (before ++ after) =
      (packLoop codes (i + before.length) (len + (concatCodes codes before).length) after).map
        (concatCodes codes before ++ ·) := by
  induction before generalizing i len with
  | nil => simp; cases packLoop codes i len after <;> rfl
  | cons b bs ih =>
    simp only [concatCodes_cons, List.length_append] at hf
    rw [List.cons_append, packLoop]
    simp only [hv b (by simp), Bool.not_true, Bool.false_eq_true, if_false]
    rw [if_neg (by omega), ih (fun x hx => hv x (by simp [hx])) (by omega)]
    simp only [concatCodes_cons, List.length_append, List.length_cons]
    rw [show i + 1 + bs.length = i + (bs.length + 1) by omega, ← Nat.add_assoc len]
    cases packLoop codes _ _ after <;> simp [Except.map]

/-- A packing loop that fails does so at the first byte without a code, UNKNOWN_SYMBOL, or whose code does not fit,
OUTPUT_OVERFLOW (43_bit_packer.md R171, R172, R175). -/
theorem packLoop_error {codes : Vector CodeEntry Config.nsym} {bs : List Byte} {i len : Nat} {r : Raise}
    (h : packLoop codes i len bs = .error r) (hlen : len ≤ Config.bufBits) :
    ∃ k, ∃ hk : k < bs.length, r.info = BitVec.ofNat 32 (i + k) ∧
      (∀ b ∈ bs.take k, (codeAt codes b).valid = true) ∧ len + (concatCodes codes (bs.take k)).length ≤ Config.bufBits ∧
      ((r.code = .unknownSymbol ∧ (codeAt codes bs[k]).valid = false) ∨
       (r.code = .outputOverflow ∧ (codeAt codes bs[k]).valid = true ∧
        Config.bufBits < len + (concatCodes codes (bs.take k)).length + (codeAt codes bs[k]).len.toNat)) := by
  induction bs generalizing i len with
  | nil => simp [packLoop] at h
  | cons b bs ih =>
    rw [packLoop] at h
    split at h
    · rename_i hv
      obtain rfl : _ = r := by simpa using h
      exact ⟨0, by simp, by simp, by simp, by simpa using hlen, .inl ⟨rfl, by simpa using hv⟩⟩
    · rename_i hv
      split at h
      · rename_i hf
        obtain rfl : _ = r := by simpa using h
        exact ⟨0, by simp, by simp, by simp, by simpa using hlen, .inr ⟨rfl, by simpa using hv, by simpa using hf⟩⟩
      · rename_i hf
        split at h
        · rename_i r' hrest
          obtain rfl : r' = r := by simpa using h
          obtain ⟨k, hk, h1, h2, h3, h4⟩ := ih hrest (by omega)
          refine ⟨k + 1, by simp; omega, by rw [h1]; congr 1; omega, ?_, ?_, ?_⟩
          · simpa using ⟨by simpa using hv, h2⟩
          · rw [List.take_succ_cons, concatCodes_cons, List.length_append]; omega
          · rw [List.take_succ_cons, concatCodes_cons, List.length_append, List.getElem_cons_succ, ← Nat.add_assoc]
            exact h4
        · exact absurd h (by simp)

theorem padding_fills (t : Nat) : (t + paddingOf t) % 8 = 0 ∧ paddingOf t ≤ 7 := by unfold paddingOf; omega

@[simp] theorem packedBytes_length (bits : BitString) :
    (packedBytes bits).length = (bits.length + paddingOf bits.length) / 8 := by simp [packedBytes]

/-- The packed bytes hold the bits and then the padding zeros (43_bit_packer.md R171, R173). -/
theorem streamBits_packedBytes (bits : BitString) :
    streamBits (packedBytes bits) = bits ++ List.replicate (paddingOf bits.length) false := by
  unfold packedBytes
  rw [streamBits_packBytes]
  have := padding_fills bits.length
  simp only [List.length_append, List.length_replicate]; omega

/-- Bits that fit the buffer give bytes that do. -/
theorem packedBytes_fit {bits : BitString} (h : bits.length ≤ Config.bufBits) :
    (packedBytes bits).length ≤ Config.bufBytes := by
  rw [packedBytes_length]
  have := padding_fills bits.length
  simp only [Config.bufBits, Config.bufBytes] at *; omega

end Sys2Proof.Machine
end

