-- ==== Sys2Proof/Laws/PerInstr.lean ====
section
/-! SUPPORT. Facts about every command as syntax, one lemma per constructor. -/

namespace Sys2Proof.Laws

/-- The command's word is the one legal word of its OP and is decoded to the command (30_encoding.md R91). -/
def CommandWord.Statement (i : Instr) : Prop :=
  i.wellFormed = true ∧ wellFormedWord (encode i) = true ∧ opField (encode i) = i.op ∧ decode (encode i) = .ok i

theorem CommandWord.clear : CommandWord.Statement .clear := by unfold CommandWord.Statement; decide
theorem CommandWord.count : CommandWord.Statement .count := by unfold CommandWord.Statement; decide
theorem CommandWord.build : CommandWord.Statement .build := by unfold CommandWord.Statement; decide
theorem CommandWord.assign : CommandWord.Statement .assign := by unfold CommandWord.Statement; decide
theorem CommandWord.pack : CommandWord.Statement .pack := by unfold CommandWord.Statement; decide
theorem CommandWord.unpack : CommandWord.Statement .unpack := by unfold CommandWord.Statement; decide

end Sys2Proof.Laws
end

