-- ==== Sys2Proof/Tests/Slice0.lean ====
section
/-! SUPPORT. The model's own tests. Expected values come from the spec: the opcode map (30_encoding.md R90, R91), the worked
examples of the command rules, the vectors of 95_test_vectors.md. Then one witness per obligation with hypotheses. -/

namespace Sys2Proof.Tests

set_option Elab.async false

open Sys2Proof.Machine

/-! ### Well-formedness: each check refuses an ill-formed term -/

theorem test_reservedClear_refuses : reservedClear 0x00000011#32 = false ∧ wellFormedWord 0x00000011#32 = false := by decide
theorem test_reservedClear_refuses_top_bit : reservedClear 0x80000003#32 = false := by decide
theorem test_opAssigned_refuses_zero : opAssigned 0x00000000#32 = false ∧ wellFormedWord 0x00000000#32 = false := by decide
theorem test_opAssigned_refuses_seven : opAssigned 0x00000007#32 = false ∧ opAssigned 0x0000000F#32 = false := by decide
theorem test_addressInRange_refuses : addressInRange 0x40000 = false ∧ wellFormedAddress 0x40000 = false := by decide
theorem test_addressAligned_refuses : addressAligned 0x00402 = false ∧ wellFormedAddress 0x00402 = false := by decide
theorem test_wellFormed_accepts : wellFormedWord 0x00000006#32 ∧ wellFormedAddress 0x3FFFC ∧ Instr.unpack.wellFormed := by decide

/-! ### Decoding: RSV in bits 31:4, OP in bits 3:0, written out bit by bit (30_encoding.md R90, R91) -/

theorem test_decode_clear : decodeTableWord 32 0b00000000000000000000000000000001 = some .clear := by decide
theorem test_decode_count : decodeTableWord 32 0b00000000000000000000000000000010 = some .count := by decide
theorem test_decode_build : decodeTableWord 32 0b00000000000000000000000000000011 = some .build := by decide
theorem test_decode_assign : decodeTableWord 32 0b00000000000000000000000000000100 = some .assign := by decide
theorem test_decode_pack : decodeTableWord 32 0b00000000000000000000000000000101 = some .pack := by decide
theorem test_decode_unpack : decodeTableWord 32 0b00000000000000000000000000000110 = some .unpack := by decide

/-! ### Small states, written by hand from the spec's worked example "aaabbc" -/

/-- The state after a command, the machine going on. -/
def after (i : Instr) (s : State) : State :=
  match exec i s with
  | .next t => t
  | .fault _ => s
  | .refused _ => s

/-- What a host read at a byte address returns. -/
def readAt (s : State) (a : Nat) : Word := s.peek (locate (wordAddr a))

/-- IN_MEM[0..5] = 61 61 61 62 62 63, IN_LEN = 6 (40_session_count.md R112). -/
def aaabbc : State :=
  { State.reset with
    inMem := [(0, 0x61#8), (1, 0x61#8), (2, 0x61#8), (3, 0x62#8), (4, 0x62#8), (5, 0x63#8)]
    inLen := 6#32 }

/-- FREQ = a 3, b 2, c 1 (41_tree_builder.md R131). -/
@[irreducible] def freq3 : Vector Word Config.nsym := setFreq (setFreq (setFreq zeroFreq 0x61#8 3#32) 0x62#8 2#32) 0x63#8 1#32

/-- The tree of the worked example: leaves a 3, b 2, c 1, node 3 = (2, 1), node 4 = (0, 3) (41_tree_builder.md R131). -/
@[irreducible] def nodes3 : Vector Node Config.nodeSlots :=
  storeNodes State.reset.nodes
    [.leaf 0x61#8 3#40, .leaf 0x62#8 2#40, .leaf 0x63#8 1#40, .internal 2#9 1#9 3#40, .internal 0#9 3#9 6#40]

/-- Its code table: a "0", c "10", b "11" (42_code_assigner.md R150). -/
@[irreducible] def codes3 : Vector CodeEntry Config.nsym :=
  setCode (setCode (setCode emptyCodes 0x61#8 ⟨true, 1#8, 0#256⟩) 0x63#8 ⟨true, 2#8, 2#256⟩) 0x62#8 ⟨true, 2#8, 3#256⟩

/-- The arena of the one-leaf tree of symbol 0x41 (41_tree_builder.md R135). -/
@[irreducible] def nodes1 : Vector Node Config.nodeSlots := storeNodes State.reset.nodes [.leaf 0x41#8 5#40]

def counted : State := { aaabbc with freq := freq3 }

def built : State :=
  { counted with nodes := nodes3, root := 4#9, nodeCount := 5#10, symCount := 3#9, treeValid := true }

def assigned : State := { built with codes := codes3 }

/-- The packed input of the worked example: IN = 1F 00, PAD = 7 (44_decoder.md R191). -/
def packed : State := { assigned with inMem := [(0, 0x1F#8)], inLen := 2#32, pad := 7#8 }

/-- The one-leaf tree of symbol 0x41 (41_tree_builder.md R135). -/
def oneLeaf : State :=
  { State.reset with
    freq := setFreq zeroFreq 0x41#8 5#32
    nodes := nodes1
    root := 0#9, nodeCount := 1#10, symCount := 1#9, treeValid := true }

/-- The same state with a command word accepted. -/
def busyWith (d : Word) (s : State) : State := { s with eng := .busy d }

/-! ### One step of each command -/

theorem test_clear : (after .clear packed).statusWord = 0x00000002#32 ∧ (after .clear packed).freqAt 0x61#8 = 0#32 ∧
    (after .clear packed).pad = 0#8 ∧ (after .clear packed).inLen = 2#32 := by decide +kernel

/-- 40_session_count.md R112, worked example. -/
theorem test_count : (after .count aaabbc).freqAt 0x61#8 = 3#32 ∧ (after .count aaabbc).freqAt 0x62#8 = 2#32 ∧
    (after .count aaabbc).freqAt 0x63#8 = 1#32 ∧ (after .count aaabbc).freqAt 0x00#8 = 0#32 := by decide +kernel

theorem test_count_length : (after .count { counted with inLen := 65537#32 }).statusWord = 0x00000806#32 ∧
    (after .count { counted with inLen := 65537#32 }).errInfo = 65537#32 := by decide +kernel

/-- 41_tree_builder.md R131, worked example, and the words of 20_memory.md R67. -/
theorem test_build : readAt (after .build counted) 0x2030 = 0#32 ∧ readAt (after .build counted) 0x2034 = 0x00010002#32 ∧
    readAt (after .build counted) 0x2044 = 0x00030000#32 ∧ readAt (after .build counted) 0x01C = 4#32 ∧
    readAt (after .build counted) 0x2010 = 0x00006201#32 := by decide +kernel

/-- A leaf precedes an internal node of equal weight (41_tree_builder.md R134): weights 1, 1, 2. -/
theorem test_build_tie :
    slot (after .build { counted with freq := setFreq (setFreq counted.freq 0x61#8 1#32) 0x62#8 1#32
                                      |> fun f => setFreq f 0x63#8 2#32 }).nodes 4 = .internal 2#9 3#9 4#40 := by
  decide +kernel

/-- 42_code_assigner.md R150, worked example, and the words of 20_memory.md R68. -/
theorem test_assign : readAt (after .assign built) 0x58C0 = 0x80000002#32 ∧ readAt (after .assign built) 0x58C4 = 2#32 ∧
    readAt (after .assign built) 0x5884 = 3#32 ∧ readAt (after .assign built) 0x5840 = 0x80000001#32 ∧
    readAt (after .assign built) 0x5900 = 0#32 := by decide +kernel

theorem test_assign_no_tree : (after .assign counted).statusWord = 0x00000706#32 := by decide +kernel

/-- 43_bit_packer.md R171, worked example. -/
theorem test_pack : readAt (after .pack assigned) 0x20000 = 0x0000001F#32 ∧ (after .pack assigned).outLen = 2#17 ∧
    (after .pack assigned).pad = 7#8 ∧ (after .pack assigned).totalBits = 9#32 ∧
    (after .pack assigned).statusWord = 0x00010002#32 := by decide +kernel

theorem test_pack_unknown :
    (after .pack { assigned with inMem := [(0, 0x61#8), (1, 0x7A#8)], inLen := 2#32 }).statusWord = 0x00010306#32 ∧
    (after .pack { assigned with inMem := [(0, 0x61#8), (1, 0x7A#8)], inLen := 2#32 }).errInfo = 1#32 := by decide +kernel

/-- 44_decoder.md R191, worked example. -/
theorem test_unpack : readAt (after .unpack packed) 0x20000 = 0x62616161#32 ∧
    readAt (after .unpack packed) 0x20004 = 0x00006362#32 ∧ (after .unpack packed).totalBits = 9#32 := by decide +kernel

/-- 44_decoder.md R192: a padding count of 9. -/
theorem test_unpack_padding : (after .unpack { packed with pad := 9#8 }).statusWord = 0x00010406#32 ∧
    (after .unpack { packed with pad := 9#8 }).errInfo = 9#32 := by decide +kernel

/-! ### Host accesses, completion and interrupt (95_test_vectors.md 2.8: V62 to V65) -/

/-- E1 after PACK with CTRL = 1, then CMD COUNT. -/
def countPending : State :=
  ({ after .pack assigned with ie := true }).access (.write (wordAddr 0x008) 2#32)

theorem test_busy_read : countPending.statusWord = 0x00010001#32 ∧ countPending.irq = false ∧
    (countPending.access (.read (wordAddr 0x010))).statusWord = 0x00030001#32 ∧
    (countPending.access (.read (wordAddr 0x010))).replies = [0#32] := by decide +kernel

theorem test_busy_write : (countPending.access (.write (wordAddr 0x018) 3#32)).pad = 7#8 ∧
    (countPending.access (.write (wordAddr 0x00C) 0x00020000#32)).statusWord = 0x00010001#32 := by decide +kernel

/-! ### Witnesses: states and operands that meet the hypotheses of each obligation, clause by clause -/

/-- Every command answers a next state, the one `after` names. -/
theorem exec_after (i : Instr) (s : State) : exec i s = .next (after i s) := by
  have h : ∃ t, exec i s = .next t := by
    cases i with
    | clear => exact ⟨_, rfl⟩
    | count => rcases execCount_cases s with ⟨-, h⟩ | ⟨-, h⟩ <;> exact ⟨_, h⟩
    | build => rcases execBuild_cases s with ⟨-, h⟩ | ⟨-, h⟩ <;> exact ⟨_, h⟩
    | assign => rcases execAssign_cases s with ⟨-, h⟩ | ⟨-, h⟩ <;> exact ⟨_, h⟩
    | pack => rcases execPack_cases s with ⟨-, h⟩ | ⟨_, -, -, h⟩ | ⟨_, -, -, h⟩ <;> exact ⟨_, h⟩
    | unpack => rcases execUnpack_cases s with ⟨_, -, h⟩ | ⟨_, _, -, -, -, h⟩ | ⟨_, -, -, -, h⟩ <;> exact ⟨_, h⟩
  obtain ⟨t, h⟩ := h
  simp [after, h]

/-- A command in flight with no input pending completes in the next step. -/
theorem step_busyWith {d : Word} {i : Instr} {s : State} (hd : decode d = .ok i) (hi : s.inputs = []) :
    step (busyWith d s) = .next (after i (busyWith d s)) := by
  simp [step, State.turn, busyWith, hi, completionStep, hd, exec_after]

/-- Other contents that reset may leave. -/
def someDraw : ResetDraw := ⟨counted.freq, built.nodes, assigned.codes, [1#8, 0#8, 2#8], [3#8]⟩

/-- A pending host read of STATUS. -/
def readStatus (first : Bool) : Input := ⟨first, .host (.read (wordAddr 0x00C))⟩

theorem test_witness_StepRunsTheDecodedCommand :
    (busyWith 3#32 counted).eng = .busy 3#32 ∧ decode 3#32 = .ok .build ∧ (busyWith 3#32 counted).inputs = [] ∧
    ({ busyWith 3#32 counted with inputs := [readStatus true] }).inputs =
      ⟨true, .host (.read (wordAddr 0x00C))⟩ :: [] ∧
    decodeTableWord 32 3 = some .build := ⟨rfl, rfl, rfl, rfl, rfl⟩

theorem test_witness_StepDeliversTheNextInput :
    ({ busyWith 3#32 counted with inputs := [readStatus false] }).inputs = readStatus false :: [] ∧
    (readStatus false).engineFirst = false ∧
    ({ counted with inputs := [readStatus true] }).eng = .idle ∧ counted.eng = .idle ∧ counted.inputs = [] :=
  ⟨rfl, rfl, rfl, rfl, rfl⟩

theorem test_witness_ResetAbandonsTheCommand :
    ({ busyWith 3#32 counted with inputs := [⟨false, .reset someDraw⟩] }).inputs = ⟨false, .reset someDraw⟩ :: [] ∧
    ({ counted with inputs := [⟨true, .reset someDraw⟩] }).eng = .idle := ⟨rfl, rfl⟩

theorem test_witness_AcceptedCommandCompletes :
    ({ busyWith 3#32 counted with inputs := [readStatus false] }).eng = .busy 3#32 ∧
    ∀ i ∈ ({ busyWith 3#32 counted with inputs := [readStatus false] }).inputs, ∀ draw, i.event ≠ .reset draw := by
  refine ⟨rfl, ?_⟩
  intro i hi draw
  have : i = readStatus false := by simpa using hi
  subst this; simp [readStatus]

theorem test_witness_IllegalWordOnlyReportsItself :
    rsvField 0x00000011#32 ≠ 0#28 ∧ rsvField 0x80000003#32 ≠ 0#28 ∧ opField 0x00000000#32 = 0#4 ∧
    7 ≤ (opField 0x00000007#32).toNat ∧ 7 ≤ (opField 0x0000000F#32).toNat ∧ State.reset.eng = .idle ∧
    (busyWith 7#32 counted).eng = .busy 7#32 ∧ (busyWith 7#32 counted).inputs = [] := by
  refine ⟨by decide, by decide, by decide, by decide, by decide, rfl, rfl, rfl⟩

theorem test_witness_CommandAcceptance : counted.eng = .idle ∧ (busyWith 3#32 counted).eng = .busy 3#32 := ⟨rfl, rfl⟩

theorem test_witness_CompletionEndsTheCommand :
    (∃ t, completionStep 3#32 counted = .next t ∧ t.errCode = .ok) ∧ decode 3#32 = .ok .build ∧
    (∀ i, decode 0#32 ≠ .ok i) := by
  refine ⟨⟨after .build counted, exec_after .build counted, by decide +kernel⟩, rfl, fun i h => ?_⟩
  cases h

/-- An idle state, and a busy one for the write to ID. -/
theorem test_witness_RegisterReadsAndWrites : assigned.eng = .idle ∧ (busyWith 2#32 assigned).busy = true := by
  exact ⟨rfl, rfl⟩

theorem test_witness_ReservedAddressesAreInert : ∀ a ∈ [0x30, 0x3FC, 0x800, 0x1FFC, 0x8000, 0xFFFC, 0x30000, 0x3FFFC],
    a % 4 = 0 ∧ ((0x30 ≤ a ∧ a < 0x400) ∨ (0x800 ≤ a ∧ a < 0x2000) ∨ (0x8000 ≤ a ∧ a < 0x10000) ∨
      (0x30000 ≤ a ∧ a < 0x40000)) ∧ locate (wordAddr a) = .reserved := by decide

theorem test_witness_FreqWindow : assigned.eng = .idle ∧ (0xFF#8 ≠ 0x61#8) ∧
    locate (wordAddr (0x400 + 4 * (0#8).toNat)) = .freq 0#8 ∧
    locate (wordAddr (0x400 + 4 * (0xFF#8).toNat)) = .freq 0xFF#8 := by decide +kernel

/-- The last leaf, the root, the first invalid slot and slot 511. -/
theorem test_witness_NodeWindow : assigned.eng = .idle ∧ (2#9).toNat < assigned.nodeCount.toNat ∧
    nodeAt assigned.nodes 2#9 = .leaf 0x63#8 1#40 ∧ (4#9).toNat < assigned.nodeCount.toNat ∧
    nodeAt assigned.nodes 4#9 = .internal 0#9 3#9 6#40 ∧ assigned.nodeCount.toNat ≤ (5#9).toNat ∧
    assigned.nodeCount.toNat ≤ (511#9).toNat := by decide +kernel

theorem test_witness_CodeWindow : assigned.eng = .idle ∧ (codeAt assigned.codes 0x62#8).valid = true ∧
    (codeAt assigned.codes 0xFF#8).valid = false ∧ ∀ k ∈ [0, 1, 8, 9, 15], k < 16 := by decide +kernel

theorem test_witness_buffers : aaabbc.eng = .idle ∧ 16383 < 16384 ∧
    (∃ i, i < 4 * 16383 ∨ 4 * 16383 + 4 ≤ i) ∧ 4 * 0 + 0 < (after .pack assigned).outLen.toNat := by
  refine ⟨rfl, by decide, ⟨0, by decide⟩, by decide +kernel⟩

theorem test_witness_AccessWhileBusy : (busyWith 2#32 assigned).busy = true ∧
    (∀ a ∈ [0x010, 0x02C, 0x400, 0x7FC, 0x2000, 0x7FFC, 0x10000, 0x2FFFC], a % 4 = 0 ∧
      ((0x010 ≤ a ∧ a < 0x030) ∨ (0x400 ≤ a ∧ a < 0x800) ∨ (0x2000 ≤ a ∧ a < 0x8000) ∨ (0x10000 ≤ a ∧ a < 0x30000))) ∧
    (∀ a ∈ [0x030, 0x3FC, 0x800, 0x1FFC, 0x8000, 0xFFFC, 0x30000, 0x3FFFC], a % 4 = 0 ∧
      ((0x030 ≤ a ∧ a < 0x400) ∨ (0x800 ≤ a ∧ a < 0x2000) ∨ (0x8000 ≤ a ∧ a < 0x10000) ∨ (0x30000 ≤ a ∧ a < 0x40000))) :=
  ⟨rfl, by decide, by decide⟩

theorem test_witness_BusyAccessLeavesTheCommandAlone : (busyWith 2#32 aaabbc).busy = true ∧
    completionStep 2#32 (busyWith 2#32 aaabbc) = .next (after .count (busyWith 2#32 aaabbc)) :=
  ⟨rfl, exec_after .count _⟩

theorem test_witness_InterruptLine : completionStep 2#32 (busyWith 2#32 aaabbc) =
      .next (after .count (busyWith 2#32 aaabbc)) ∧ (2#32).getLsbD 1 = true ∧ aaabbc.eng = .idle :=
  ⟨exec_after .count _, by decide, rfl⟩

/-- HOSTERR set by a refused read, and cleared by a write of 1 to STATUS bit 17 and by reset. -/
theorem test_witness_HostErrIsSticky :
    (∃ t, step { busyWith 2#32 aaabbc with inputs := [⟨false, .host (.read (wordAddr 0x010))⟩] } = .next t ∧
      t.hostErr = true ∧ aaabbc.hostErr = false) ∧
    (∃ t, step { aaabbc with hostErr := true, inputs := [⟨false, .host (.write (wordAddr 0x00C) 0x00020000#32)⟩] } =
      .next t ∧ t.hostErr = false) ∧
    (∃ t, step { aaabbc with hostErr := true, inputs := [⟨false, .reset someDraw⟩] } = .next t ∧ t.hostErr = false) :=
  ⟨⟨_, rfl, by decide, rfl⟩, ⟨_, rfl, by decide⟩, ⟨_, rfl, rfl⟩⟩

/-- BUSY, DONE and HOSTERR rising and falling, ERRCODE and TREE_VALID changing. -/
theorem test_witness_StatusFlagsChangeOnlyAsListed :
    (∃ t, step { aaabbc with inputs := [⟨false, .host (.write (wordAddr 0x008) 2#32)⟩] } = .next t ∧
      aaabbc.busy = false ∧ t.busy = true) ∧
    (∃ t, step (busyWith 4#32 counted) = .next t ∧ (busyWith 4#32 counted).busy = true ∧ t.busy = false ∧
      counted.done = false ∧ t.done = true ∧ t.errCode ≠ counted.errCode) ∧
    (∃ t, step (busyWith 1#32 built) = .next t ∧ t.treeValid ≠ built.treeValid) ∧
    (∃ t, step { aaabbc with done := true, inputs := [⟨false, .host (.write (wordAddr 0x00C) 2#32)⟩] } = .next t ∧
      t.done = false) ∧
    (∃ t, step { aaabbc with done := true, inputs := [⟨false, .host (.write (wordAddr 0x008) 2#32)⟩] } = .next t ∧
      t.done = false) ∧
    (∃ t, step { aaabbc with done := true, hostErr := true, inputs := [⟨false, .reset someDraw⟩] } = .next t ∧
      t.done = false ∧ t.hostErr = false) ∧
    (∃ t, step { aaabbc with hostErr := true, inputs := [⟨false, .host (.write (wordAddr 0x00C) 0x00020000#32)⟩] } =
      .next t ∧ t.hostErr = false) ∧
    (∃ t, step { busyWith 2#32 aaabbc with inputs := [⟨false, .host (.read (wordAddr 0x010))⟩] } = .next t ∧
      aaabbc.hostErr = false ∧ t.hostErr = true) := by
  refine ⟨⟨_, rfl, rfl, by decide⟩, ⟨after .assign (busyWith 4#32 counted), step_busyWith rfl rfl, rfl, by decide +kernel, rfl,
    by decide +kernel, by decide +kernel⟩, ⟨after .clear (busyWith 1#32 built), step_busyWith rfl rfl, by decide +kernel⟩,
    ⟨_, rfl, by decide⟩, ⟨_, rfl, by decide⟩, ⟨_, rfl, rfl, rfl⟩, ⟨_, rfl, by decide⟩, ⟨_, rfl, rfl, by decide⟩⟩

theorem test_witness_OnlyCommandsChangeTheTree :
    (∃ t, step (busyWith 3#32 counted) = .next t ∧ t.treeValid ≠ counted.treeValid) ∧
    (∃ t, step { built with inputs := [readStatus false] } = .next t ∧
      State.turn { built with inputs := [readStatus false] } = .input (.host (.read (wordAddr 0x00C))) []) :=
  ⟨⟨after .build (busyWith 3#32 counted), step_busyWith rfl rfl, by decide +kernel⟩, ⟨_, rfl, rfl⟩⟩

/-- Every command answers a next state; a PACK that fails, and a PACK and an UNPACK that leave bytes at and past OUT_LEN. -/
theorem test_witness_CommandsChangeOnlyWhatTheyList :
    (∀ i, exec i assigned = .next (after i assigned)) ∧
    (after .pack { assigned with inMem := [(0, 0x7A#8)], inLen := 1#32 }).errCode ≠ .ok ∧
    (after .pack assigned).outLen.toNat ≤ 65535 ∧ (after .pack assigned).errCode = .ok ∧
    (after .unpack packed).outLen.toNat ≤ 65535 ∧ (after .unpack packed).errCode = .ok := by
  refine ⟨fun i => exec_after i assigned, ?_⟩
  decide +kernel

/-- Every error but the reserved one and OUTPUT_OVERFLOW (below) is reported by some command, MALFORMED_DATA at the end of the
retained bits and at a bit 1 of a one-leaf tree. -/
theorem test_witness_CommandErrorsAreThoseListed :
    (after .build aaabbc).errCode = .emptyInput ∧ (after .assign counted).errCode = .noTree ∧
    (after .count { aaabbc with inLen := 65537#32 }).errCode = .length ∧
    (after .unpack { packed with pad := 9#8 }).errCode = .invalidPadding ∧
    (after .pack { assigned with inMem := [(0, 0x7A#8)], inLen := 1#32 }).errCode = .unknownSymbol ∧
    (after .unpack { packed with inLen := 1#32, pad := 0#8 }).errCode = .malformedData ∧
    (after .unpack { oneLeaf with inMem := [(0, 0x80#8)], inLen := 1#32, pad := 7#8 }).errCode = .malformedData ∧
    (after .count aaabbc).errCode = .ok := by decide +kernel

theorem test_witness_ClearStartsASession : let s := after .clear packed
    (∀ sym, s.freqAt sym = 0#32) ∧ (∀ sym, (codeAt s.codes sym).valid = false) ∧ s.nodeCount = 0#10 ∧ s.root = 0#9 ∧
    s.symCount = 0#9 ∧ s.treeValid = false ∧ s.outLen = 0#17 ∧ s.totalBits = 0#32 ∧ s.pad = 0#8 := by
  refine ⟨fun sym => zeroFreq_get sym, fun sym => by
      show (codeAt (invalidateCodes packed.codes) sym).valid = false; simp, rfl, rfl, rfl, rfl, rfl, rfl, rfl⟩

theorem test_witness_CountGivesTheFrequencies : (0#32).toNat ≤ 65536 ∧ (65536#32).toNat ≤ 65536 ∧
    65536 < (65537#32).toNat ∧ aaabbc.inLen.toNat ≤ 65536 := by decide

theorem test_witness_BuildOfAnEmptyTableFails : ∀ sym, aaabbc.freqAt sym = 0#32 := fun sym => by
  simp [State.freqAt, aaabbc, State.reset, Config.powerOnFreq]

theorem presentSymbols_counted : presentSymbols counted.freq = [0x61#8, 0x62#8, 0x63#8] := by
  rw [presentSymbols_eq_zip]; decide +kernel

theorem test_witness_BuildMakesATree : presentSymbols counted.freq ≠ [] := by rw [presentSymbols_counted]; decide

theorem test_witness_Build : exec .build counted = .next (after .build counted) ∧ (after .build counted).errCode = .ok ∧
    (after .build counted).symCount.toNat ≤ 3 ∧ 3 < (after .build counted).nodeCount.toNat :=
  ⟨exec_after _ _, by decide +kernel, by decide +kernel, by decide +kernel⟩

theorem test_witness_OneSymbolTree : presentSymbols oneLeaf.freq = [0x41#8] ∧
    presentSymbols (setFreq zeroFreq 0x00#8 7#32) = [0x00#8] := by
  rw [presentSymbols_eq_zip, presentSymbols_eq_zip]; decide +kernel

theorem test_witness_BuildDependsOnFreqAlone : counted.freq = assigned.freq ∧
    exec .build counted = .next (after .build counted) ∧ exec .build assigned = .next (after .build assigned) :=
  ⟨rfl, exec_after _ _, exec_after _ _⟩

theorem test_witness_BuildInvalidatesTheCodeTable : 1 ≤ assigned.inLen.toNat ∧ assigned.inLen.toNat ≤ 65536 := by decide

theorem test_witness_AssignNeedsATree : counted.treeValid = false ∧ built.treeValid = true := ⟨rfl, rfl⟩

theorem nodes3_shape : TreeShape nodes3 3 where
  one_le := by decide
  le_nsym := by decide
  leaf_slots := by decide +kernel
  leaf_order := by decide +kernel
  internal_slots := by decide +kernel
  one_parent := by decide +kernel

theorem nodes1_shape : TreeShape nodes1 1 where
  one_le := by decide
  le_nsym := by decide
  leaf_slots := by decide +kernel
  leaf_order := by decide +kernel
  internal_slots := by decide +kernel
  one_parent := by decide +kernel

theorem built_treeInv : built.TreeInv := ⟨nodes3_shape, rfl, rfl⟩

theorem oneLeaf_treeInv : oneLeaf.TreeInv := ⟨nodes1_shape, rfl, rfl⟩

/-- A tree of three leaves, with a symbol that has a code, and the one-leaf tree. -/
theorem test_witness_Assign : built.treeValid = true ∧ built.TreeInv ∧ oneLeaf.treeValid = true ∧ oneLeaf.TreeInv ∧
    exec .assign built = .next (after .assign built) ∧ exec .assign oneLeaf = .next (after .assign oneLeaf) ∧
    (codeAt (after .assign built).codes 0x61#8).valid = true ∧ 2 ≤ built.symCount.toNat ∧ oneLeaf.symCount.toNat = 1 ∧
    (codeAt (after .assign built).codes 0x62#8).valid = true :=
  ⟨rfl, built_treeInv, rfl, oneLeaf_treeInv, exec_after _ _, exec_after _ _, by decide +kernel, by decide +kernel,
    by decide +kernel, by decide +kernel⟩

theorem test_witness_StreamBitOrder : 15 / 8 < [0x1F#8, 0x00#8].length ∧ 1 < 2 ∧ 7 < 8 := by decide

theorem test_witness_PackConcatenatesTheCodes : assigned.inLen.toNat ≤ 65536 ∧
    (∀ b ∈ assigned.inputBytes, (codeAt assigned.codes b).valid = true) ∧
    (concatCodes assigned.codes assigned.inputBytes).length ≤ 524288 := by decide +kernel

theorem test_witness_PackPaddingBound : exec .pack assigned = .next (after .pack assigned) ∧
    (after .pack assigned).errCode = .ok ∧ ∀ b ∈ assigned.inputBytes, (codeAt assigned.codes b).len.toNat ≤ 8 :=
  ⟨exec_after _ _, by decide +kernel, by decide +kernel⟩

/-- A code of 255 bits for byte 0, and 2057 bytes 0: the last one does not fit 524288 bits. -/
def longCodes : State :=
  { State.reset with codes := setCode emptyCodes 0#8 ⟨true, 255#8, 0#256⟩, inLen := 2057#32 }

theorem inputBytes_of_empty {s : State} (h : s.inMem = []) : s.inputBytes = List.replicate s.inLen.toNat 0#8 := by
  unfold State.inputBytes
  rw [h, List.eq_replicate_iff]
  refine ⟨by simp, fun b hb => ?_⟩
  obtain ⟨i, -, rfl⟩ := List.mem_map.1 hb
  rfl

theorem concatCodes_replicate (codes : Vector CodeEntry Config.nsym) (b : Byte) (n : Nat) :
    (concatCodes codes (List.replicate n b)).length = n * (codeAt codes b).len.toNat := by
  induction n with
  | zero => simp
  | succ n ih => rw [List.replicate_succ, concatCodes_cons, List.length_append, ih, CodeEntry.bits_length]; ring

theorem test_witness_PackReportsTheFirstFailingByte :
    (({ assigned with inMem := [(0, 0x61#8), (1, 0x7A#8)], inLen := 2#32 } : State).inputBytes = [0x61#8] ++ 0x7A#8 :: [] ∧
      (codeAt assigned.codes 0x61#8).valid = true ∧ (codeAt assigned.codes 0x7A#8).valid = false) ∧
    (longCodes.inLen.toNat ≤ 65536 ∧ longCodes.inputBytes = List.replicate 2056 0#8 ++ 0#8 :: [] ∧
      (concatCodes longCodes.codes (List.replicate 2056 0#8)).length ≤ 524288 ∧ (codeAt longCodes.codes 0#8).valid = true ∧
      524288 < (concatCodes longCodes.codes (List.replicate 2056 0#8)).length + (codeAt longCodes.codes 0#8).len.toNat) := by
  have hl : (codeAt longCodes.codes 0#8).len.toNat = 255 := by decide +kernel
  refine ⟨by decide +kernel, by decide, ?_, ?_, by decide +kernel, ?_⟩
  · rw [inputBytes_of_empty rfl, show longCodes.inLen.toNat = 2056 + 1 from rfl, List.replicate_add]; rfl
  · rw [concatCodes_replicate, hl]; decide
  · rw [concatCodes_replicate, hl]; decide

/-- An IN_LEN above 65536, and codes of at most 8 bits (43_bit_packer.md R171, R175). -/
theorem test_witness_PackReportsTheFirstFailingByte_length : 65536 < ({ assigned with inLen := 65537#32 } : State).inLen.toNat ∧
    (∀ b ∈ assigned.inputBytes, (codeAt assigned.codes b).len.toNat ≤ 8) ∧
    exec .pack assigned = .next (after .pack assigned) := ⟨by decide, by decide +kernel, exec_after _ _⟩

/-- PACK reports OUTPUT_OVERFLOW (43_bit_packer.md R175): 2057 codes of 255 bits do not fit. -/
theorem test_witness_CommandErrorsAreThoseListed_pack_overflow : (after .pack longCodes).errCode = .outputOverflow := by
  have hl : (codeAt longCodes.codes 0#8).len.toNat = 255 := by decide +kernel
  have hin : longCodes.inputBytes = List.replicate 2057 0#8 := inputBytes_of_empty rfl
  have hnext := exec_after .pack longCodes
  rcases execPack_cases longCodes with ⟨h, -⟩ | ⟨r, -, h, h1⟩ | ⟨bits, -, h, -⟩
  · exact absurd h (by decide)
  · have ht : after .pack longCodes = ({ longCodes with outLen := 0#17, totalBits := 0#32 } : State).raise r :=
      Host.Outcome.next.inj (hnext.symm.trans h1)
    obtain ⟨k, hk, -, -, -, hc | hc⟩ := packLoop_error h (Nat.zero_le _)
    · have hv : (codeAt longCodes.codes 0#8).valid = true := by decide +kernel
      have hb : longCodes.inputBytes[k] = 0#8 := List.eq_of_mem_replicate (by rw [← hin]; exact List.getElem_mem hk)
      rw [hb, hv] at hc; exact absurd hc.2 (by decide)
    · rw [ht]; exact hc.1
  · obtain ⟨-, h2, h3⟩ := packLoop_ok h (Nat.zero_le _)
    have hlen := concatCodes_replicate longCodes.codes 0#8 2057
    rw [← hin, ← h2, hl] at hlen
    simp only [Config.bufBits, Config.bufBytes] at h3; omega

theorem test_witness_PackOfEmptyInput : State.reset.inLen = 0#32 := rfl

/-- Two states that PACK cannot tell apart: another tree, another byte past IN_LEN, another PAD. -/
theorem test_witness_PackReadsOnlyInputAndCodes :
    let s' : State := { assigned with inMem := assigned.inMem ++ [(6, 1#8)], treeValid := false, pad := 3#8 }
    assigned.inLen = s'.inLen ∧ (∀ i < assigned.inLen.toNat, assigned.inMem.read i = s'.inMem.read i) ∧
    assigned.codes = s'.codes ∧ exec .pack assigned = .next (after .pack assigned) ∧
    exec .pack s' = .next (after .pack s') ∧ (after .pack assigned).errCode = .ok := by
  exact ⟨rfl, by decide, rfl, exec_after _ _, exec_after _ _, by decide +kernel⟩

theorem test_witness_UnpackChecksItsOperands : 65536 < (65537#32).toNat ∧ (65536#32).toNat ≤ 65536 ∧ 7 < (8#8).toNat ∧
    (0#32).toNat = 0 ∧ 1 ≤ (1#8).toNat ∧ (7#8).toNat ≤ 7 ∧ packed.inLen.toNat ≤ 65536 ∧ packed.pad.toNat ≤ 7 ∧
    packed.pad.toNat ≤ 8 * packed.inLen.toNat ∧ counted.treeValid = false := by decide +kernel

theorem codeword3 {sym : Byte} {p : BitString} (h : (sym, p) ∈ treeCodes nodes3 4#9) : Codeword nodes3 4#9 sym p :=
  (mem_treeCodes nodes3_shape rfl sym p).1 h

/-- The codewords of "aaabbc". -/
def aaabbcCodes : List (Byte × BitString) :=
  [(0x61#8, [false]), (0x61#8, [false]), (0x61#8, [false]), (0x62#8, [true, true]), (0x62#8, [true, true]),
    (0x63#8, [true, false])]

theorem aaabbcCodes_mem : ∀ c ∈ aaabbcCodes, (c.1, c.2) ∈ treeCodes nodes3 4#9 := by decide +kernel

theorem test_witness_UnpackDecodesCodewords : packed.inLen.toNat ≤ 65536 ∧ packed.pad.toNat ≤ 7 ∧
    packed.pad.toNat ≤ 8 * packed.inLen.toNat ∧ packed.treeValid = true ∧
    (∀ c ∈ aaabbcCodes, Codeword packed.nodes packed.root c.1 c.2) ∧
    (streamBits packed.inputBytes).take (8 * packed.inLen.toNat - packed.pad.toNat) = aaabbcCodes.flatMap Prod.snd ∧
    aaabbcCodes.length ≤ 65536 :=
  ⟨by decide, by decide, by decide, rfl, fun c hc => codeword3 (aaabbcCodes_mem c hc), by decide +kernel, by decide⟩

/-- One byte only: the last codeword is cut after its first bit. -/
def cut : State := { packed with inLen := 1#32, pad := 0#8 }

theorem test_witness_UnpackRejectsAPartialPath :
    cut.inLen.toNat ≤ 65536 ∧ cut.pad.toNat ≤ 7 ∧ cut.pad.toNat ≤ 8 * cut.inLen.toNat ∧ cut.treeValid = true ∧ cut.TreeInv ∧
    (∀ c ∈ aaabbcCodes.take 5, Codeword cut.nodes cut.root c.1 c.2) ∧ ([true] : BitString) ≠ [] ∧
    StaysInside cut.nodes cut.root [true] ∧ (nodeAt cut.nodes (descend cut.nodes cut.root [true])).symbol? = none ∧
    (streamBits cut.inputBytes).take (8 * cut.inLen.toNat - cut.pad.toNat) =
      (aaabbcCodes.take 5).flatMap Prod.snd ++ [true] ∧
    (aaabbcCodes.take 5).length ≤ 65536 := by
  refine ⟨by decide, by decide, by decide, rfl, ⟨nodes3_shape, rfl, rfl⟩,
    fun c hc => codeword3 (aaabbcCodes_mem c (List.mem_of_mem_take hc)), by decide, ?_, by decide +kernel,
    by decide +kernel, by decide⟩
  unfold StaysInside; decide +kernel

theorem test_witness_UnpackWithAOneLeafTree : let s : State := { oneLeaf with inMem := [(0, 0x10#8)], inLen := 1#32, pad := 3#8 }
    s.inLen.toNat ≤ 65536 ∧ s.pad.toNat ≤ 7 ∧ s.pad.toNat ≤ 8 * s.inLen.toNat ∧ s.treeValid = true ∧
    nodeAt s.nodes s.root = .leaf 0x41#8 5#40 ∧
    (streamBits s.inputBytes).take (8 * s.inLen.toNat - s.pad.toNat) = List.replicate 3 false ++ true :: [false] ∧
    (streamBits ({ s with pad := 5#8 } : State).inputBytes).take (8 * 1 - 5) = List.replicate 3 false := by
  decide +kernel

/-- 8193 bytes 0 and a one-leaf tree give 65544 symbols (44_decoder.md R197). -/
def zeros : State := { oneLeaf with inLen := 8193#32 }

theorem streamBits_zeros (n : Nat) : streamBits (List.replicate n 0#8) = List.replicate (8 * n) false := by
  induction n with
  | zero => rfl
  | succ n ih =>
    rw [List.replicate_succ, show 8 * (n + 1) = 8 + 8 * n by ring, List.replicate_add, ← ih]; rfl

theorem flatMap_replicate_snd (n : Nat) (b : Byte) (c : Bool) :
    (List.replicate n (b, [c])).flatMap Prod.snd = List.replicate n c := by
  induction n with
  | zero => rfl
  | succ n ih => rw [List.replicate_succ, List.flatMap_cons, ih]; rfl

theorem test_witness_UnpackRejectsTooManySymbols : zeros.inLen.toNat ≤ 65536 ∧ zeros.pad.toNat ≤ 7 ∧
    zeros.pad.toNat ≤ 8 * zeros.inLen.toNat ∧ zeros.treeValid = true ∧
    (∀ x ∈ List.replicate 65536 (0x41#8, [false]), Codeword zeros.nodes zeros.root x.1 x.2) ∧
    Codeword zeros.nodes zeros.root 0x41#8 [false] ∧ (List.replicate 65536 (0x41#8, [false])).length = 65536 ∧
    (streamBits zeros.inputBytes).take (8 * zeros.inLen.toNat - zeros.pad.toNat) =
      (List.replicate 65536 (0x41#8, [false])).flatMap Prod.snd ++ [false] ++ List.replicate 7 false := by
  have hc : Codeword zeros.nodes zeros.root 0x41#8 [false] := 
    (mem_treeCodes nodes1_shape rfl _ _).1 (by decide +kernel : (0x41#8, [false]) ∈ treeCodes nodes1 0#9)
  refine ⟨by decide, by decide, by decide, rfl, fun x hx => ?_, hc, List.length_replicate, ?_⟩
  · rw [(List.mem_replicate.1 hx).2]; exact hc
  · have h1 : zeros.inLen.toNat = 8193 := rfl
    have h2 : zeros.pad.toNat = 0 := rfl
    rw [inputBytes_of_empty rfl, streamBits_zeros, h1, h2, List.take_of_length_le (by rw [List.length_replicate]),
      flatMap_replicate_snd, show ([false] : BitString) = List.replicate 1 false from rfl, ← List.replicate_add,
      ← List.replicate_add]

/-- UNPACK reports OUTPUT_OVERFLOW (44_decoder.md R197, V53): bit 65536 completes the 65537th symbol. -/
theorem test_witness_CommandErrorsAreThoseListed_unpack_overflow :
    (after .unpack zeros).errCode = .outputOverflow ∧ (after .unpack zeros).errInfo = 65536#32 := by
  obtain ⟨-, -, -, -, hcs, -, hlen, hbits⟩ := test_witness_UnpackRejectsTooManySymbols
  have hroot : nodeAt zeros.nodes zeros.root = .leaf 0x41#8 5#40 := by decide +kernel
  have hd : (decodeBits zeros.nodes zeros.root zeros.retainedBits).failure = some (overflowAt 65536) := by
    have hr : zeros.retainedBits = (List.replicate 65536 (0x41#8, [false])).flatMap Prod.snd ++ false :: List.replicate 7 false := by
      unfold State.retainedBits State.retainedCount; rw [hbits, List.append_assoc]; rfl
    rw [hr, decodeBits_codewords hcs (by rw [hlen]), hroot, flatMap_replicate_snd]
    simp only [List.length_replicate, decodeOneLeaf]; rfl
  have hnext := exec_after .unpack zeros
  have hcheck : zeros.unpackCheck = none := by decide
  rcases execUnpack_cases zeros with ⟨r, h, -⟩ | ⟨d, r, -, h2, h3, h4⟩ | ⟨d, -, h2, h3, -⟩
  · rw [hcheck] at h; cases h
  · rw [h2, h3] at hd
    have ht : after .unpack zeros = ({ zeros with
        outLen := 0#17, totalBits := 0#32, outMem := zeros.outMem.writeBytes 0 d.symbols } : State).raise r :=
      Host.Outcome.next.inj (hnext.symm.trans h4)
    obtain rfl : r = overflowAt 65536 := by simpa using hd
    rw [ht]; exact ⟨rfl, rfl⟩
  · rw [h2, h3] at hd; cases hd

/-- Other padding bits and no code table. -/
theorem test_witness_UnpackReadsOnlyRetainedBitsAndTree :
    (streamBits ((List.range packed.inLen.toNat).map (Memory.read [(0, 0x1F#8), (1, 0x7F#8)]))).take
      (8 * packed.inLen.toNat - packed.pad.toNat) =
      (streamBits packed.inputBytes).take (8 * packed.inLen.toNat - packed.pad.toNat) ∧
    exec .unpack packed = .next (after .unpack packed) := ⟨by decide +kernel, exec_after _ _⟩

/-- "aaabbc" encoded by the four commands. -/
@[irreducible] def encoded : State := after .pack (after .assign (after .build (after .count aaabbc)))

theorem test_witness_RoundTrip : ∃ s1 s2 s3 s5 : State,
    aaabbc.inMem.holds [0x61#8, 0x61#8, 0x61#8, 0x62#8, 0x62#8, 0x63#8] ∧ aaabbc.inLen.toNat = 6 ∧
    exec .count aaabbc = .next s1 ∧ s1.errCode = .ok ∧ exec .build s1 = .next s2 ∧ s2.errCode = .ok ∧
    exec .assign s2 = .next s3 ∧ s3.errCode = .ok ∧ exec .pack s3 = .next encoded ∧ encoded.errCode = .ok ∧
    s5.inMem.holds encoded.outputBytes ∧ s5.inLen.toNat = encoded.outLen.toNat ∧ s5.pad = encoded.pad ∧
    s5.treeValid = encoded.treeValid ∧ s5.root = encoded.root ∧ s5.nodes = encoded.nodes := by
  refine ⟨after .count aaabbc, after .build (after .count aaabbc), after .assign (after .build (after .count aaabbc)),
    { encoded with inMem := [(0, 0x1F#8)], inLen := 2#32 }, ?_, rfl, exec_after .count aaabbc, by decide +kernel,
    exec_after .build _, by decide +kernel, exec_after .assign _, by decide +kernel, ?_, by decide +kernel, ?_,
    by decide +kernel, rfl, rfl, rfl, rfl⟩
  · unfold Memory.holds; decide
  · unfold encoded; exact exec_after .pack _
  · unfold Memory.holds; decide +kernel

theorem test_witness_EncodingNeverMissesASymbol : 1 ≤ aaabbc.inLen.toNat ∧ aaabbc.inLen.toNat ≤ 65536 := by decide

theorem test_witness_BuffersStayCanonical : aaabbc.inMem.wf ∧ aaabbc.outMem.wf ∧ step aaabbc = .next aaabbc :=
  ⟨by decide, by decide, rfl⟩

theorem treeCodes3 : treeCodes nodes3 4#9 =
    [(0x61#8, [false]), (0x63#8, [true, false]), (0x62#8, [true, true])] := by decide +kernel

theorem assigned_codes : assigned.codes = codeTable (treeCodes assigned.nodes assigned.root) := by
  show codes3 = codeTable (treeCodes nodes3 4#9)
  have ha : codeEntryOf [false] = ⟨true, 1#8, 0#256⟩ := by decide
  have hc : codeEntryOf [true, false] = ⟨true, 2#8, 2#256⟩ := by decide
  have hb : codeEntryOf [true, true] = ⟨true, 2#8, 3#256⟩ := by decide
  rw [treeCodes3]
  unfold codes3 codeTable
  rw [List.foldl_cons, List.foldl_cons, List.foldl_cons, List.foldl_nil, ha, hc, hb]

/-- A state with a tree, its code table and PACK in flight. -/
theorem packPending_inv : (busyWith 5#32 assigned).Inv where
  in_wf := by decide
  out_wf := by decide
  outLen_le := by decide
  totalBits_le := by decide
  busy_clear := fun _ => ⟨rfl, rfl⟩
  code_assigned := by decide
  tree := fun _ => ⟨nodes3_shape, rfl, rfl⟩
  no_tree := fun h => by cases h
  codes := .inr ⟨rfl, assigned_codes⟩

theorem test_witness_EveryStepKeepsTheInvariant : (busyWith 5#32 assigned).Inv ∧
    step (busyWith 5#32 assigned) = .next (after .pack (busyWith 5#32 assigned)) :=
  ⟨packPending_inv, step_busyWith rfl rfl⟩

/-- Another node in slot 5, another length in an invalid entry, another byte past OUT_LEN. -/
def hiddenOther : State :=
  { busyWith 5#32 assigned with
    nodes := built.nodes.set 5 (.leaf 9#8 9#40)
    codes := setCode assigned.codes 0x00#8 ⟨false, 9#8, 9#256⟩
    outMem := [(0, 9#8)] }

theorem test_witness_HiddenContentsAreNeverObserved : (busyWith 5#32 assigned).Inv ∧
    SameVisible (busyWith 5#32 assigned) hiddenOther ∧ busyWith 5#32 assigned ≠ hiddenOther ∧
    step (busyWith 5#32 assigned) = .next (after .pack (busyWith 5#32 assigned)) := by
  refine ⟨packPending_inv, ⟨rfl, by decide +kernel, fun sym => ?_, fun sym h => ?_, by decide⟩, fun h => absurd (congrArg State.outMem h) (by decide), step_busyWith rfl rfl⟩
  · show _ = (codeAt (setCode _ _ _) sym).valid
    rw [codeAt_setCode]; split
    · rename_i h; subst h; decide +kernel
    · rfl
  · show _ = codeAt (setCode _ _ _) sym
    rw [codeAt_setCode]; split
    · rename_i h'; subst h'; exact absurd h (by decide +kernel)
    · rfl

theorem test_witness_LoadInLoadsTheBytes : aaabbc.eng = .idle ∧ ([1#8, 2#8, 3#8] : List Byte).length ≤ 65536 ∧
    ({ aaabbc with inputs := inputsOf false ((Pseudo.loadIn [1#8, 2#8, 3#8]).expand aaabbc.learned) ++ [] } : State).inputs =
      inputsOf false ((Pseudo.loadIn [1#8, 2#8, 3#8]).expand aaabbc.learned) ++ [] := ⟨rfl, by decide, rfl⟩

theorem test_witness_CopyOutCopiesTheOutput : let s := after .pack assigned
    s.eng = .idle ∧ s.outLen.toNat ≤ 65536 ∧
    ({ s with inputs := inputsOf false (Pseudo.copyOut.expand s.learned) ++ [] } : State).inputs =
      inputsOf false (Pseudo.copyOut.expand s.learned) ++ [] := ⟨by decide +kernel, by decide +kernel, rfl⟩

end Sys2Proof.Tests
end

section
/-! PROOFS. The schedule's two turns that are not the engine's, and the step each of them gives (00_scope.md R11). -/

namespace Sys2Proof.Machine

/-- The next pending input has its turn when the engine is idle, or when the schedule lets the input go first (R11, R251). -/
theorem State.turn_eq_input {s : State} {i : Input} {rest : List Input} (hi : s.inputs = i :: rest)
    (hfirst : s.eng = .idle ∨ i.engineFirst = false) : s.turn = .input i.event rest := by
  cases he : s.eng with
  | idle => simp [State.turn, he, hi]
  | busy d =>
    have hf : i.engineFirst = false := by simpa [he] using hfirst
    simp [State.turn, he, hi, hf]

/-- With the engine idle and nothing pending the run has ended (70_reset_and_hazards.md R253). -/
theorem State.turn_eq_ended {s : State} (he : s.eng = .idle) (hi : s.inputs = []) : s.turn = .ended := by
  simp [State.turn, he, hi]

/-- An input whose turn it is is delivered to the machine that no longer has it pending. -/
theorem step_eq_deliver {s : State} {i : Input} {rest : List Input} (hi : s.inputs = i :: rest)
    (hfirst : s.eng = .idle ∨ i.engineFirst = false) :
    step s = .next (({ s with inputs := rest } : State).deliver i.event) := by
  simp only [step, State.turn_eq_input hi hfirst]

theorem step_eq_self {s : State} (he : s.eng = .idle) (hi : s.inputs = []) : step s = .next s := by
  simp only [step, State.turn_eq_ended he hi]

/-- Settles O5: a step acts on the turn alone, and the hypotheses of each clause fix the turn. -/
theorem stepDeliversTheNextInput : Obligations.StepDeliversTheNextInput :=
  ⟨fun _ _ _ => step_eq_deliver, fun _ => step_eq_self⟩

end Sys2Proof.Machine
end

section
/-! PROOFS. What a completion and a step can leave, each said once as a list of cases, and the decoder's inverse. -/

namespace Sys2Proof.Machine

/-! ### The word of a decoded command -/

/-- A command word is its reserved bits above its OP field (30_encoding.md R90). -/
theorem rsvField_append_opField (d : Word) : rsvField d ++ opField d = d := by
  unfold rsvField opField
  apply BitVec.eq_of_toNat_eq
  have hlow : (d.extractLsb' 0 4).toNat < 2 ^ 4 := BitVec.isLt _
  rw [BitVec.toNat_append, ← Nat.shiftLeft_add_eq_or_of_lt hlow]
  simp only [BitVec.extractLsb'_toNat, Nat.shiftRight_eq_div_pow, Nat.shiftLeft_eq]
  have := d.isLt
  omega

/-- The opcode map names a command by its own OP only (30_encoding.md R91). -/
theorem op_of_decodeOp {op : BitVec 4} {i : Instr} (h : decodeOp op = .ok i) : op = i.op := by
  apply BitVec.eq_of_toNat_eq
  unfold decodeOp at h
  split at h <;> cases h <;> assumption

/-- A word that decodes to a command is that command's word (30_encoding.md R91). -/
theorem eq_encode_of_decode {d : Word} {i : Instr} (h : decode d = .ok i) : d = encode i := by
  unfold decode at h
  split at h
  case isTrue hr =>
    have hrsv : rsvField d = 0#28 := by simpa [reservedClear] using hr
    rw [← rsvField_append_opField d, hrsv, op_of_decodeOp h, encode]
  case isFalse => cases h

/-! ### Completions -/

/-- What the completion of word `d` can leave, PACK and UNPACK seen only by the ranges of what they write
(60_exceptions.md R212, 30_encoding.md R95). -/
inductive CompletionResult (s : State) (d : Word) : State → Prop
  /-- A result with no other effect: an illegal word, COUNT with an illegal IN_LEN, ASSIGN without a tree. -/
  | reported (e : ErrCode) (info : Word) (code : e ≠ .degenerateTree) : CompletionResult s d (s.complete e info)
  /-- CLEAR. -/
  | cleared (word : d = encode .clear) : CompletionResult s d
      ({ s with
        freq := zeroFreq, codes := invalidateCodes s.codes, nodeCount := 0#10, root := 0#9, symCount := 0#9,
        treeValid := false, outLen := 0#17, totalBits := 0#32, pad := 0#8 }.complete .ok 0#32)
  /-- COUNT. -/
  | counted (freq : Vector Word Config.nsym) : CompletionResult s d ({ s with freq := freq }.complete .ok 0#32)
  /-- BUILD of a table with a symbol present. -/
  | built (word : d = encode .build) (present : presentSymbols s.freq ≠ []) : CompletionResult s d
      ({ s with
        codes := invalidateCodes s.codes, nodes := storeNodes s.nodes (treeOf s.freq)
        root := BitVec.ofNat 9 ((treeOf s.freq).length - 1), nodeCount := BitVec.ofNat 10 (treeOf s.freq).length
        symCount := BitVec.ofNat 9 (leaves s.freq).length, treeValid := true }.complete .ok 0#32)
  /-- BUILD of the empty table. -/
  | treeLost (word : d = encode .build) : CompletionResult s d
      ({ s with
        codes := invalidateCodes s.codes, nodeCount := 0#10, root := 0#9, symCount := 0#9
        treeValid := false }.complete .emptyInput 0#32)
  /-- ASSIGN with a tree. -/
  | assigned (tree : s.treeValid = true) : CompletionResult s d
      ({ s with codes := codeTable (treeCodes s.nodes s.root) }.complete .ok 0#32)
  /-- PACK and UNPACK, on success and on failure. -/
  | output (out : Memory) (outLen : BitVec 17) (totalBits : Word) (pad : BitVec 8) (e : ErrCode) (info : Word)
      (out_wf : s.outMem.wf → out.wf) (outLen_le : outLen.toNat ≤ Config.bufBytes)
      (totalBits_le : totalBits.toNat ≤ Config.bufBits) (code : e ≠ .degenerateTree) : CompletionResult s d
      ({ s with outMem := out, outLen := outLen, totalBits := totalBits, pad := pad }.complete e info)

/-- Writing bytes that fit from index 0 on keeps a buffer canonical. -/
theorem writeBytes_zero_wf {bs : List Byte} (h : bs.length ≤ Config.bufBytes) (m : Memory) (hm : m.wf) :
    (m.writeBytes 0 bs).wf := Memory.writeBytes_wf hm (by omega)

/-- OUT_LEN holds any length that fits the buffer (10_state.md R28). -/
theorem toNat_outLen {n : Nat} (h : n ≤ Config.bufBytes) : (BitVec.ofNat 17 n).toNat = n := by
  simp only [Config.bufBytes] at h; simp; omega

/-- TOTAL_BITS holds any number of bits that fits the buffer (10_state.md R33). -/
theorem toNat_totalBits {n : Nat} (h : n ≤ Config.bufBits) : (BitVec.ofNat 32 n).toNat = n := by
  simp only [Config.bufBits, Config.bufBytes] at h; simp; omega

theorem packLoop_code {s : State} {r : Raise} (h : packLoop s.codes 0 0 s.inputBytes = .error r) :
    r.code ≠ .degenerateTree := by
  obtain ⟨k, hk, -, -, -, ⟨hc, -⟩ | ⟨hc, -⟩⟩ := packLoop_error h (Nat.zero_le _) <;> simp [hc]

theorem unpackCheck_code {s : State} {r : Raise} (h : s.unpackCheck = some r) : r.code ≠ .degenerateTree := by
  unfold State.unpackCheck at h
  repeat' split at h
  all_goals cases h
  all_goals simp [State.lengthError]

theorem decodeBits_code {nodes : Vector Node Config.nodeSlots} {root : NodeIndex} {bits : BitString} {r : Raise}
    (h : (decodeBits nodes root bits).failure = some r) : r.code ≠ .degenerateTree := by
  obtain ⟨-, -, -, hc | hc⟩ := (decodeBits_spec bits).2 r h <;> simp [hc]

/-- UNPACK decodes only with a legal IN_LEN and a tree (44_decoder.md R192). -/
theorem lengthOk_and_treeValid_of_unpackCheck {s : State} (h : s.unpackCheck = none) :
    s.lengthOk = true ∧ s.treeValid = true := by
  unfold State.unpackCheck at h
  repeat' split at h
  all_goals simp_all

/-- The operands UNPACK accepts retain no more bits than the buffer has (44_decoder.md R191). -/
theorem retainedCount_le_of_unpackCheck {s : State} (h : s.unpackCheck = none) : s.retainedCount ≤ Config.bufBits := by
  have hl : s.inLen.toNat ≤ Config.bufBytes := by
    simpa [State.lengthOk] using (lengthOk_and_treeValid_of_unpackCheck h).1
  simp only [State.retainedCount, Config.bufBits]; omega

theorem execPack_result {s t : State} (d : Word) (h : execPack s = .next t) : CompletionResult s d t := by
  rcases execPack_cases s with ⟨-, he⟩ | ⟨r, -, hp, he⟩ | ⟨bits, -, hp, he⟩ <;> cases he.symm.trans h
  · exact .output s.outMem 0#17 0#32 s.pad _ _ id (by simp) (by simp) (by simp [State.lengthError])
  · exact .output s.outMem 0#17 0#32 s.pad _ _ id (by simp) (by simp) (packLoop_code hp)
  · obtain ⟨-, -, hfit⟩ := packLoop_ok hp (Nat.zero_le _)
    have hbits : bits.length ≤ Config.bufBits := by omega
    have hbytes := packedBytes_fit hbits
    exact .output _ _ _ _ _ _ (writeBytes_zero_wf hbytes _) (by rwa [toNat_outLen hbytes])
      (by rwa [toNat_totalBits hbits]) (by simp)

theorem execUnpack_result {s t : State} (d : Word) (h : execUnpack s = .next t) : CompletionResult s d t := by
  have hbytes := (decodeBits_spec (nodes := s.nodes) (root := s.root) s.retainedBits).1
  rcases execUnpack_cases s with ⟨r, hc, he⟩ | ⟨_, r, -, rfl, hf, he⟩ | ⟨_, hc, rfl, -, he⟩ <;> cases he.symm.trans h
  · exact .output s.outMem 0#17 0#32 s.pad _ _ id (by simp) (by simp) (unpackCheck_code hc)
  · exact .output _ 0#17 0#32 s.pad _ _ (writeBytes_zero_wf hbytes _) (by simp) (by simp) (decodeBits_code hf)
  · have hbits := retainedCount_le_of_unpackCheck hc
    exact .output _ _ _ s.pad _ _ (writeBytes_zero_wf hbytes _) (by rwa [toNat_outLen hbytes])
      (by rwa [toNat_totalBits hbits]) (by simp)

/-- The completion of a command's own word is one of the results. -/
theorem exec_result {i : Instr} {s t : State} (h : exec i s = .next t) : CompletionResult s (encode i) t := by
  cases i with
  | clear => cases h; exact .cleared rfl
  | count =>
    rcases execCount_cases s with ⟨-, he⟩ | ⟨-, he⟩ <;> cases he.symm.trans h
    · exact .reported _ _ (by simp [State.lengthError])
    · exact .counted _
  | build =>
    rcases execBuild_cases s with ⟨-, he⟩ | ⟨hl, he⟩ <;> cases he.symm.trans h
    · exact .treeLost rfl
    · exact .built rfl (fun hp => hl (leaves_eq_nil.2 hp))
  | assign =>
    rcases execAssign_cases s with ⟨-, he⟩ | ⟨ht, he⟩ <;> cases he.symm.trans h
    · exact .reported _ _ (by simp)
    · exact .assigned ht
  | pack => exact execPack_result _ h
  | unpack => exact execUnpack_result _ h

/-- What a completion can leave (60_exceptions.md R212). -/
theorem completion_result {d : Word} {s t : State} (h : completionStep d s = .next t) : CompletionResult s d t := by
  rcases completionStep_cases d s with ⟨i, hd, he⟩ | ⟨_, -, he⟩
  · rw [eq_encode_of_decode hd]; exact exec_result (he.symm.trans h)
  · cases he.symm.trans h; exact .reported _ _ (by simp)

/-! ### Steps -/

/-- What a step can leave, with the turn it was (00_scope.md R11). -/
inductive StepResult (s : State) : State → Prop
  /-- The command in flight completed. -/
  | completed {t : State} (d : Word) (turn : s.turn = .engine d) (result : CompletionResult s d t) : StepResult s t
  /-- A host access was delivered. -/
  | accessed {t : State} (a : Access) (rest : List Input) (turn : s.turn = .input (.host a) rest)
      (result : AccessResult { s with inputs := rest } a t) : StepResult s t
  /-- The reset input was delivered. -/
  | wasReset (draw : ResetDraw) (rest : List Input) (turn : s.turn = .input (.reset draw) rest) :
      StepResult s (({ s with inputs := rest } : State).afterReset draw)
  /-- The run has ended. -/
  | ended : StepResult s s

theorem step_result {s t : State} (h : step s = .next t) : StepResult s t := by
  rcases step_cases h with ⟨d, ht, -, hc⟩ | ⟨e, rest, ht, -, rfl⟩ | ⟨-, -, -, rfl⟩
  · exact .completed d ht (completion_result hc)
  · cases e with
    | host a => exact .accessed a rest ht (access_result _ a)
    | reset draw => exact .wasReset draw rest ht
  · exact .ended

end Sys2Proof.Machine
end

section
/-! PROOFS. What every step keeps: the canonical buffers (10_state.md R44, R45) and the machine's invariant. -/

namespace Sys2Proof.Machine

/-! ### The tree registers and the tables -/

/-- Two states with the same arena and tree registers have the same tree. -/
theorem State.TreeInv.of_eq {s t : State} (h : s.TreeInv) (nodes : t.nodes = s.nodes) (symCount : t.symCount = s.symCount)
    (nodeCount : t.nodeCount = s.nodeCount) (root : t.root = s.root) : t.TreeInv where
  shape := by rw [nodes, symCount]; exact h.shape
  count := by rw [nodeCount, symCount]; exact h.count
  root := by rw [root, symCount]; exact h.root

/-- Invalidating leaves no entry valid (40_session_count.md R111). -/
theorem invalidateCodes_invalid (codes : Vector CodeEntry Config.nsym) (sym : Byte) :
    (codeAt (invalidateCodes codes) sym).valid = false := by simp

/-- What no host access touches: the tree, the code table and the output (10_state.md R38). -/
structure SameTables (s t : State) : Prop where
  nodes : t.nodes = s.nodes
  codes : t.codes = s.codes
  outMem : t.outMem = s.outMem
  treeValid : t.treeValid = s.treeValid
  root : t.root = s.root
  nodeCount : t.nodeCount = s.nodeCount
  symCount : t.symCount = s.symCount
  outLen : t.outLen = s.outLen
  totalBits : t.totalBits = s.totalBits

theorem AccessResult.sameTables {s t : State} {a : Access} (h : AccessResult s a t) : SameTables s t := by
  cases h <;> constructor <;> rfl

/-- The invariant of a state that shares the tables and the output with one that meets it. -/
theorem State.Inv.of_sameTables {s t : State} (hi : s.Inv) (same : SameTables s t) (in_wf : t.inMem.wf)
    (busy_clear : t.busy = true → t.done = false ∧ t.errCode = .ok) (code : t.errCode ≠ .degenerateTree) : t.Inv where
  in_wf := in_wf
  out_wf := by rw [same.outMem]; exact hi.out_wf
  outLen_le := by rw [same.outLen]; exact hi.outLen_le
  totalBits_le := by rw [same.totalBits]; exact hi.totalBits_le
  busy_clear := busy_clear
  code_assigned := code
  tree := by
    rw [same.treeValid]
    exact fun h => (hi.tree h).of_eq same.nodes same.symCount same.nodeCount same.root
  no_tree := by rw [same.treeValid, same.nodeCount, same.root, same.symCount]; exact hi.no_tree
  codes := by rw [same.codes, same.treeValid, same.nodes, same.root]; exact hi.codes

/-! ### The buffers -/

theorem AccessResult.inMem_wf {s t : State} {a : Access} (h : AccessResult s a t) (hm : s.inMem.wf) : t.inMem.wf := by
  cases h with
  | inMem m d => exact Memory.writeWord_wf hm m d
  | _ => exact hm

theorem CompletionResult.inMem_eq {s t : State} {d : Word} (h : CompletionResult s d t) : t.inMem = s.inMem := by
  cases h <;> rfl

theorem CompletionResult.outMem_wf {s t : State} {d : Word} (h : CompletionResult s d t) (hm : s.outMem.wf) :
    t.outMem.wf := by
  cases h with
  | output _ _ _ _ _ _ out_wf => exact out_wf hm
  | _ => exact hm

/-- The bytes a reset draw gives a buffer are in canonical form, however many it lists (log entry 3). -/
theorem cells_take_wf (bytes : List Byte) : (Memory.cells 0 (bytes.take Config.bufBytes)).wf :=
  Memory.cells_wf (by rw [Nat.zero_add]; exact List.length_take_le _ _)

/-- Settles O55: a host writes whole words of IN_MEM, commands write only OUT_MEM and only bytes that fit, and reset lists
at most BUF_BYTES bytes. -/
theorem buffersStayCanonical : Obligations.BuffersStayCanonical := by
  intro s t hin hout h
  cases step_result h with
  | completed d _ result => exact ⟨result.inMem_eq ▸ hin, result.outMem_wf hout⟩
  | accessed a rest _ result => exact ⟨result.inMem_wf hin, result.sameTables.outMem ▸ hout⟩
  | wasReset draw rest => exact ⟨cells_take_wf _, cells_take_wf _⟩
  | ended => exact ⟨hin, hout⟩

/-! ### The invariant -/

/-- A command in flight keeps DONE and ERRCODE clear under any access (10_state.md R26, 20_memory.md R70). -/
theorem AccessResult.busy_clear {s t : State} {a : Access} (h : AccessResult s a t)
    (hi : s.busy = true → s.done = false ∧ s.errCode = .ok) (hb : t.busy = true) : t.done = false ∧ t.errCode = .ok := by
  cases h with
  | accepted => exact ⟨rfl, rfl⟩
  | cleared d => obtain ⟨hd, he⟩ := hi hb; exact ⟨by simp [hd], he⟩
  | _ => exact hi hb

theorem AccessResult.code_assigned {s t : State} {a : Access} (h : AccessResult s a t)
    (hc : s.errCode ≠ .degenerateTree) : t.errCode ≠ .degenerateTree := by
  cases h with
  | accepted => simp
  | _ => exact hc

/-- A host access keeps the invariant. -/
theorem AccessResult.inv {s t : State} {a : Access} (h : AccessResult s a t) (hi : s.Inv) : t.Inv :=
  hi.of_sameTables h.sameTables (h.inMem_wf hi.in_wf) (h.busy_clear hi.busy_clear) (h.code_assigned hi.code_assigned)

/-- BUILD of a table with a symbol present leaves a tree described by its registers (41_tree_builder.md R137). -/
theorem treeInv_of_built {s t : State} (present : presentSymbols s.freq ≠ [])
    (nodes : t.nodes = storeNodes s.nodes (treeOf s.freq)) (root : t.root = BitVec.ofNat 9 ((treeOf s.freq).length - 1))
    (nodeCount : t.nodeCount = BitVec.ofNat 10 (treeOf s.freq).length)
    (symCount : t.symCount = BitVec.ofNat 9 (leaves s.freq).length) : t.TreeInv := by
  obtain ⟨hroot, hcount, hsym⟩ := build_registers present
  rw [← root] at hroot
  rw [← nodeCount] at hcount
  rw [← symCount] at hsym
  exact ⟨by rw [nodes, hsym]; exact storeNodes_shape s.nodes present, by rw [hcount, hsym], by rw [hroot, hsym]⟩

/-- A completion keeps the invariant: only BUILD makes a tree, and every command that changes the tree empties the code
table, which only ASSIGN fills, from the current tree (41_tree_builder.md R138). -/
theorem CompletionResult.inv {s t : State} {d : Word} (h : CompletionResult s d t) (hi : s.Inv) : t.Inv := by
  have idle {u : State} {e : ErrCode} {info : Word} :
      (u.complete e info).busy = true → (u.complete e info).done = false ∧ (u.complete e info).errCode = .ok :=
    fun hb => by simp [State.busy] at hb
  cases h with
  | reported e info code => exact hi.of_sameTables (by constructor <;> rfl) hi.in_wf idle code
  | counted freq => exact hi.of_sameTables (by constructor <;> rfl) hi.in_wf idle (by simp)
  | cleared word =>
    exact { in_wf := hi.in_wf, out_wf := hi.out_wf, outLen_le := by simp, totalBits_le := by simp, busy_clear := idle
            code_assigned := by simp, tree := nofun, no_tree := fun _ => ⟨rfl, rfl, rfl⟩
            codes := .inl (invalidateCodes_invalid _) }
  | built word present =>
    exact { in_wf := hi.in_wf, out_wf := hi.out_wf, outLen_le := hi.outLen_le, totalBits_le := hi.totalBits_le
            busy_clear := idle, code_assigned := by simp, tree := fun _ => treeInv_of_built present rfl rfl rfl rfl
            no_tree := nofun, codes := .inl (invalidateCodes_invalid _) }
  | treeLost word =>
    exact { in_wf := hi.in_wf, out_wf := hi.out_wf, outLen_le := hi.outLen_le, totalBits_le := hi.totalBits_le
            busy_clear := idle, code_assigned := by simp, tree := nofun
            no_tree := fun _ => ⟨rfl, rfl, rfl⟩, codes := .inl (invalidateCodes_invalid _) }
  | assigned tree =>
    exact { in_wf := hi.in_wf, out_wf := hi.out_wf, outLen_le := hi.outLen_le, totalBits_le := hi.totalBits_le
            busy_clear := idle, code_assigned := by simp, tree := fun h => (hi.tree h).of_eq rfl rfl rfl rfl
            no_tree := hi.no_tree, codes := .inr ⟨tree, rfl⟩ }
  | output out outLen totalBits pad e info out_wf outLen_le totalBits_le code =>
    exact { in_wf := hi.in_wf, out_wf := out_wf hi.out_wf, outLen_le := outLen_le, totalBits_le := totalBits_le
            busy_clear := idle, code_assigned := code, tree := fun h => (hi.tree h).of_eq rfl rfl rfl rfl
            no_tree := hi.no_tree, codes := hi.codes }

/-- Reset gives the invariant whatever contents it leaves (70_reset_and_hazards.md R241). -/
theorem State.inv_afterReset (s : State) (draw : ResetDraw) : (s.afterReset draw).Inv where
  in_wf := cells_take_wf _
  out_wf := cells_take_wf _
  outLen_le := by simp
  totalBits_le := by simp
  busy_clear := fun hb => by simp [State.busy] at hb
  code_assigned := by simp
  tree := nofun
  no_tree := fun _ => ⟨rfl, rfl, rfl⟩
  codes := .inl (invalidateCodes_invalid _)

/-- Taking inputs off the pending ones leaves the invariant, which does not speak of them. -/
theorem State.Inv.withInputs {s : State} (hi : s.Inv) (rest : List Input) : ({ s with inputs := rest } : State).Inv :=
  hi.of_sameTables (by constructor <;> rfl) hi.in_wf hi.busy_clear hi.code_assigned

/-- Settles O57: completions, host accesses and reset each keep the invariant. -/
theorem everyStepKeepsTheInvariant : Obligations.EveryStepKeepsTheInvariant := by
  intro s t hi h
  cases step_result h with
  | completed d _ result => exact result.inv hi
  | accessed a rest _ result => exact result.inv (hi.withInputs rest)
  | wasReset draw rest => exact State.inv_afterReset _ _
  | ended => exact hi

end Sys2Proof.Machine
end

section
/-! PROOFS. STATUS: its fields (10_state.md R25), and what sets and clears each flag over every step (R26). -/

namespace Sys2Proof.Machine

/-! ### The fields of STATUS -/

/-- ERROR is a nonzero ERRCODE (10_state.md R25, 60_exceptions.md R213). -/
theorem State.error_eq (s : State) : s.error = decide (s.errCode ≠ .ok) := by
  unfold State.error; cases s.errCode <;> decide

/-- Every bit of the STATUS word (10_state.md R25). -/
theorem State.statusWord_getLsbD (s : State) (i : Nat) : s.statusWord.getLsbD i =
    if i = 0 then s.busy else if i = 1 then s.done else if i = 2 then s.error
    else if 8 ≤ i ∧ i < 12 then s.errCode.bits.getLsbD (i - 8) else if i = 16 then s.treeValid
    else if i = 17 then s.hostErr else false := by
  unfold State.statusWord
  repeat rw [BitVec.getLsbD_append]
  simp only [BitVec.getLsbD_ofBool, BitVec.getLsbD_zero]
  by_cases h : i < 8
  · interval_cases i <;> simp
  · rw [if_neg (by omega), if_neg (by omega), if_neg (by omega), if_neg (by omega)]
    grind

theorem State.statusWord_errCode (s : State) : s.statusWord.extractLsb' 8 4 = s.errCode.bits := by
  apply BitVec.eq_of_getLsbD_eq
  intro i hi
  rw [BitVec.getLsbD_extractLsb', State.statusWord_getLsbD, if_neg (by omega), if_neg (by omega), if_neg (by omega),
    if_pos (by omega)]
  simp [hi]

/-- A field of STATUS that holds no flag and no bit of ERRCODE reads 0 (10_state.md R25). -/
theorem State.statusWord_reserved (s : State) {low len : Nat}
    (h : ∀ i, low ≤ i → i < low + len → (2 < i ∧ i < 8) ∨ (12 ≤ i ∧ i < 16) ∨ 18 ≤ i) :
    s.statusWord.extractLsb' low len = 0#len := by
  apply BitVec.eq_of_getLsbD_eq
  intro i hi
  have hr := h (low + i) (by omega) (by omega)
  rw [BitVec.getLsbD_extractLsb', State.statusWord_getLsbD, if_neg (by omega), if_neg (by omega), if_neg (by omega),
    if_neg (by omega), if_neg (by omega), if_neg (by omega)]
  simp

theorem locate_status : locate (wordAddr 0x00C) = .reg .status := by decide

/-- STATUS is read in every engine state (20_memory.md R70). -/
theorem access_read_status (s : State) : s.access (.read (wordAddr 0x00C)) = s.reply s.statusWord := by
  simp [State.access, locate_status, State.hostRead, Loc.readRefused, State.peek, State.readReg, State.reply]

/-- STATUS is written in every engine state (20_memory.md R70). -/
theorem access_write_status (s : State) (d : Word) : s.access (.write (wordAddr 0x00C) d) = s.writeStatus d := by
  simp [State.access, locate_status, State.hostWrite, Loc.writeRefused, Loc.readRefused, State.poke, State.writeReg]

/-- Settles O13: the fields are read off the bits of the STATUS word, and STATUS is accessible in every engine state. -/
theorem statusRegisterFields : Obligations.StatusRegisterFields := by
  refine ⟨fun s => ?_, access_write_status, by decide⟩
  have bit := s.statusWord_getLsbD
  exact ⟨bit 0, bit 1, (bit 2).trans s.error_eq, s.statusWord_errCode, bit 16, bit 17,
    s.statusWord_reserved (by omega), s.statusWord_reserved (by omega), s.statusWord_reserved (by omega),
    access_read_status s⟩

/-! ### What a completion and an access do to the flags -/

theorem CompletionResult.eng_idle {s t : State} {d : Word} (h : CompletionResult s d t) : t.eng = .idle := by
  cases h <;> rfl

theorem CompletionResult.not_busy {s t : State} {d : Word} (h : CompletionResult s d t) : t.busy = false :=
  (State.not_busy_iff t).2 h.eng_idle

theorem CompletionResult.done_set {s t : State} {d : Word} (h : CompletionResult s d t) : t.done = true := by
  cases h <;> rfl

theorem CompletionResult.hostErr_eq {s t : State} {d : Word} (h : CompletionResult s d t) : t.hostErr = s.hostErr := by
  cases h <;> rfl

/-- Only BUILD and CLEAR change TREE_VALID (41_tree_builder.md R141). -/
theorem CompletionResult.treeValid_eq {s t : State} {d : Word} (h : CompletionResult s d t) :
    t.treeValid = s.treeValid ∨ d = encode .build ∨ d = encode .clear := by
  cases h with
  | cleared word => exact .inr (.inr word)
  | built word | treeLost word => exact .inr (.inl word)
  | _ => exact .inl rfl

/-- An access changes BUSY, DONE and ERRCODE only as acceptance does, while idle, but for the DONE bit of a STATUS write
(60_exceptions.md R211, 10_state.md R25). -/
theorem AccessResult.flags_cases {s t : State} {a : Access} (h : AccessResult s a t) :
    (t.busy = s.busy ∧ t.done = s.done ∧ t.errCode = s.errCode) ∨
    (s.busy = false ∧ (∃ d, a = .write (wordAddr 0x008) d) ∧ t.busy = true ∧ t.done = false ∧ t.errCode = .ok) ∨
    (∃ d, a = .write (wordAddr 0x00C) d ∧ t.busy = s.busy ∧ t.done = (s.done && !d.getLsbD 1) ∧
      t.errCode = s.errCode) := by
  cases h with
  | accepted d idle write => exact .inr (.inl ⟨(State.not_busy_iff s).2 idle, ⟨d, write⟩, rfl, rfl, rfl⟩)
  | cleared d write => exact .inr (.inr ⟨d, write, rfl, rfl, rfl⟩)
  | _ => exact .inl ⟨rfl, rfl, rfl⟩

/-- An access sets HOSTERR only while busy, and only a STATUS write with bit 17 clears it (60_exceptions.md R222). -/
theorem AccessResult.hostErr_cases {s t : State} {a : Access} (h : AccessResult s a t) :
    t.hostErr = s.hostErr ∨ (s.busy = true ∧ t.hostErr = true) ∨
    (∃ d, a = .write (wordAddr 0x00C) d ∧ t.hostErr = (s.hostErr && !d.getLsbD 17)) := by
  cases h with
  | readRefused busy | writeRefused busy => exact .inr (.inl ⟨busy, rfl⟩)
  | cleared d write => exact .inr (.inr ⟨d, write, rfl⟩)
  | _ => exact .inl rfl

/-! ### What changes each flag over a step -/

section
variable {s t : State} (h : step s = .next t)
include h

theorem step_busy_rises (hs : s.busy = false) (ht : t.busy = true) :
    ∃ d rest, s.turn = .input (.host (.write (wordAddr 0x008) d)) rest := by
  cases step_result h with
  | completed d _ result => simp [result.not_busy] at ht
  | accessed a rest turn result =>
    rcases result.flags_cases with ⟨hb, -⟩ | ⟨-, ⟨d, rfl⟩, -⟩ | ⟨d, -, hb, -⟩
    · exact absurd (hs.symm.trans (hb.symm.trans ht)) Bool.false_ne_true
    · exact ⟨d, rest, turn⟩
    · exact absurd (hs.symm.trans (hb.symm.trans ht)) Bool.false_ne_true
  | wasReset draw rest => simp [State.busy] at ht
  | ended => simp [hs] at ht

theorem step_busy_falls (hs : s.busy = true) (ht : t.busy = false) :
    (∃ d, s.turn = .engine d) ∨ ∃ draw rest, s.turn = .input (.reset draw) rest := by
  cases step_result h with
  | completed d turn => exact .inl ⟨d, turn⟩
  | accessed a rest _ result =>
    rcases result.flags_cases with ⟨hb, -⟩ | ⟨-, -, hb, -⟩ | ⟨d, -, hb, -⟩
    · exact absurd (hs.symm.trans (hb.symm.trans ht)) Bool.false_ne_true.symm
    · simp [ht] at hb
    · exact absurd (hs.symm.trans (hb.symm.trans ht)) Bool.false_ne_true.symm
  | wasReset draw rest turn => exact .inr ⟨draw, rest, turn⟩
  | ended => simp [hs] at ht

theorem step_done_rises (hs : s.done = false) (ht : t.done = true) : ∃ d, s.turn = .engine d := by
  cases step_result h with
  | completed d turn => exact ⟨d, turn⟩
  | accessed a rest _ result =>
    rcases result.flags_cases with ⟨-, hd, -⟩ | ⟨-, -, -, hd, -⟩ | ⟨d, -, -, hd, -⟩ <;> simp [ht, hs] at hd
  | wasReset draw rest => simp at ht
  | ended => simp [hs] at ht

theorem step_done_falls (hs : s.done = true) (ht : t.done = false) :
    (∃ d rest, s.turn = .input (.host (.write (wordAddr 0x00C) d)) rest ∧ d.getLsbD 1 = true) ∨
    (s.busy = false ∧ ∃ d rest, s.turn = .input (.host (.write (wordAddr 0x008) d)) rest) ∨
    ∃ draw rest, s.turn = .input (.reset draw) rest := by
  cases step_result h with
  | completed d _ result => simp [result.done_set] at ht
  | accessed a rest turn result =>
    rcases result.flags_cases with ⟨-, hd, -⟩ | ⟨idle, ⟨d, rfl⟩, -⟩ | ⟨d, rfl, -, hd, -⟩
    · simp [ht, hs] at hd
    · exact .inr (.inl ⟨idle, d, rest, turn⟩)
    · exact .inl ⟨d, rest, turn, by simpa [ht, hs] using hd⟩
  | wasReset draw rest turn => exact .inr (.inr ⟨draw, rest, turn⟩)
  | ended => simp [hs] at ht

/-- A completion ends the command with DONE set (60_exceptions.md R212). -/
theorem step_engine_flags {d : Word} (turn : s.turn = .engine d) : t.busy = false ∧ t.done = true := by
  have hc : completionStep d s = .next t := by simpa [step, turn] using h
  exact ⟨(completion_result hc).not_busy, (completion_result hc).done_set⟩

theorem step_errCode_changes (hne : t.errCode ≠ s.errCode) :
    (∃ d, s.turn = .engine d) ∨
    (t.errCode = .ok ∧ ∃ d rest, s.turn = .input (.host (.write (wordAddr 0x008) d)) rest) ∨
    (t.errCode = .ok ∧ ∃ draw rest, s.turn = .input (.reset draw) rest) := by
  cases step_result h with
  | completed d turn => exact .inl ⟨d, turn⟩
  | accessed a rest turn result =>
    rcases result.flags_cases with ⟨-, -, he⟩ | ⟨-, ⟨d, rfl⟩, -, -, he⟩ | ⟨d, -, -, -, he⟩
    · exact absurd he hne
    · exact .inr (.inl ⟨he, d, rest, turn⟩)
    · exact absurd he hne
  | wasReset draw rest turn => exact .inr (.inr ⟨rfl, draw, rest, turn⟩)
  | ended => exact absurd rfl hne

theorem step_treeValid_changes (hne : t.treeValid ≠ s.treeValid) :
    s.turn = .engine (encode .build) ∨ s.turn = .engine (encode .clear) ∨
    ∃ draw rest, s.turn = .input (.reset draw) rest := by
  cases step_result h with
  | completed d turn result =>
    rcases result.treeValid_eq with he | rfl | rfl
    · exact absurd he hne
    · exact .inl turn
    · exact .inr (.inl turn)
  | accessed a rest _ result => exact absurd result.sameTables.treeValid hne
  | wasReset draw rest turn => exact .inr (.inr ⟨draw, rest, turn⟩)
  | ended => exact absurd rfl hne

theorem step_hostErr_rises (hs : s.hostErr = false) (ht : t.hostErr = true) :
    s.busy = true ∧ ∃ a rest, s.turn = .input (.host a) rest := by
  cases step_result h with
  | completed d _ result => simp [result.hostErr_eq, hs] at ht
  | accessed a rest turn result =>
    rcases result.hostErr_cases with he | ⟨busy, -⟩ | ⟨d, -, he⟩
    · simp [ht, hs] at he
    · exact ⟨busy, a, rest, turn⟩
    · simp [ht, hs] at he
  | wasReset draw rest => simp at ht
  | ended => simp [hs] at ht

theorem step_hostErr_falls (hs : s.hostErr = true) (ht : t.hostErr = false) :
    (∃ d rest, s.turn = .input (.host (.write (wordAddr 0x00C) d)) rest ∧ d.getLsbD 17 = true) ∨
    ∃ draw rest, s.turn = .input (.reset draw) rest := by
  cases step_result h with
  | completed d _ result => simp [result.hostErr_eq, hs] at ht
  | accessed a rest turn result =>
    rcases result.hostErr_cases with he | ⟨-, he⟩ | ⟨d, rfl, he⟩
    · simp [ht, hs] at he
    · simp [ht] at he
    · exact .inl ⟨d, rest, turn, by simpa [ht, hs] using he⟩
  | wasReset draw rest turn => exact .inr ⟨draw, rest, turn⟩
  | ended => simp [hs] at ht

end

/-- Settles O25: one lemma per flag and direction, each by the four things a step can be. -/
theorem statusFlagsChangeOnlyAsListed : Obligations.StatusFlagsChangeOnlyAsListed :=
  fun _ _ h => ⟨step_busy_rises h, step_busy_falls h, step_done_rises h, step_done_falls h,
    fun _ => step_engine_flags h, step_errCode_changes h, step_treeValid_changes h, step_hostErr_rises h,
    step_hostErr_falls h⟩

end Sys2Proof.Machine
end

section
/-! PROOFS. What a walk over the tree sees: the slots below NODE_COUNT and no other (10_state.md R40, R41). -/

namespace Sys2Proof.Machine

variable {v w : Vector Node Config.nodeSlots} {N : Nat}

/-- The slots below N are closed under going to a child. -/
def ClosedBelow (v : Vector Node Config.nodeSlots) (N : Nat) : Prop :=
  ∀ n : NodeIndex, n.toNat < N → ∀ c, ((nodeAt v n).child c).toNat < N

/-- Two arenas hold the same nodes in the slots below N. -/
def AgreeBelow (v w : Vector Node Config.nodeSlots) (N : Nat) : Prop :=
  ∀ n : NodeIndex, n.toNat < N → nodeAt v n = nodeAt w n

/-- A tree's slots are closed: a child's slot is smaller, and a leaf's would be slot 0 (10_state.md R41). -/
theorem TreeShape.closedBelow {L : Nat} (h : TreeShape v L) : ClosedBelow v (2 * L - 1) := by
  intro n hn c
  have hpos := h.one_le
  rcases Nat.lt_or_ge n.toNat L with hL | hL
  · obtain ⟨x, wt, hx⟩ := h.leaf hL
    rw [hx]; simp only [Node.child, BitVec.toNat_ofNat]; omega
  · obtain ⟨l, r, wt, hx, hl, hr, -⟩ := h.internal hL hn
    rw [hx]; cases c <;> simp only [Node.child] <;> omega

/-- The code assigner's walk stays on the closed slots (42_code_assigner.md R150). -/
theorem walk_congr (hc : ClosedBelow v N) (ha : AgreeBelow v w N) (fuel : Nat) {n : NodeIndex} (hn : n.toNat < N)
    (p : BitString) : walk v fuel n p = walk w fuel n p := by
  induction fuel generalizing n p with
  | zero => rfl
  | succ fuel ih =>
    rw [walk, walk, ← ha n hn]
    cases hx : nodeAt v n with
    | leaf x wt => rfl
    | internal l r wt =>
      have hl : l.toNat < N := by simpa [hx, Node.child] using hc n hn false
      have hr : r.toNat < N := by simpa [hx, Node.child] using hc n hn true
      simp only [ih hl, ih hr]

theorem treeCodes_congr (hc : ClosedBelow v N) (ha : AgreeBelow v w N) {root : NodeIndex} (hr : root.toNat < N) :
    treeCodes v root = treeCodes w root := by
  unfold treeCodes
  rw [← ha root hr, walk_congr hc ha _ hr]

/-- The decoder's walk stays on the closed slots (44_decoder.md R191). -/
theorem decodeWalk_congr (hc : ClosedBelow v N) (ha : AgreeBelow v w N) {root : NodeIndex} (hr : root.toNat < N)
    (bits : BitString) (j k : Nat) {p : NodeIndex} (hp : p.toNat < N) :
    decodeWalk v root j k p bits = decodeWalk w root j k p bits := by
  induction bits generalizing j k p with
  | nil => rfl
  | cons c bits ih =>
    have hq := hc p hp c
    simp only [decodeWalk, ← ha p hp, ← ha _ hq, ih _ _ hr, ih _ _ hq]

theorem decodeBits_congr (hc : ClosedBelow v N) (ha : AgreeBelow v w N) {root : NodeIndex} (hr : root.toNat < N)
    (bits : BitString) : decodeBits v root bits = decodeBits w root bits := by
  unfold decodeBits
  rw [← ha root hr, decodeWalk_congr hc ha hr bits 0 0 hr]

/-- Packing reads a code only where it is valid (43_bit_packer.md R171, R172). -/
theorem packLoop_congr {c c' : Vector CodeEntry Config.nsym} (valid : ∀ b, (codeAt c b).valid = (codeAt c' b).valid)
    (codes : ∀ b, (codeAt c b).valid = true → codeAt c b = codeAt c' b) (i len : Nat) (bytes : List Byte) :
    packLoop c i len bytes = packLoop c' i len bytes := by
  induction bytes generalizing i len with
  | nil => rfl
  | cons b bs ih =>
    rw [packLoop, packLoop]
    cases hv : (codeAt c b).valid with
    | false => simp [← valid, hv]
    | true => simp only [← codes b hv, ih, hv]

end Sys2Proof.Machine
end

section
/-! PROOFS. Hidden contents: node slots at or past NODE_COUNT, invalid code entries, OUT_MEM bytes at or past OUT_LEN. No step
lets them be seen (10_state.md R40, R42, R45; 20_memory.md R67, R68, R71). -/

namespace Sys2Proof.Machine

/-- `s` with other contents in the three tables whose contents the map gates. -/
def State.withHidden (s : State) (nodes : Vector Node Config.nodeSlots) (codes : Vector CodeEntry Config.nsym)
    (outMem : Memory) : State :=
  { s with nodes := nodes, codes := codes, outMem := outMem }

/-- Two code tables that differ only in the lengths and values of invalid entries (20_memory.md R68). -/
structure SameCodes (c c' : Vector CodeEntry Config.nsym) : Prop where
  valid : ∀ sym, (codeAt c sym).valid = (codeAt c' sym).valid
  codes : ∀ sym, (codeAt c sym).valid = true → codeAt c sym = codeAt c' sym

theorem SameCodes.refl (c : Vector CodeEntry Config.nsym) : SameCodes c c := ⟨fun _ => rfl, fun _ _ => rfl⟩

/-- Invalid tables show nothing. -/
theorem sameCodes_invalidateCodes (c c' : Vector CodeEntry Config.nsym) :
    SameCodes (invalidateCodes c) (invalidateCodes c') :=
  ⟨fun _ => by simp, fun _ h => by simp at h⟩

section
variable {s s' t : State} {N : Vector Node Config.nodeSlots} {C : Vector CodeEntry Config.nsym} {M : Memory}

/-- States that differ only out of sight differ only in the three tables. -/
theorem SameVisible.exists_withHidden (h : SameVisible s s') : ∃ N C M, s' = s.withHidden N C M :=
  ⟨_, _, _, h.rest.symm⟩

theorem SameVisible.sameCodes (h : SameVisible s s') : SameCodes s.codes s'.codes := ⟨h.valid, h.codes⟩

/-- Other contents that agree in sight make a state the host cannot tell apart. -/
theorem sameVisible_withHidden (nodes : ∀ n < t.nodeCount.toNat, slot t.nodes n = slot N n) (codes : SameCodes t.codes C)
    (out : ∀ i < t.outLen.toNat, t.outMem.read i = M.read i) : SameVisible t (t.withHidden N C M) where
  rest := rfl
  nodes := nodes
  valid := codes.valid
  codes := codes.codes
  out := out

theorem SameVisible.refl (s : State) : SameVisible s s :=
  sameVisible_withHidden (fun _ _ => rfl) (SameCodes.refl _) (fun _ _ => rfl)

/-- What is out of sight stays so where neither the tables nor their gates change. -/
theorem SameVisible.of_sameTables (h : SameVisible s (s.withHidden N C M)) (same : SameTables s t) :
    SameVisible t (t.withHidden N C M) := by
  apply sameVisible_withHidden
  · rw [same.nodes, same.nodeCount]; exact h.nodes
  · rw [same.codes]; exact h.sameCodes
  · rw [same.outMem, same.outLen]; exact h.out

/-! ### Host accesses -/

theorem SameVisible.outByte_eq (h : SameVisible s (s.withHidden N C M)) :
    (s.withHidden N C M).outByte = s.outByte := by
  funext i
  exact ite_congr rfl (fun hi => (h.out i hi).symm) (fun _ => rfl)

/-- The address map shows no hidden contents (20_memory.md R67, R68, R71). -/
theorem SameVisible.peek_eq (h : SameVisible s (s.withHidden N C M)) (l : Loc) :
    (s.withHidden N C M).peek l = s.peek l := by
  cases l with
  | reg r => cases r <;> rfl
  | node n k =>
    have hnode (hn : n.toNat < s.nodeCount.toNat) : nodeAt N n = nodeAt s.nodes n := by
      have hslot : slot s.nodes n.toNat = slot N n.toNat := h.nodes n.toNat hn
      rw [← slot_toNat N, ← hslot, slot_toNat]
    exact ite_congr rfl (fun hn => congrArg (Node.word · k) (hnode hn)) (fun _ => rfl)
  | code sym k =>
    exact ite_congr (congrArg (· = true) (h.valid sym).symm)
      (fun hv => congrArg (CodeEntry.word · k) (h.codes sym hv).symm) (fun _ => rfl)
  | outWord m => exact congrArg (wordAt · m.toNat) h.outByte_eq
  | freq _ | inWord _ | reserved => rfl

theorem poke_withHidden (s : State) (d : Word) (l : Loc) : (s.withHidden N C M).poke d l = (s.poke d l).withHidden N C M := by
  cases l with
  | reg r => cases r <;> rfl
  | _ => rfl

/-- A host access has the same effect and the same reply whatever the hidden contents (20_memory.md R60 to R71). -/
theorem SameVisible.access_withHidden (h : SameVisible s (s.withHidden N C M)) (a : Access) :
    (s.withHidden N C M).access a = (s.access a).withHidden N C M := by
  have hbusy : (s.withHidden N C M).busy = s.busy := rfl
  cases a with
  | read addr =>
    simp only [State.access, State.hostRead, hbusy, h.peek_eq]
    split <;> rfl
  | write addr d =>
    simp only [State.access, State.hostWrite, hbusy, poke_withHidden]
    split <;> rfl

theorem SameVisible.access (h : SameVisible s s') (a : Access) : SameVisible (s.access a) (s'.access a) := by
  obtain ⟨N, C, M, rfl⟩ := h.exists_withHidden
  rw [h.access_withHidden]
  exact h.of_sameTables (access_result s a).sameTables

/-! ### Commands -/

theorem execClear_sameVisible (h : SameVisible s s') (he : execClear s = .next t) :
    ∃ t', execClear s' = .next t' ∧ SameVisible t t' := by
  obtain ⟨N, C, M, rfl⟩ := h.exists_withHidden
  cases he
  exact ⟨_, rfl, sameVisible_withHidden (N := N) (M := M) (fun n hn => absurd hn (Nat.not_lt_zero n))
    (sameCodes_invalidateCodes s.codes C) (fun i hi => absurd hi (Nat.not_lt_zero i))⟩

theorem execCount_sameVisible (h : SameVisible s s') (he : execCount s = .next t) :
    ∃ t', execCount s' = .next t' ∧ SameVisible t t' := by
  obtain ⟨N, C, M, rfl⟩ := h.exists_withHidden
  refine ⟨t.withHidden N C M, ?_, ?_⟩ <;>
    rcases execCount_cases s with ⟨hl, ht⟩ | ⟨hl, ht⟩ <;> cases ht.symm.trans he
  · exact if_neg (show ¬ s.lengthOk = true by simp [hl])
  · exact if_pos hl
  · exact h.of_sameTables (by constructor <;> rfl)
  · exact h.of_sameTables (by constructor <;> rfl)

/-- Slots that an arena is stored in do not depend on what was there. -/
theorem slot_storeNodes_congr (v w : Vector Node Config.nodeSlots) {arena : List Node} {n : Nat} (hn : n < arena.length) :
    slot (storeNodes v arena) n = slot (storeNodes w arena) n := by
  have hlt : (BitVec.ofNat 9 n).toNat < arena.length := Nat.lt_of_le_of_lt (by simpa using Nat.mod_le n 512) hn
  simp only [slot, nodeAt_storeNodes, List.getElem?_eq_getElem hlt, Option.getD_some]

theorem execBuild_sameVisible (h : SameVisible s s') (he : execBuild s = .next t) :
    ∃ t', execBuild s' = .next t' ∧ SameVisible t t' := by
  obtain ⟨N, C, M, rfl⟩ := h.exists_withHidden
  rcases execBuild_cases s with ⟨hl, ht⟩ | ⟨hl, ht⟩ <;> cases ht.symm.trans he
  · exact ⟨_, if_pos hl, sameVisible_withHidden (N := N) (M := M) (fun n hn => absurd hn (Nat.not_lt_zero n))
      (sameCodes_invalidateCodes s.codes C) h.out⟩
  · refine ⟨_, if_neg hl, sameVisible_withHidden (N := storeNodes N (treeOf s.freq)) (M := M) (fun n hn => ?_)
      (sameCodes_invalidateCodes s.codes C) h.out⟩
    have hlt : n < (treeOf s.freq).length := Nat.lt_of_lt_of_le hn (by simpa using Nat.mod_le _ _)
    exact slot_storeNodes_congr s.nodes N hlt

/-- States the host cannot tell apart have the same tree (10_state.md R41). -/
theorem SameVisible.tree_agrees (h : SameVisible s s') (ht : s.TreeInv) :
    ∃ K, ClosedBelow s.nodes K ∧ AgreeBelow s.nodes s'.nodes K ∧ s.root.toNat < K := by
  have hpos := ht.shape.one_le
  refine ⟨_, ht.shape.closedBelow, fun n hn => ?_, by rw [ht.root]; omega⟩
  rw [← slot_toNat, ← slot_toNat]
  exact h.nodes n.toNat (by rw [ht.count]; exact hn)

theorem execAssign_sameVisible (hi : s.Inv) (h : SameVisible s s') (he : execAssign s = .next t) :
    ∃ t', execAssign s' = .next t' ∧ SameVisible t t' := by
  obtain ⟨N, C, M, rfl⟩ := h.exists_withHidden
  rcases execAssign_cases s with ⟨hv, ht⟩ | ⟨hv, ht⟩ <;> cases ht.symm.trans he
  · exact ⟨_, if_neg (show ¬ s.treeValid = true by simp [hv]),
      h.of_sameTables (by constructor <;> rfl)⟩
  · obtain ⟨K, closed, agree, root⟩ := h.tree_agrees (hi.tree hv)
    have hcodes : treeCodes s.nodes s.root = treeCodes N s.root := treeCodes_congr closed agree root
    refine ⟨_, if_pos hv, sameVisible_withHidden (N := N) (C := codeTable (treeCodes N s.root)) (M := M) h.nodes ?_ h.out⟩
    rw [← hcodes]
    exact SameCodes.refl _

/-- Bytes written from index 0 on do not depend on what was there. -/
theorem read_writeBytes_zero_congr (m m' : Memory) {bytes : List Byte} {i : Nat} (hi : i < bytes.length) :
    (m.writeBytes 0 bytes).read i = (m'.writeBytes 0 bytes).read i := by
  rw [Memory.read_writeBytes, Memory.read_writeBytes, dif_pos ⟨Nat.zero_le i, by omega⟩, dif_pos ⟨Nat.zero_le i, by omega⟩]

/-- An output of OUT_LEN = 0 shows no byte, whatever OUT_MEM holds (20_memory.md R71). -/
theorem SameVisible.lost_output (h : SameVisible s (s.withHidden N C M)) (out out' : Memory) (e : ErrCode) (info : Word) :
    SameVisible ({ s with outMem := out, outLen := 0#17, totalBits := 0#32 }.complete e info)
      ({ s.withHidden N C M with outMem := out', outLen := 0#17, totalBits := 0#32 }.complete e info) :=
  sameVisible_withHidden (N := N) (C := C) (M := out') h.nodes h.sameCodes (fun i hi => absurd hi (Nat.not_lt_zero i))

/-- An output written from index 0 on covers every byte OUT_LEN shows (20_memory.md R71). -/
theorem SameVisible.new_output (h : SameVisible s (s.withHidden N C M)) (bytes : List Byte) (totalBits : Word)
    (pad : BitVec 8) :
    SameVisible
      ({ s with
        outMem := s.outMem.writeBytes 0 bytes, outLen := BitVec.ofNat 17 bytes.length
        totalBits := totalBits, pad := pad }.complete .ok 0#32)
      ({ s.withHidden N C M with
        outMem := M.writeBytes 0 bytes, outLen := BitVec.ofNat 17 bytes.length
        totalBits := totalBits, pad := pad }.complete .ok 0#32) :=
  sameVisible_withHidden (N := N) (C := C) (M := M.writeBytes 0 bytes) h.nodes h.sameCodes
    (fun _ hi => read_writeBytes_zero_congr s.outMem M (Nat.lt_of_lt_of_le hi (by simpa using Nat.mod_le _ _)))

theorem execPack_of_length (hl : s.lengthOk = false) :
    execPack s = .next ({ s with outLen := 0#17, totalBits := 0#32 }.raise s.lengthError) := by
  simp [execPack, hl]

theorem execPack_of_error {r : Raise} (hl : s.lengthOk = true) (hp : packLoop s.codes 0 0 s.inputBytes = .error r) :
    execPack s = .next ({ s with outLen := 0#17, totalBits := 0#32 }.raise r) := by
  simp [execPack, hl, hp]

theorem execPack_of_ok {bits : BitString} (hl : s.lengthOk = true)
    (hp : packLoop s.codes 0 0 s.inputBytes = .ok bits) :
    execPack s = .next { s with
      outMem := s.outMem.writeBytes 0 (packedBytes bits), outLen := BitVec.ofNat 17 (packedBytes bits).length
      totalBits := BitVec.ofNat 32 bits.length, pad := BitVec.ofNat 8 (paddingOf bits.length) }.succeed := by
  simp [execPack, hl, hp]

theorem execPack_sameVisible (h : SameVisible s s') (he : execPack s = .next t) :
    ∃ t', execPack s' = .next t' ∧ SameVisible t t' := by
  obtain ⟨N, C, M, rfl⟩ := h.exists_withHidden
  have hloop : packLoop C 0 0 s.inputBytes = packLoop s.codes 0 0 s.inputBytes :=
    (packLoop_congr h.valid h.codes 0 0 s.inputBytes).symm
  rcases execPack_cases s with ⟨hl, ht⟩ | ⟨r, hl, hp, ht⟩ | ⟨bits, hl, hp, ht⟩ <;> cases ht.symm.trans he
  · exact ⟨_, execPack_of_length hl, h.lost_output _ _ _ _⟩
  · exact ⟨_, execPack_of_error hl (hloop.trans hp), h.lost_output _ _ _ _⟩
  · exact ⟨_, execPack_of_ok hl (hloop.trans hp), h.new_output _ _ _⟩

theorem execUnpack_of_check {r : Raise} (hc : s.unpackCheck = some r) :
    execUnpack s = .next ({ s with outLen := 0#17, totalBits := 0#32 }.raise r) := by
  simp [execUnpack, hc]

theorem execUnpack_of_failure {d : Decoded} {r : Raise} (hc : s.unpackCheck = none)
    (hd : decodeBits s.nodes s.root s.retainedBits = d) (hf : d.failure = some r) :
    execUnpack s = .next ({ s with
      outLen := 0#17, totalBits := 0#32, outMem := s.outMem.writeBytes 0 d.symbols }.raise r) := by
  simp [execUnpack, hc, hd, hf]

theorem execUnpack_of_success {d : Decoded} (hc : s.unpackCheck = none)
    (hd : decodeBits s.nodes s.root s.retainedBits = d) (hf : d.failure = none) :
    execUnpack s = .next { s with
      outMem := s.outMem.writeBytes 0 d.symbols, outLen := BitVec.ofNat 17 d.symbols.length
      totalBits := BitVec.ofNat 32 s.retainedCount }.succeed := by
  simp [execUnpack, hc, hd, hf]

theorem execUnpack_sameVisible (hi : s.Inv) (h : SameVisible s s') (he : execUnpack s = .next t) :
    ∃ t', execUnpack s' = .next t' ∧ SameVisible t t' := by
  obtain ⟨N, C, M, rfl⟩ := h.exists_withHidden
  have hdec (hc : s.unpackCheck = none) :
      decodeBits N s.root s.retainedBits = decodeBits s.nodes s.root s.retainedBits := by
    obtain ⟨K, closed, agree, root⟩ := h.tree_agrees (hi.tree (lengthOk_and_treeValid_of_unpackCheck hc).2)
    exact (decodeBits_congr closed agree root s.retainedBits).symm
  rcases execUnpack_cases s with ⟨r, hc, ht⟩ | ⟨d, r, hc, hd, hf, ht⟩ | ⟨d, hc, hd, hf, ht⟩ <;> cases ht.symm.trans he
  · exact ⟨_, execUnpack_of_check hc, h.lost_output _ _ _ _⟩
  · exact ⟨_, execUnpack_of_failure hc ((hdec hc).trans hd) hf, h.lost_output _ _ _ _⟩
  · exact ⟨_, execUnpack_of_success hc ((hdec hc).trans hd) hf, h.new_output _ _ _⟩

/-! ### Steps -/

theorem exec_sameVisible (hi : s.Inv) (h : SameVisible s s') {i : Instr} (he : exec i s = .next t) :
    ∃ t', exec i s' = .next t' ∧ SameVisible t t' := by
  cases i with
  | clear => exact execClear_sameVisible h he
  | count => exact execCount_sameVisible h he
  | build => exact execBuild_sameVisible h he
  | assign => exact execAssign_sameVisible hi h he
  | pack => exact execPack_sameVisible h he
  | unpack => exact execUnpack_sameVisible hi h he

theorem completionStep_sameVisible (hi : s.Inv) (h : SameVisible s s') {d : Word} (hc : completionStep d s = .next t) :
    ∃ t', completionStep d s' = .next t' ∧ SameVisible t t' := by
  unfold completionStep at hc ⊢
  cases hd : decode d with
  | ok i =>
    rw [hd] at hc
    exact exec_sameVisible hi h hc
  | error _ =>
    rw [hd] at hc
    obtain ⟨N, C, M, rfl⟩ := h.exists_withHidden
    cases hc
    exact ⟨_, rfl, h.of_sameTables (by constructor <;> rfl)⟩

/-- The schedule does not look at the hidden contents (00_scope.md R11). -/
theorem SameVisible.turn_eq (h : SameVisible s s') : s'.turn = s.turn := by
  obtain ⟨N, C, M, rfl⟩ := h.exists_withHidden
  rfl

theorem SameVisible.withInputs (h : SameVisible s s') (rest : List Input) :
    SameVisible { s with inputs := rest } { s' with inputs := rest } := by
  obtain ⟨N, C, M, rfl⟩ := h.exists_withHidden
  exact h.of_sameTables (by constructor <;> rfl)

/-- An input is delivered alike; reset gives every content anew (70_reset_and_hazards.md R241). -/
theorem SameVisible.deliver (h : SameVisible s s') (e : Event) : SameVisible (s.deliver e) (s'.deliver e) := by
  cases e with
  | host a => exact h.access a
  | reset draw =>
    obtain ⟨N, C, M, rfl⟩ := h.exists_withHidden
    exact SameVisible.refl _

end

/-- Settles O58: each turn leads from states the host cannot tell apart to such states; the tree invariant keeps ASSIGN and
UNPACK to the slots below NODE_COUNT. -/
theorem hiddenContentsAreNeverObserved : Obligations.HiddenContentsAreNeverObserved := by
  intro s s' t hi hsame h
  unfold step at h ⊢
  rw [hsame.turn_eq]
  cases hturn : s.turn with
  | engine d =>
    rw [hturn] at h
    exact completionStep_sameVisible hi hsame h
  | input e rest =>
    rw [hturn] at h
    cases h
    exact ⟨_, rfl, (hsame.withInputs rest).deliver e⟩
  | ended =>
    rw [hturn] at h
    cases h
    exact ⟨_, rfl, hsame⟩

end Sys2Proof.Machine
end

section
/-! PROOFS. A host access by the location its address names: answered, accepted or refused (20_memory.md R61, R62, R70), with the
reserved addresses (R64) and the registers (R65). -/

namespace Sys2Proof.Machine

/-! ### Accesses by location -/

section
variable {s : State} {addr : BitVec 16} {l : Loc} {d : Word}

/-- A read is answered while idle, and while busy where it is not refused (20_memory.md R61, R70). -/
theorem access_read_of_locate (hl : locate addr = l) (allowed : s.eng = .idle ∨ l.readRefused = false) :
    s.access (.read addr) = s.reply (s.peek l) := by
  rw [← State.not_busy_iff] at allowed
  rw [State.access, hl]
  rcases hostRead_cases s l with ⟨busy, refused, -⟩ | ⟨-, answered⟩
  · simp [busy, refused] at allowed
  · exact answered

/-- A write takes effect while idle, and while busy where it is not refused (20_memory.md R62, R70). -/
theorem access_write_of_locate (hl : locate addr = l) (allowed : s.eng = .idle ∨ l.writeRefused = false) :
    s.access (.write addr d) = s.poke d l := by
  rw [← State.not_busy_iff] at allowed
  rw [State.access, hl]
  rcases hostWrite_cases s l d with ⟨busy, refused, -⟩ | ⟨-, accepted⟩
  · simp [busy, refused] at allowed
  · exact accepted

theorem access_read_refused (hb : s.busy = true) (hr : (locate addr).readRefused = true) :
    s.access (.read addr) = s.refuseAccess.reply 0#32 := by
  simp [State.access, State.hostRead, hb, hr, State.reply]

theorem access_write_refused (hb : s.busy = true) (hr : (locate addr).writeRefused = true) :
    s.access (.write addr d) = s.refuseAccess := by
  simp [State.access, State.hostWrite, hb, hr]

/-- Where a read is refused, so is a write (20_memory.md R70). -/
theorem Loc.writeRefused_of_readRefused (h : l.readRefused = true) : l.writeRefused = true := by
  cases l with
  | reg r =>
    cases r with
    | cmd => rfl
    | _ => exact h
  | _ => exact h

/-- The registers IN_LEN to ERR_INFO and the five windows are closed while busy (20_memory.md R63, R70). -/
theorem readRefused_of_range {a : Nat} (h4 : a % 4 = 0)
    (h : (0x010 ≤ a ∧ a < 0x030) ∨ (0x400 ≤ a ∧ a < 0x800) ∨ (0x2000 ≤ a ∧ a < 0x8000) ∨ (0x10000 ≤ a ∧ a < 0x30000)) :
    (locate (wordAddr a)).readRefused = true := by
  have hw : (wordAddr a).toNat = a / 4 := wordAddr_toNat (by omega)
  unfold locate
  simp only [hw, show 4 * (a / 4) = a by omega]
  rcases h with registers | freq | nodeOrCode | inOrOut
  · rw [if_pos registers.2]
    have hlow : 4 ≤ a / 4 := by omega
    have hhigh : a / 4 < 12 := by omega
    generalize a / 4 = k at hlow hhigh
    interval_cases k <;> rfl
  · iterate 2 rw [if_neg (by omega)]
    rw [if_pos freq.2]; rfl
  · iterate 4 rw [if_neg (by omega)]
    split
    · rfl
    · rw [if_pos nodeOrCode.2]; rfl
  · iterate 7 rw [if_neg (by omega)]
    split
    · rfl
    · rw [if_pos inOrOut.2]; rfl

end

/-! ### Reserved addresses and registers -/

/-- Settles O15: a reserved location is refused in no engine state, reads 0 and keeps the state. -/
theorem reservedAddressesAreInert : Obligations.ReservedAddressesAreInert := fun _ _ _ h4 h =>
  ⟨access_read_of_locate (locate_reserved h4 h) (.inr rfl), access_write_of_locate (locate_reserved h4 h) (.inr rfl)⟩

/-- CTRL shows IE in bit 0 and 0 elsewhere (10_state.md R23). -/
theorem State.ctrlWord_eq (s : State) : s.ctrlWord = if s.ie then 1#32 else 0#32 := by
  unfold State.ctrlWord; cases s.ie <;> rfl

theorem access_read_ctrl (s : State) : s.access (.read (wordAddr 0x004)) = s.reply (if s.ie then 1#32 else 0#32) := by
  rw [← s.ctrlWord_eq]
  exact access_read_of_locate (l := .reg .ctrl) (by decide) (.inr rfl)

/-- Settles O14: each offset names its register, and `readReg` and `writeReg` say what the register does. -/
theorem registerReadsAndWrites : Obligations.RegisterReadsAndWrites := by
  obtain ⟨id, ctrl, cmd, status, inLen, outLen, pad, root, nodeCount, symCount, totalBits, errInfo⟩ := locate_registers
  refine ⟨fun s d idle => ?_, fun s d _ => access_write_of_locate id (.inr rfl)⟩
  have read {addr : BitVec 16} {r : Reg} (hl : locate addr = .reg r) : s.access (.read addr) = s.reply (s.readReg r) :=
    access_read_of_locate hl (.inl idle)
  have write {addr : BitVec 16} {r : Reg} (hl : locate addr = .reg r) : s.access (.write addr d) = s.writeReg d r :=
    access_write_of_locate hl (.inl idle)
  have padStored : s.access (.write (wordAddr 0x018) d) = { s with pad := d.extractLsb' 0 8 } := by
    rw [write pad, State.writeReg, BitVec.setWidth_eq_extractLsb' (by decide)]
  exact ⟨read id, access_read_ctrl s, read cmd, read status, read inLen, read outLen, read pad, read root, read nodeCount,
    read symCount, read totalBits, read errInfo, write id, write ctrl, write cmd, write status, write inLen, write outLen,
    padStored, write root, write nodeCount, write symCount, write totalBits, write errInfo⟩

/-- Settles O21: each access is one the busy block answers, takes or refuses, by the location its address names. -/
theorem accessWhileBusy : Obligations.AccessWhileBusy := by
  intro s d busy
  obtain ⟨id, ctrl, cmd, -⟩ := locate_registers
  refine ⟨access_read_of_locate id (.inr rfl), access_read_ctrl s, access_read_of_locate cmd (.inr rfl),
    access_read_status s, access_write_of_locate ctrl (.inr rfl), access_write_status s d,
    access_write_refused busy (by rw [cmd]; rfl), fun a h4 h => ?_, fun a h4 h => reservedAddressesAreInert s a d h4 h⟩
  have closed := readRefused_of_range h4 h
  exact ⟨access_read_refused busy closed, access_write_refused busy (Loc.writeRefused_of_readRefused closed)⟩

end Sys2Proof.Machine
end

section
/-! PROOFS. The five windows: FREQ, NODE, CODE, IN and OUT (20_memory.md R66 to R69, R71). -/

namespace Sys2Proof.Machine

/-! ### FREQ -/

/-- Settles O16: the address names the entry, and a write to the table sets it alone. -/
theorem freqWindow : Obligations.FreqWindow := by
  intro s sym d idle
  refine ⟨access_read_of_locate (locate_freq sym) (.inl idle), _, access_write_of_locate (locate_freq sym) (.inl idle),
    ?_, fun sym' hne => ?_, rfl⟩
  · exact (setFreq_get s.freq sym sym d).trans (if_pos rfl)
  · exact (setFreq_get s.freq sym sym' d).trans (if_neg hne.symm)

/-! ### NODE -/

/-- A slot below NODE_COUNT shows its words (20_memory.md R67). -/
theorem State.peek_node_of_lt {s : State} {n : NodeIndex} (h : n.toNat < s.nodeCount.toNat) (k : BitVec 2) :
    s.peek (.node n k) = (nodeAt s.nodes n).word k := if_pos h

/-- A slot at or past NODE_COUNT shows 0 (20_memory.md R67). -/
theorem State.peek_node_of_ge {s : State} {n : NodeIndex} (h : s.nodeCount.toNat ≤ n.toNat) (k : BitVec 2) :
    s.peek (.node n k) = 0#32 := if_neg (Nat.not_lt.2 h)

/-- Settles O17: the four words are those of the slot's node, gated by NODE_COUNT. -/
theorem nodeWindow : Obligations.NodeWindow := by
  intro s n idle
  have read {k : Nat} (hk : k < 4) : s.access (.read (wordAddr (0x2000 + 16 * n.toNat + 4 * k))) =
      s.reply (s.peek (.node n (BitVec.ofNat 2 k))) := access_read_of_locate (locate_node n hk) (.inl idle)
  refine ⟨_, _, _, _, read (k := 0) (by decide), read (k := 1) (by decide), read (k := 2) (by decide),
    read (k := 3) (by decide), fun sym w valid node => ?_, fun left right w valid node => ?_, fun invalid => ?_,
    fun k hk d => access_write_of_locate (locate_node n hk) (.inl idle)⟩
  · simp only [State.peek_node_of_lt valid, node]
    exact Node.word_leaf sym w
  · simp only [State.peek_node_of_lt valid, node]
    exact Node.word_internal left right w
  · simp only [State.peek_node_of_ge invalid, and_self]

/-! ### CODE -/

/-- Words 1 to 8 of a code table entry are the value, least significant word first (20_memory.md R68, R72). -/
theorem CodeEntry.word_value (e : CodeEntry) {k : Nat} (h1 : 1 ≤ k) (h8 : k ≤ 8) :
    (e.word (BitVec.ofNat 4 k)).toNat = e.value.toNat / 2 ^ (32 * (k - 1)) % 2 ^ 32 := by
  have hk : (BitVec.ofNat 4 k).toNat = k := by simp; omega
  rw [CodeEntry.word, hk, if_neg (by omega), if_pos h8, BitVec.extractLsb'_toNat, Nat.shiftRight_eq_div_pow]

/-- Words 9 to 15 of a code table entry are 0 (20_memory.md R68). -/
theorem CodeEntry.word_high (e : CodeEntry) {k : Nat} (h9 : 9 ≤ k) (h16 : k < 16) : e.word (BitVec.ofNat 4 k) = 0#32 := by
  have hk : (BitVec.ofNat 4 k).toNat = k := by simp; omega
  rw [CodeEntry.word, hk, if_neg (by omega), if_neg (by omega)]

/-- Settles O18: the sixteen words are those of the table entry, gated by its valid bit. -/
theorem codeWindow : Obligations.CodeWindow := by
  intro s sym k idle hk
  refine ⟨⟨_, access_read_of_locate (locate_code sym hk) (.inl idle), fun valid => ?_, fun invalid => ?_⟩,
    fun d => access_write_of_locate (locate_code sym hk) (.inl idle)⟩
  · have shown : s.peek (.code sym (BitVec.ofNat 4 k)) = (codeAt s.codes sym).word (BitVec.ofNat 4 k) := if_pos valid
    rw [shown]
    refine ⟨fun h0 => ?_, CodeEntry.word_value _, fun h9 => CodeEntry.word_high _ h9 hk⟩
    rw [h0]
    exact CodeEntry.word_zero _
  · exact if_neg (by simp [invalid])

/-! ### IN and OUT -/

/-- Lane j of a word of a buffer is byte 4m + j (20_memory.md R69, R71, R72). -/
theorem wordAt_lane (byteAt : Nat → Byte) (m : Nat) {j : Nat} (hj : j < 4) :
    (wordAt byteAt m).toNat / 2 ^ (8 * j) % 2 ^ 8 = (byteAt (4 * m + j)).toNat := by
  have h0 := (byteAt (4 * m)).isLt
  have h1 := (byteAt (4 * m + 1)).isLt
  have h2 := (byteAt (4 * m + 2)).isLt
  have h3 := (byteAt (4 * m + 3)).isLt
  rw [wordAt, wordOfBytes_toNat]
  interval_cases j
  · simp only [Nat.add_zero]; omega
  all_goals omega

theorem byteOfWord_toNat (d : Word) (j : Nat) : (byteOfWord d j).toNat = d.toNat / 2 ^ (8 * j) % 2 ^ 8 := by
  rw [byteOfWord, BitVec.extractLsb'_toNat, Nat.shiftRight_eq_div_pow]

/-- A word write sets byte 4m + j to lane j (20_memory.md R69). -/
theorem Memory.read_writeWord (mem : Memory) (m : Nat) (d : Word) {j : Nat} (hj : j < 4) :
    (mem.writeWord m d).read (4 * m + j) = byteOfWord d j := by
  rw [Memory.writeWord, Memory.read_writeBytes,
    dif_pos ⟨Nat.le_add_right _ _, Nat.add_lt_add_left (by simpa using hj) _⟩]
  simp only [Nat.add_sub_cancel_left]
  match j, hj with
  | 0, _ | 1, _ | 2, _ | 3, _ => rfl

/-- A word write keeps every byte but its four (20_memory.md R69). -/
theorem Memory.read_writeWord_of_outside (mem : Memory) {m i : Nat} (d : Word) (h : i < 4 * m ∨ 4 * m + 4 ≤ i) :
    (mem.writeWord m d).read i = mem.read i :=
  Memory.read_writeBytes_of_outside h

/-- The word index of a window of 16384 words. -/
theorem toNat_wordIndex {m : Nat} (hm : m < 16384) : (BitVec.ofNat 14 m).toNat = m := by simp; omega

/-- Settles O19: a read puts the four bytes together, a write takes the word apart. -/
theorem inWindow : Obligations.InWindow := by
  intro s m d idle hm
  refine ⟨⟨_, access_read_of_locate (locate_inWord hm) (.inl idle), fun j hj => ?_⟩,
    _, access_write_of_locate (locate_inWord hm) (.inl idle), rfl, fun j hj => ?_, fun i hi => ?_⟩ <;>
    simp only [State.peek, State.poke, toNat_wordIndex hm]
  · exact wordAt_lane _ m hj
  · rw [Memory.read_writeWord _ m d hj, byteOfWord_toNat]
  · exact Memory.read_writeWord_of_outside _ d hi

/-- Settles O20: a read puts the four bytes the host may see together. -/
theorem outWindow : Obligations.OutWindow := by
  intro s m idle hm
  refine ⟨⟨_, access_read_of_locate (locate_outWord hm) (.inl idle), fun j hj => ?_⟩,
    fun d => access_write_of_locate (locate_outWord hm) (.inl idle)⟩
  simp only [State.peek, toNat_wordIndex hm]
  rw [wordAt_lane _ m hj, State.outByte]
  split <;> rfl

end Sys2Proof.Machine
end

section
/-! PROOFS. A host access while busy leaves what the running command reads and writes alone (20_memory.md R70, 00_scope.md R12). -/

namespace Sys2Proof.Machine

section
variable {s t : State} {ie done hostErr : Bool} {replies : List Word}

/-- `s` with other values in the fields an access can change while busy; no command reads them. -/
def State.withHostFields (s : State) (ie done hostErr : Bool) (replies : List Word) : State :=
  { s with ie := ie, done := done, hostErr := hostErr, replies := replies }

/-- While busy an access changes IE, DONE, HOSTERR and the replies at most (20_memory.md R70). -/
theorem AccessResult.eq_withHostFields {a : Access} (h : AccessResult s a t) (hb : s.busy = true) :
    t = s.withHostFields t.ie t.done t.hostErr t.replies := by
  have busy : s.eng ≠ .idle := fun idle => by simp [State.busy, idle] at hb
  cases h with
  | accepted d idle | inLen d idle | pad d idle | freq sym d idle | inMem m d idle => exact absurd idle busy
  | _ => rfl

/-- Completion sets DONE, whatever it was (60_exceptions.md R212). -/
theorem exec_withHostFields {i : Instr} (h : exec i s = .next t) :
    exec i (s.withHostFields ie done hostErr replies) =
      .next { t with ie := ie, hostErr := hostErr, replies := replies } := by
  cases i with
  | clear => cases h; rfl
  | count =>
    rcases execCount_cases s with ⟨hl, he⟩ | ⟨hl, he⟩ <;> cases he.symm.trans h
    · exact if_neg (show ¬ s.lengthOk = true by simp [hl])
    · exact if_pos hl
  | build =>
    rcases execBuild_cases s with ⟨hl, he⟩ | ⟨hl, he⟩ <;> cases he.symm.trans h
    · exact if_pos hl
    · exact if_neg hl
  | assign =>
    rcases execAssign_cases s with ⟨hv, he⟩ | ⟨hv, he⟩ <;> cases he.symm.trans h
    · exact if_neg (show ¬ s.treeValid = true by simp [hv])
    · exact if_pos hv
  | pack =>
    rcases execPack_cases s with ⟨hl, he⟩ | ⟨r, hl, hp, he⟩ | ⟨bits, hl, hp, he⟩ <;> cases he.symm.trans h
    · exact execPack_of_length hl
    · exact execPack_of_error hl hp
    · exact execPack_of_ok hl hp
  | unpack =>
    rcases execUnpack_cases s with ⟨r, hc, he⟩ | ⟨d, r, hc, hd, hf, he⟩ | ⟨d, hc, hd, hf, he⟩ <;> cases he.symm.trans h
    · exact execUnpack_of_check hc
    · exact execUnpack_of_failure hc hd hf
    · exact execUnpack_of_success hc hd hf

theorem completionStep_withHostFields {d : Word} (h : completionStep d s = .next t) :
    completionStep d (s.withHostFields ie done hostErr replies) =
      .next { t with ie := ie, hostErr := hostErr, replies := replies } := by
  unfold completionStep at h ⊢
  cases hd : decode d with
  | ok i =>
    rw [hd] at h
    exact exec_withHostFields h
  | error _ =>
    rw [hd] at h
    cases h
    rfl

end

/-- Settles O22: a busy access touches only fields that no command reads. -/
theorem busyAccessLeavesTheCommandAlone : Obligations.BusyAccessLeavesTheCommandAlone := by
  intro s a busy
  have only := (access_result s a).eq_withHostFields busy
  refine ⟨by rw [only]; rfl, fun d t h => ?_⟩
  conv_lhs => rw [only]
  exact completionStep_withHostFields h

end Sys2Proof.Machine
end

section
/-! PROOFS. Bit j of a stream held in bytes, and bit t of byte j of the bytes that hold a stream (20_memory.md R81). -/

namespace Sys2Proof.Machine

/-- Bit j of the stream is bit 7 - j mod 8 of byte j div 8. -/
theorem streamBits_getElem? {bytes : List Byte} {j : Nat} (h : j / 8 < bytes.length) :
    (streamBits bytes)[j]? = some (bytes[j / 8].getLsbD (7 - j % 8)) := by
  induction bytes generalizing j with
  | nil => simp at h
  | cons b bytes ih =>
    rw [streamBits_cons]
    rcases Nat.lt_or_ge j 8 with hj | hj
    · have hlt : j < (bitsOfByte b).length := by simpa using hj
      rw [List.getElem?_append_left hlt, List.getElem?_eq_getElem hlt, bitsOfByte_getElem]
      simp only [Nat.div_eq_of_lt hj, Nat.mod_eq_of_lt hj, List.getElem_cons_zero]
    · have hdiv : j / 8 = (j - 8) / 8 + 1 := by omega
      have hlt : (j - 8) / 8 < bytes.length := by rw [List.length_cons] at h; omega
      rw [List.getElem?_append_right (by simpa using hj), bitsOfByte_length, ih hlt]
      simp only [hdiv, List.getElem_cons_succ, show (j - 8) % 8 = j % 8 by omega]

/-- Bit 7 - t of byte j of the packed bytes is bit 8j + t of the stream, or 0 past its end. -/
theorem packBytes_getLsbD (bits : BitString) {k j t : Nat} (hj : j < k) (ht : t < 8) :
    (packBytes k bits)[j]?.map (·.getLsbD (7 - t)) = some (bits.getD (8 * j + t) false) := by
  induction k generalizing bits j with
  | zero => omega
  | succ k ih =>
    rw [packBytes]
    cases j with
    | zero =>
      rw [List.getElem?_cons_zero, Option.map_some, byteOfBits_getLsbD _ _ ht]
      simp [List.getD_eq_getElem?_getD, ht]
    | succ j =>
      rw [List.getElem?_cons_succ, ih _ (by omega)]
      simp [List.getD_eq_getElem?_getD, show 8 * (j + 1) + t = 8 + (8 * j + t) by omega]

/-- Settles O41: by induction on the bytes, and on the number of bytes the stream is held in. -/
theorem streamBitOrder : Obligations.StreamBitOrder :=
  ⟨fun bytes _ => ⟨streamBits_length bytes, streamBits_getElem?⟩, fun bits _ _ _ => packBytes_getLsbD bits⟩

end Sys2Proof.Machine
end

section
/-! PROOFS. The command words (30_encoding.md R91), an illegal one (R92), and the frame of every command (R95). -/

namespace Sys2Proof.Machine

/-! ### Command words -/

/-- A command's word decodes to the command (30_encoding.md R91). -/
@[simp] theorem decode_encode (i : Instr) : decode (encode i) = .ok i := by cases i <;> rfl

/-- Settles O9: the decoder and the encoder are inverse to each other. -/
theorem wordDecodesIffItIsTheCommandsWord : Obligations.WordDecodesIffItIsTheCommandsWord := by
  refine ⟨fun d i => ⟨eq_encode_of_decode, ?_⟩, rfl, rfl, rfl, rfl, rfl, rfl⟩
  rintro rfl
  exact decode_encode i

/-- Settles O8: eleven fixed words, each decoded. -/
theorem commandWordsDecode : Obligations.CommandWordsDecode := by
  unfold Obligations.CommandWordsDecode; decide

/-- A command's word has RSV = 0 and OP 1 to 6 (30_encoding.md R91). -/
theorem fields_encode (i : Instr) :
    rsvField (encode i) = 0#28 ∧ opField (encode i) ≠ 0#4 ∧ (opField (encode i)).toNat < 7 := by
  cases i <;> decide

/-- A word with a reserved bit or an unassigned OP is no command's (30_encoding.md R92). -/
theorem exists_reject_of_illegal {d : Word} (illegal : rsvField d ≠ 0#28 ∨ opField d = 0#4 ∨ 7 ≤ (opField d).toNat) :
    ∃ r, decode d = .error r := by
  cases hd : decode d with
  | error r => exact ⟨r, rfl⟩
  | ok i =>
    obtain ⟨hrsv, hop, hlt⟩ := fields_encode i
    rw [eq_encode_of_decode hd] at illegal
    rcases illegal with h | h | h
    · exact absurd hrsv h
    · exact absurd h hop
    · omega

/-- The engine has its turn when a command is in flight and no input is pending or the next one waits for it (R251). -/
theorem State.turn_eq_engine {s : State} {d : Word} (he : s.eng = .busy d)
    (hi : s.inputs = [] ∨ ∃ e rest, s.inputs = ⟨true, e⟩ :: rest) : s.turn = .engine d := by
  rcases hi with hi | ⟨e, rest, hi⟩ <;> simp [State.turn, he, hi]

theorem step_eq_completionStep {s : State} {d : Word} (he : s.eng = .busy d)
    (hi : s.inputs = [] ∨ ∃ e rest, s.inputs = ⟨true, e⟩ :: rest) : step s = completionStep d s := by
  simp only [step, State.turn_eq_engine he hi]

/-- Settles O10: acceptance does not look at the word, and a word that is no command's completes as illegal. -/
theorem illegalWordOnlyReportsItself : Obligations.IllegalWordOnlyReportsItself := by
  intro s d illegal
  refine ⟨fun idle => access_write_of_locate (l := .reg .cmd) (by decide) (.inl idle), fun busy inputs => ?_⟩
  obtain ⟨r, hr⟩ := exists_reject_of_illegal illegal
  rw [step_eq_completionStep busy inputs, completionStep, hr]
  rfl

/-! ### The frame of every command -/

/-- An output written from index 0 on keeps every byte at and past OUT_LEN (43_bit_packer.md R171, 44_decoder.md R191). -/
theorem read_output_of_outLen_le {bytes : List Byte} (hfit : bytes.length ≤ Config.bufBytes) (m : Memory) {i : Nat}
    (hi : (BitVec.ofNat 17 bytes.length).toNat ≤ i) : (m.writeBytes 0 bytes).read i = m.read i := by
  rw [toNat_outLen hfit] at hi
  exact Memory.read_writeBytes_of_outside (.inr (by omega))

/-- A decoding that fails reports an error (44_decoder.md R191). -/
theorem decodeBits_failure_ne_ok {nodes : Vector Node Config.nodeSlots} {root : NodeIndex} {bits : BitString} {r : Raise}
    (h : (decodeBits nodes root bits).failure = some r) : r.code ≠ .ok := by
  obtain ⟨-, -, -, hc | hc⟩ := (decodeBits_spec bits).2 r h <;> simp [hc]

/-- Settles O27: each command's cases say what it writes, and an output that succeeds ends at OUT_LEN. -/
theorem commandsChangeOnlyWhatTheyList : Obligations.CommandsChangeOnlyWhatTheyList := by
  refine ⟨fun s t clear => ?_, fun s t count => ?_, fun s t build => ?_, fun s t assign => ?_, fun s t pack => ?_,
    fun s t unpack => ?_⟩
  · cases clear
    exact ⟨rfl, codeAt_invalidateCodes s.codes⟩
  · rcases execCount_cases s with ⟨-, he⟩ | ⟨-, he⟩ <;> cases he.symm.trans count <;> rfl
  · rcases execBuild_cases s with ⟨-, he⟩ | ⟨-, he⟩ <;> cases he.symm.trans build <;>
      exact ⟨rfl, codeAt_invalidateCodes s.codes⟩
  · rcases execAssign_cases s with ⟨-, he⟩ | ⟨-, he⟩ <;> cases he.symm.trans assign <;> rfl
  · rcases execPack_cases s with ⟨-, he⟩ | ⟨r, -, -, he⟩ | ⟨bits, -, hp, he⟩ <;> cases he.symm.trans pack
    · exact ⟨rfl, fun _ => ⟨rfl, fun _ => rfl⟩, fun _ _ _ => rfl⟩
    · exact ⟨rfl, fun _ => ⟨rfl, fun _ => rfl⟩, fun _ _ _ => rfl⟩
    · obtain ⟨-, -, hfit⟩ := packLoop_ok hp (Nat.zero_le _)
      have hbytes := packedBytes_fit (bits := bits) (by omega)
      exact ⟨rfl, fun failed => absurd rfl failed, fun _ hi _ => read_output_of_outLen_le hbytes _ hi⟩
  · have hbytes := (decodeBits_spec (nodes := s.nodes) (root := s.root) s.retainedBits).1
    rcases execUnpack_cases s with ⟨r, -, he⟩ | ⟨_, r, -, rfl, hf, he⟩ | ⟨_, -, rfl, -, he⟩ <;> cases he.symm.trans unpack
    · exact ⟨rfl, fun _ _ _ => rfl⟩
    · exact ⟨rfl, fun _ _ succeeded => absurd succeeded (decodeBits_failure_ne_ok hf)⟩
    · exact ⟨rfl, fun _ hi _ => read_output_of_outLen_le hbytes _ hi⟩

end Sys2Proof.Machine
end

section
/-! PROOFS. A host script run by the block (30_encoding.md R98, R99): its accesses one after the other, the words LOADIN writes and
those COPYOUT copies. -/

namespace Sys2Proof.Machine

/-! ### Running a script -/

/-- `s` with other inputs pending. -/
def State.withInputs (s : State) (pending : List Input) : State := { s with inputs := pending }

/-- A host access neither reads nor writes what is still pending. -/
theorem access_withInputs (s : State) (pending : List Input) (a : Access) :
    (s.withInputs pending).access a = (s.access a).withInputs pending := by
  have busy : (s.withInputs pending).busy = s.busy := rfl
  cases a with
  | read addr =>
    simp only [State.access, State.hostRead, busy]
    split <;> rfl
  | write addr d =>
    simp only [State.access, State.hostWrite, busy]
    split
    · rfl
    · cases locate addr with
      | reg r => cases r <;> rfl
      | _ => rfl

/-- What a statement does to the block: its access, or nothing where the port cannot present it (30_encoding.md R98). -/
def State.perform (s : State) (st : Statement) : State :=
  match st.access with
  | some a => s.access a
  | none => s

/-- Some run of the machine leads from `s` to `t`. -/
def Reaches (s t : State) : Prop := ∃ k, Host.Core.run Sys2Proof.core k s = .next t

theorem Reaches.refl (s : State) : Reaches s s := ⟨0, rfl⟩

theorem Reaches.of_step {s t u : State} (h : step s = .next t) (htu : Reaches t u) : Reaches s u := by
  obtain ⟨k, hk⟩ := htu
  exact ⟨k + 1, (run_next h).trans hk⟩

/-- A script's accesses, each delivered in a step of its own, perform its statements (00_scope.md R11, 30_encoding.md R98). -/
theorem reaches_script {sts : List Statement} {s : State} {rest : List Input}
    (h : s.inputs = inputsOf false sts ++ rest) : Reaches s (sts.foldl State.perform (s.withInputs rest)) := by
  induction sts generalizing s with
  | nil =>
    cases (h : s.inputs = rest)
    exact .refl s
  | cons st sts ih =>
    rw [List.foldl_cons, State.perform]
    cases ha : st.access with
    | none => exact ih (by simpa only [inputsOf, List.filterMap_cons, ha, Option.map_none] using h)
    | some a =>
      have hcons : s.inputs = ⟨false, .host a⟩ :: (inputsOf false sts ++ rest) := by
        simpa only [inputsOf, List.filterMap_cons, ha, Option.map_some, List.cons_append] using h
      have hstep : step s = .next ((s.access a).withInputs (inputsOf false sts ++ rest)) :=
        (step_eq_deliver hcons (.inr rfl)).trans (congrArg _ (access_withInputs s _ a))
      simp only [access_withInputs]
      exact .of_step hstep (ih rfl)

/-! ### The statements of LOADIN and COPYOUT -/

/-- The port presents every aligned address below 0x40000 (20_memory.md R60). -/
theorem wellFormedAddress_of_aligned {a : Nat} (hlt : a < 0x40000) (h4 : a % 4 = 0) : wellFormedAddress a = true := by
  simp [wellFormedAddress, addressInRange, addressAligned, hlt, h4]

section
variable {s : State}

theorem perform_wr {a : Nat} {l : Loc} (hwf : wellFormedAddress a = true) (hl : locate (wordAddr a) = l)
    (idle : s.eng = .idle) (d : Word) : s.perform (.wr a d) = s.poke d l := by
  have presented : (Statement.wr a d).access = some (.write (wordAddr a) d) := if_pos hwf
  simp only [State.perform, presented, access_write_of_locate hl (.inl idle)]

theorem perform_rdTo {a : Nat} {l : Loc} (hwf : wellFormedAddress a = true) (hl : locate (wordAddr a) = l)
    (idle : s.eng = .idle) (name : String) : s.perform (.rdTo a name) = s.reply (s.peek l) := by
  have presented : (Statement.rdTo a name).access = some (.read (wordAddr a)) := if_pos hwf
  simp only [State.perform, presented, access_read_of_locate hl (.inl idle)]

theorem perform_write_inWord (idle : s.eng = .idle) {m : Nat} (hm : m < 16384) (d : Word) :
    s.perform (.wr (0x10000 + 4 * m) d) = { s with inMem := s.inMem.writeWord m d } := by
  rw [perform_wr (wellFormedAddress_of_aligned (by omega) (by omega)) (locate_inWord hm) idle, State.poke,
    toNat_wordIndex hm]

theorem perform_read_outWord (idle : s.eng = .idle) {m : Nat} (hm : m < 16384) (name : String) :
    s.perform (.rdTo (0x20000 + 4 * m) name) = s.reply (wordAt s.outByte m) := by
  rw [perform_rdTo (wellFormedAddress_of_aligned (by omega) (by omega)) (locate_outWord hm) idle, State.peek,
    toNat_wordIndex hm]

theorem perform_write_inLen (idle : s.eng = .idle) (d : Word) : s.perform (.wr 0x010 d) = { s with inLen := d } :=
  perform_wr (l := .reg .inLen) rfl (by decide) idle d

theorem perform_read_outLen (idle : s.eng = .idle) (name : String) :
    s.perform (.rdTo 0x014 name) = s.reply (s.outLen.setWidth 32) :=
  perform_rdTo (l := .reg .outLen) rfl (by decide) idle name

/-- One word copied: the host reads OUT word m and writes d to IN word m (30_encoding.md R99). -/
theorem perform_copy_word (idle : s.eng = .idle) {m : Nat} (hm : m < 16384) (name : String) (d : Word) :
    [Statement.rdTo (0x20000 + 4 * m) name, .wr (0x10000 + 4 * m) d].foldl State.perform s =
      { s with inMem := s.inMem.writeWord m d, replies := s.replies ++ [wordAt s.outByte m] } := by
  rw [List.foldl_cons, perform_read_outWord idle hm]
  exact perform_write_inWord (s := s.reply _) idle hm d

/-! ### Consecutive words -/

/-- Words 0 to n - 1 of a buffer written with the words w gives. -/
def Memory.writeWords (mem : Memory) (w : Nat → Word) : Nat → Memory
  | 0 => mem
  | n + 1 => (mem.writeWords w n).writeWord n (w n)

/-- A byte of the words written is its lane of its word; the others are kept (20_memory.md R69). -/
theorem Memory.read_writeWords (mem : Memory) (w : Nat → Word) (n i : Nat) :
    (mem.writeWords w n).read i = if i < 4 * n then byteOfWord (w (i / 4)) (i % 4) else mem.read i := by
  induction n with
  | zero => rfl
  | succ n ih =>
    rw [Memory.writeWords]
    by_cases hlast : 4 * n ≤ i ∧ i < 4 * n + 4
    · obtain ⟨j, hj, rfl⟩ : ∃ j, j < 4 ∧ i = 4 * n + j := ⟨i - 4 * n, by omega, by omega⟩
      rw [Memory.read_writeWord _ _ _ hj, if_pos (by omega), show (4 * n + j) / 4 = n by omega,
        show (4 * n + j) % 4 = j by omega]
    · rw [Memory.read_writeWord_of_outside _ _ (by omega), ih]
      simp only [show i < 4 * n ↔ i < 4 * (n + 1) by omega]

/-- Lane j of the word that bytes make is byte j of the four (20_memory.md R69). -/
theorem byteOfWord_wordAt (byteAt : Nat → Byte) (m : Nat) {j : Nat} (hj : j < 4) :
    byteOfWord (wordAt byteAt m) j = byteAt (4 * m + j) := by
  apply BitVec.eq_of_toNat_eq
  rw [byteOfWord_toNat, wordAt_lane _ _ hj]

/-- Words made of bytes put those bytes into the buffer. -/
theorem Memory.read_writeWords_wordAt {w : Nat → Word} {byteAt : Nat → Byte} {n i : Nat} (mem : Memory)
    (hw : ∀ m < n, w m = wordAt byteAt m) (hi : i < 4 * n) : (mem.writeWords w n).read i = byteAt i := by
  rw [Memory.read_writeWords, if_pos hi, hw _ (by omega), byteOfWord_wordAt _ _ (by omega), Nat.div_add_mod]

/-- The writes of consecutive IN words (30_encoding.md R99). -/
theorem perform_writes (idle : s.eng = .idle) (w : Nat → Word) {n : Nat} (hn : n ≤ 16384) :
    ((List.range n).map (fun m => Statement.wr (0x10000 + 4 * m) (w m))).foldl State.perform s =
      { s with inMem := s.inMem.writeWords w n } := by
  induction n with
  | zero => rfl
  | succ n ih =>
    rw [List.range_succ, List.map_append, List.foldl_append, ih (by omega)]
    exact perform_write_inWord (s := { s with inMem := s.inMem.writeWords w n }) idle (by omega) (w n)

/-- The copies of consecutive OUT words: the host reads each, and writes the word it learned (30_encoding.md R99). -/
theorem perform_copies (idle : s.eng = .idle) (w : Nat → Word) {n : Nat} (hn : n ≤ 16384) :
    ((List.range n).flatMap (fun m => [Statement.rdTo (0x20000 + 4 * m) "w", .wr (0x10000 + 4 * m) (w m)])).foldl
        State.perform s =
      { s with
        inMem := s.inMem.writeWords w n, replies := s.replies ++ (List.range n).map (wordAt s.outByte) } := by
  induction n with
  | zero => simp [Memory.writeWords]
  | succ n ih =>
    rw [List.range_succ, List.flatMap_append, List.foldl_append, ih (by omega), List.map_append, ← List.append_assoc,
      List.flatMap_singleton]
    exact perform_copy_word (s := { s with
      inMem := s.inMem.writeWords w n, replies := s.replies ++ (List.range n).map (wordAt s.outByte) })
      idle (by omega) "w" (w n)

end

/-! ### The two pseudo-statements -/

/-- The words that hold n bytes have room for them (30_encoding.md R99). -/
theorem le_wordsFor (n : Nat) : n ≤ 4 * wordsFor n := by unfold wordsFor; omega

/-- The bytes of a full buffer fill the window's 16384 words. -/
theorem wordsFor_le {n : Nat} (h : n ≤ 65536) : wordsFor n ≤ 16384 := by unfold wordsFor; omega

/-- What LOADIN does to an idle block (30_encoding.md R99). -/
theorem perform_loadIn {s : State} (idle : s.eng = .idle) (l : Learned) {bytes : List Byte}
    (hlen : bytes.length ≤ 65536) :
    ((Pseudo.loadIn bytes).expand l).foldl State.perform s = { s with
      inMem := s.inMem.writeWords (loadWord bytes) (wordsFor bytes.length)
      inLen := BitVec.ofNat 32 bytes.length } := by
  rw [Pseudo.expand, List.foldl_append, perform_writes idle _ (wordsFor_le hlen)]
  exact perform_write_inLen (s := { s with inMem := s.inMem.writeWords _ _ }) idle _

/-- What COPYOUT does to an idle block, the host having learned what the block answers (30_encoding.md R99). -/
theorem perform_copyOut {s : State} {l : Learned} (hl : l = s.learned) (idle : s.eng = .idle)
    (hlen : s.outLen.toNat ≤ 65536) :
    (Pseudo.copyOut.expand l).foldl State.perform s = { s with
      inMem := s.inMem.writeWords (fun m => l.outWords.getD m 0#32) (wordsFor s.outLen.toNat)
      inLen := s.outLen.setWidth 32
      replies := s.replies ++ s.outLen.setWidth 32 :: l.outWords } := by
  subst hl
  have hcount : s.learned.outLen.toNat = s.outLen.toNat := by
    change (s.outLen.setWidth 32).toNat = _
    rw [BitVec.toNat_setWidth]; omega
  rw [Pseudo.expand, hcount, List.cons_append, List.foldl_cons, perform_read_outLen idle, List.foldl_append,
    perform_copies (s := s.reply _) idle _ (wordsFor_le hlen), List.append_cons s.replies]
  exact perform_write_inLen (s := { s with inMem := s.inMem.writeWords _ _, replies := s.replies ++ [_] ++ _ }) idle _

/-- What the host learns is word m of OUT_MEM as the host sees it (30_encoding.md R99). -/
theorem learned_outWord (s : State) {m : Nat} (hm : m < wordsFor s.outLen.toNat) :
    s.learned.outWords.getD m 0#32 = wordAt s.outByte m := by
  simp [State.learned, List.getD_eq_getElem?_getD, hm]

/-- The words LOADIN writes hold the bytes and then zeros (30_encoding.md R99). -/
theorem read_loadWords (mem : Memory) (bytes : List Byte) {i : Nat} (hi : i < 4 * wordsFor bytes.length) :
    (mem.writeWords (loadWord bytes) (wordsFor bytes.length)).read i = bytes.getD i 0#8 :=
  Memory.read_writeWords_wordAt (byteAt := fun i => bytes.getD i 0#8) mem (fun _ _ => rfl) hi

/-- The words COPYOUT writes hold the output bytes (30_encoding.md R99). -/
theorem read_copyWords (s : State) (mem : Memory) {i : Nat} (hi : i < s.outLen.toNat) :
    (mem.writeWords (fun m => s.learned.outWords.getD m 0#32) (wordsFor s.outLen.toNat)).read i = s.outMem.read i := by
  have copied : i < 4 * wordsFor s.outLen.toNat := Nat.lt_of_lt_of_le hi (le_wordsFor _)
  rw [Memory.read_writeWords_wordAt mem (fun _ => learned_outWord s) copied, State.outByte, if_pos hi]

/-- Settles O59: the block performs the writes of the words, which hold the bytes and then zeros, and that of IN_LEN. -/
theorem loadInLoadsTheBytes : Obligations.LoadInLoadsTheBytes := by
  intro s l bytes rest idle hlen hinputs
  have reached := reaches_script hinputs
  rw [perform_loadIn (s := s.withInputs rest) idle l hlen] at reached
  obtain ⟨k, hk⟩ := reached
  refine ⟨k, _, hk, rfl, fun i hi => ?_, fun i hge hlt => ?_, fun i hge => ?_⟩
  · exact (read_loadWords _ bytes (Nat.lt_of_lt_of_le hi (le_wordsFor _))).trans (List.getD_eq_getElem _ _ hi)
  · exact (read_loadWords _ bytes hlt).trans (List.getD_eq_default _ _ hge)
  · exact (Memory.read_writeWords _ _ _ _).trans (if_neg (Nat.not_lt.2 hge))

/-- Settles O60: the block answers the reads with what the host learned, and performs the writes of those words. -/
theorem copyOutCopiesTheOutput : Obligations.CopyOutCopiesTheOutput := by
  intro s rest idle hlen hinputs
  have reached := reaches_script hinputs
  rw [perform_copyOut (s := s.withInputs rest) (l := s.learned) rfl idle hlen] at reached
  obtain ⟨k, hk⟩ := reached
  refine ⟨k, _, hk, rfl, fun i hi => ?_, rfl⟩
  have hlt : i < s.outLen.toNat := by simpa [State.outputBytes] using hi
  exact (read_copyWords s _ hlt).trans (by simp [State.outputBytes])

end Sys2Proof.Machine
end

section
/-! PROOFS. The session commands: CLEAR of a clear block (40_session_count.md R111), COUNT as a count of bytes (R112). -/

namespace Sys2Proof.Machine

/-! ### COUNT -/

/-- A byte occurs among the input bytes at as many indices below IN_LEN as IN_MEM holds it (10_state.md R44). -/
theorem count_inputBytes (s : State) (sym : Byte) :
    s.inputBytes.count sym = (List.range s.inLen.toNat).countP (fun i => s.inMem.read i = sym) := by
  rw [State.inputBytes, List.count_eq_countP, List.countP_map]
  rfl

/-- There are as many input bytes as IN_LEN says, so each occurs fewer than 2 ^ 32 times and no FREQ entry wraps. -/
theorem count_inputBytes_lt (s : State) (sym : Byte) : s.inputBytes.count sym < 2 ^ 32 :=
  calc s.inputBytes.count sym
    _ ≤ s.inputBytes.length := List.count_le_length
    _ = s.inLen.toNat := by simp [State.inputBytes]
    _ < 2 ^ 32 := s.inLen.isLt

/-- The entry COUNT makes for a symbol, as a number (40_session_count.md R112). -/
theorem countBytes_inputBytes_toNat (s : State) (sym : Byte) :
    ((countBytes s.inputBytes)[sym.toNat]'sym.isLt).toNat =
      (List.range s.inLen.toNat).countP (fun i => s.inMem.read i = sym) := by
  rw [countBytes_get, BitVec.toNat_ofNat, Nat.mod_eq_of_lt (count_inputBytes_lt s sym), count_inputBytes]

/-- Settles O30: IN_LEN decides which of COUNT's two cases it is, and no count wraps. -/
theorem countGivesTheFrequencies : Obligations.CountGivesTheFrequencies := by
  intro s
  rcases execCount_cases s with ⟨illegal, he⟩ | ⟨legal, he⟩
  · have long : 65536 < s.inLen.toNat := by simpa [State.lengthOk] using illegal
    exact ⟨fun short => absurd short (Nat.not_le.2 long), fun _ => he⟩
  · have short : s.inLen.toNat ≤ 65536 := by simpa [State.lengthOk] using legal
    exact ⟨fun _ => ⟨_, he, countBytes_inputBytes_toNat s, rfl⟩, fun long => absurd short (Nat.not_le.2 long)⟩

/-! ### CLEAR -/

/-- A frequency table with every entry 0 is the cleared one. -/
theorem zeroFreq_eq_of_freqAt {s : State} (h : ∀ sym, s.freqAt sym = 0#32) : zeroFreq = s.freq :=
  freq_ext fun sym => (zeroFreq_get sym).trans (h sym).symm

/-- Settles O29: CLEAR writes what it empties and keeps the rest, and what is already empty is what it writes. -/
theorem clearStartsASession : Obligations.ClearStartsASession := by
  intro s
  refine ⟨_, rfl, zeroFreq_get, invalidateCodes_invalid s.codes, rfl, rfl, rfl, rfl, rfl, rfl, rfl, rfl, rfl, rfl, rfl, rfl,
    rfl, rfl, rfl, rfl, rfl, rfl, rfl, ?_⟩
  intro freq codes nodeCount root symCount treeValid outLen totalBits pad
  rw [zeroFreq_eq_of_freqAt freq, invalidateCodes_of_invalid codes]
  simp only [State.succeed_eq, State.complete, nodeCount, root, symCount, treeValid, outLen, totalBits, pad]

end Sys2Proof.Machine
end

section
/-! PROOFS. BUILD: the two states it can leave, and the stored tree of a table with a symbol present (41_tree_builder.md). -/

namespace Sys2Proof.Machine

/-! ### The two states BUILD leaves -/

/-- What BUILD leaves of a table with a symbol present (41_tree_builder.md R131, R137). -/
def State.withTree (s : State) : State :=
  { s with
    codes := invalidateCodes s.codes
    nodes := storeNodes s.nodes (treeOf s.freq)
    root := BitVec.ofNat 9 ((treeOf s.freq).length - 1)
    nodeCount := BitVec.ofNat 10 (treeOf s.freq).length
    symCount := BitVec.ofNat 9 (leaves s.freq).length
    treeValid := true }.succeed

/-- What BUILD leaves of the empty table (41_tree_builder.md R136). -/
def State.withoutTree (s : State) : State :=
  { s with
    codes := invalidateCodes s.codes
    nodeCount := 0#10
    root := 0#9
    symCount := 0#9
    treeValid := false }.raise ⟨.emptyInput, 0#32⟩

theorem exec_build_of_present {s : State} (present : presentSymbols s.freq ≠ []) : exec .build s = .next s.withTree :=
  if_neg (mt leaves_eq_nil.1 present)

theorem exec_build_of_empty {s : State} (empty : presentSymbols s.freq = []) : exec .build s = .next s.withoutTree :=
  if_pos (leaves_eq_nil.2 empty)

/-- A BUILD that succeeds found a symbol present and has stored its tree (41_tree_builder.md R131). -/
theorem eq_withTree_of_build_ok {s t : State} (h : exec .build s = .next t) (ok : t.errCode = .ok) :
    presentSymbols s.freq ≠ [] ∧ t = s.withTree := by
  by_cases empty : presentSymbols s.freq = []
  · cases (exec_build_of_empty empty).symm.trans h
    cases ok
  · cases (exec_build_of_present empty).symm.trans h
    exact ⟨empty, rfl⟩

/-! ### The stored tree -/

section
variable {s : State} (present : presentSymbols s.freq ≠ [])
include present

theorem State.withTree_root : s.withTree.root.toNat = 2 * (presentSymbols s.freq).length - 2 :=
  (build_registers present).1

theorem State.withTree_nodeCount : s.withTree.nodeCount.toNat = 2 * (presentSymbols s.freq).length - 1 :=
  (build_registers present).2.1

theorem State.withTree_symCount : s.withTree.symCount.toNat = (presentSymbols s.freq).length :=
  (build_registers present).2.2

theorem State.withTree_treeInv : s.withTree.TreeInv := treeInv_of_built present rfl rfl rfl rfl

/-- The slots past NODE_COUNT keep their contents (41_tree_builder.md R131). -/
theorem State.withTree_nodeAt_of_le {n : NodeIndex} (hn : s.withTree.nodeCount.toNat ≤ n.toNat) :
    nodeAt s.withTree.nodes n = nodeAt s.nodes n :=
  nodeAt_storeNodes_of_le (by rw [(treeOf_spec present).1, ← State.withTree_nodeCount present]; exact hn)

/-- The leaf of each symbol present stands in the slot of its rank (41_tree_builder.md R132). -/
theorem State.withTree_slot_leaf {i : Nat} (hi : i < (presentSymbols s.freq).length) :
    slot s.withTree.nodes i = leafOf s.freq (presentSymbols s.freq)[i] := by
  have hlen := (treeOf_spec present).1
  have hle := presentSymbols_length_le s.freq
  have hstored : (treeOf s.freq)[i]? = some (slot s.withTree.nodes i) := slot_storeNodes_eq (by omega) (by omega)
  exact Option.some.inj (hstored.symm.trans (treeOf_get_leaf hi))

end

/-- Settles O32: BUILD's registers and its arena meet the tree invariant, by the induction over the merges of `treeOf_spec`. -/
theorem buildMakesATree : Obligations.BuildMakesATree := fun _ present =>
  ⟨_, exec_build_of_present present, rfl, rfl, rfl, State.withTree_root present, State.withTree_nodeCount present,
    State.withTree_symCount present, State.withTree_treeInv present, fun _ => State.withTree_nodeAt_of_le present⟩

/-! ### The greedy merge, read from the stored tree -/

section
variable {nodes : Vector Node Config.nodeSlots} {arena : List Node} {n : Nat}

/-- A candidate is a slot below that no slot below has as a child (41_tree_builder.md R131). -/
theorem isCandidate_storeNodes (hn : n ≤ arena.length) (h5 : n ≤ 512) (m : Nat) :
    IsCandidate (storeNodes nodes arena) n m ↔ m < n ∧ m ∉ childList (arena.take n) := by
  rw [IsCandidate, childSlots_storeNodes hn h5]

/-- The order of extraction on the arena is that on the stored slots (41_tree_builder.md R134). -/
theorem keyBefore_storeNodes {a b : Nat} (ha : a < arena.length) (hb : b < arena.length) (h5 : arena.length ≤ 512) :
    keyBefore (storeNodes nodes arena) a b ↔ keyLt arena a b := by
  rw [keyBefore, keyLt, nodeWeight_stored (nodes := nodes) ha (by omega), nodeWeight_stored (nodes := nodes) hb (by omega)]

/-- A slot merged in the arena is, stored, the merge of its two least candidates (41_tree_builder.md R131, R133, R134). -/
theorem MergedAt.stored (h : MergedAt arena n) (hn : n < arena.length) (h5 : arena.length ≤ 512) :
    ∃ left right w, slot (storeNodes nodes arena) n = .internal left right w ∧
      w.toNat = (nodeAt (storeNodes nodes arena) left).weight.toNat +
        (nodeAt (storeNodes nodes arena) right).weight.toNat ∧
      IsCandidate (storeNodes nodes arena) n left.toNat ∧ IsCandidate (storeNodes nodes arena) n right.toNat ∧
      left ≠ right ∧
      (∀ m, IsCandidate (storeNodes nodes arena) n m → m ≠ left.toNat →
        keyBefore (storeNodes nodes arena) left.toNat m) ∧
      (∀ m, IsCandidate (storeNodes nodes arena) n m → m ≠ left.toNat → m ≠ right.toNat →
        keyBefore (storeNodes nodes arena) right.toNat m) := by
  obtain ⟨left, right, w, hnode, hw, hleft, hright, hne, cleft, cright, least, least'⟩ := h
  have cand := isCandidate_storeNodes (nodes := nodes) hn.le (hn.le.trans h5)
  have key {a b : Nat} (ha : a < n) (hb : b < n) : keyBefore (storeNodes nodes arena) a b ↔ keyLt arena a b :=
    keyBefore_storeNodes (ha.trans hn) (hb.trans hn) h5
  refine ⟨left, right, w, ?_, ?_, (cand _).2 ⟨hleft, cleft⟩, (cand _).2 ⟨hright, cright⟩, hne, ?_, ?_⟩
  · exact Option.some.inj ((slot_storeNodes_eq hn (by omega)).symm.trans hnode)
  · rw [← slot_toNat, ← slot_toNat, ← nodeWeight_stored (by omega) (by omega),
      ← nodeWeight_stored (by omega) (by omega)]
    exact hw
  · intro m hm hml
    obtain ⟨hmn, hmc⟩ := (cand m).1 hm
    exact (key hleft hmn).2 (least m hmn hmc hml)
  · intro m hm hml hmr
    obtain ⟨hmn, hmc⟩ := (cand m).1 hm
    exact (key hright hmn).2 (least' m hmn hmc hml hmr)

end

/-- Settles O34: every merge takes the two least of the queue, which holds the candidates; the arena is stored as it is. -/
theorem buildMergesTheTwoLeast : Obligations.BuildMergesTheTwoLeast := by
  intro s t h ok n hL hN
  obtain ⟨present, rfl⟩ := eq_withTree_of_build_ok h ok
  rw [State.withTree_symCount present] at hL
  rw [State.withTree_nodeCount present] at hN
  obtain ⟨hlen, c, hinv⟩ := treeOf_spec present
  have hle := presentSymbols_length_le s.freq
  have hn : n < (treeOf s.freq).length := by omega
  exact (hinv.merged n hn hL).stored hn (by omega)

/-- Settles O33: the leaves stand where the arena has them, and every later slot was made by a merge. -/
theorem buildLeavesAreThePresentSymbols : Obligations.BuildLeavesAreThePresentSymbols := by
  intro s t h ok
  obtain ⟨present, rfl⟩ := eq_withTree_of_build_ok h ok
  refine ⟨fun i hi => State.withTree_slot_leaf present hi, fun n hL hN => ?_⟩
  obtain ⟨left, right, w, hslot, -⟩ :=
    buildMergesTheTwoLeast s _ h ok n (by rwa [State.withTree_symCount present]) hN
  rw [hslot]
  rfl

/-! ### One symbol, and none -/

/-- The code table of a tree that is one leaf (42_code_assigner.md R152). -/
theorem treeCodes_of_leaf {nodes : Vector Node Config.nodeSlots} {root : NodeIndex} {sym : Byte} {w : Weight}
    (h : nodeAt nodes root = .leaf sym w) : treeCodes nodes root = [(sym, [false])] := by
  rw [treeCodes, h]

theorem exec_assign_of_tree {s : State} (tree : s.treeValid = true) :
    exec .assign s = .next { s with codes := codeTable (treeCodes s.nodes s.root) }.succeed := if_pos tree

/-- Settles O35: with L = 1 the root is slot 0, the symbol's leaf, and ASSIGN lists that symbol alone. -/
theorem oneSymbolTree : Obligations.OneSymbolTree := by
  intro s sym one
  have present : presentSymbols s.freq ≠ [] := by simp [one]
  have hroot : s.withTree.root = 0#9 := BitVec.eq_of_toNat_eq (by simp [State.withTree_root present, one])
  have hcount : s.withTree.nodeCount = 1#10 := BitVec.eq_of_toNat_eq (by simp [State.withTree_nodeCount present, one])
  have hsym : s.withTree.symCount = 1#9 := BitVec.eq_of_toNat_eq (by simp [State.withTree_symCount present, one])
  have hleaf : slot s.withTree.nodes 0 = leafOf s.freq sym := by
    rw [State.withTree_slot_leaf present (List.length_pos_iff.2 present)]
    simp only [one, List.getElem_cons_zero]
  have hcodes : treeCodes s.withTree.nodes s.withTree.root = [(sym, [false])] := by
    rw [hroot]; exact treeCodes_of_leaf hleaf
  have hentry : codeAt (codeTable [(sym, [false])]) sym = ⟨true, 1#8, 0#256⟩ :=
    codeAt_codeTable_of_mem (p := [false]) (by simp) (by simp)
  refine ⟨_, _, exec_build_of_present present, rfl, rfl, hroot, hcount, hsym, hleaf, exec_assign_of_tree rfl, rfl, ?_⟩
  simp only [State.succeed_eq, State.complete_codes, hcodes, hentry]
  exact ⟨trivial, by decide, fun x hx => by rw [codeAt_codeTable_of_not_mem (by simpa using hx.symm)]⟩

/-- Settles O31: with no symbol present there are no leaves, and BUILD only invalidates and clears. -/
theorem buildOfAnEmptyTableFails : Obligations.BuildOfAnEmptyTableFails := fun s empty =>
  ⟨_, exec_build_of_empty (presentSymbols_eq_nil.2 empty), rfl, rfl, rfl, rfl, rfl, rfl, rfl, rfl,
    invalidateCodes_invalid s.codes, rfl, rfl⟩

/-! ### What BUILD's result depends on -/

/-- Trees of equal frequency tables agree in every slot below NODE_COUNT (41_tree_builder.md R139). -/
theorem slot_withTree_congr {s s' : State} (freq : s.freq = s'.freq) {n : Nat} (hn : n < s.withTree.nodeCount.toNat) :
    slot s.withTree.nodes n = slot s'.withTree.nodes n := by
  have hlt : n < (treeOf s.freq).length := Nat.lt_of_lt_of_le hn (by simpa [State.withTree] using Nat.mod_le _ _)
  have hstored : s'.withTree.nodes = storeNodes s'.nodes (treeOf s.freq) := by rw [freq]; rfl
  rw [hstored]
  exact slot_storeNodes_congr _ _ hlt

/-- Trees of equal frequency tables give equal codewords (41_tree_builder.md R139). -/
theorem treeCodes_withTree_congr {s s' : State} (freq : s.freq = s'.freq) (present : presentSymbols s.freq ≠ []) :
    treeCodes s.withTree.nodes s.withTree.root = treeCodes s'.withTree.nodes s'.withTree.root := by
  have htree := State.withTree_treeInv present
  have hpos := htree.shape.one_le
  have agree : AgreeBelow s.withTree.nodes s'.withTree.nodes (2 * s.withTree.symCount.toNat - 1) := by
    intro n hn
    rw [← slot_toNat, ← slot_toNat]
    exact slot_withTree_congr freq (by rw [htree.count]; exact hn)
  have hroot : s'.withTree.root = s.withTree.root := by simp [State.withTree, freq]
  rw [hroot]
  exact treeCodes_congr htree.shape.closedBelow agree (by rw [htree.root]; omega)

/-- Settles O36: FREQ decides which state BUILD leaves, the registers and the slots it writes, and so ASSIGN's walk. -/
theorem buildDependsOnFreqAlone : Obligations.BuildDependsOnFreqAlone := by
  intro s s' t t' freq h h'
  by_cases empty : presentSymbols s.freq = []
  · cases (exec_build_of_empty empty).symm.trans h
    cases (exec_build_of_empty (freq ▸ empty)).symm.trans h'
    exact ⟨rfl, rfl, rfl, rfl, rfl, fun n hn => absurd hn (Nat.not_lt_zero n), nofun⟩
  · cases (exec_build_of_present empty).symm.trans h
    cases (exec_build_of_present (freq ▸ empty)).symm.trans h'
    refine ⟨rfl, rfl, ?_, ?_, ?_, fun n => slot_withTree_congr freq, fun _ =>
      ⟨_, _, exec_assign_of_tree rfl, exec_assign_of_tree rfl, congrArg codeTable (treeCodes_withTree_congr freq empty)⟩⟩
    all_goals simp [State.withTree, freq]

/-! ### The code table after BUILD -/

/-- PACK of bytes without a code fails at the first (43_bit_packer.md R172). -/
theorem packLoop_of_invalid {codes : Vector CodeEntry Config.nsym} (invalid : ∀ sym, (codeAt codes sym).valid = false)
    {bytes : List Byte} (hne : bytes ≠ []) (i len : Nat) :
    packLoop codes i len bytes = .error ⟨.unknownSymbol, BitVec.ofNat 32 i⟩ := by
  cases bytes with
  | nil => exact absurd rfl hne
  | cons b bs => simp [packLoop, invalid b]

/-- PACK of a legal non-empty input with no code assigned (43_bit_packer.md R172, 70_reset_and_hazards.md R247). -/
theorem exec_pack_of_invalid {t : State} (invalid : ∀ sym, (codeAt t.codes sym).valid = false)
    (hpos : 1 ≤ t.inLen.toNat) (hle : t.inLen.toNat ≤ 65536) :
    exec .pack t = .next ({ t with outLen := 0#17, totalBits := 0#32 }.raise ⟨.unknownSymbol, 0#32⟩) := by
  have hne : t.inputBytes ≠ [] := by
    simp only [State.inputBytes, ne_eq, List.map_eq_nil_iff, List.range_eq_nil]; omega
  exact execPack_of_error (by simpa [State.lengthOk] using hle) (packLoop_of_invalid invalid hne 0 0)

/-- BUILD invalidates every code and leaves IN_LEN, whether it succeeds or not (41_tree_builder.md R138). -/
theorem exec_build_invalidates (s : State) :
    ∃ t, exec .build s = .next t ∧ t.codes = invalidateCodes s.codes ∧ t.inLen = s.inLen := by
  by_cases empty : presentSymbols s.freq = []
  · exact ⟨_, exec_build_of_empty empty, rfl, rfl⟩
  · exact ⟨_, exec_build_of_present empty, rfl, rfl⟩

/-- Settles O37: both ends of BUILD leave no code valid, and PACK then fails at byte 0. -/
theorem buildInvalidatesTheCodeTable : Obligations.BuildInvalidatesTheCodeTable := by
  intro s
  obtain ⟨t, ht, hcodes, hlen⟩ := exec_build_invalidates s
  have invalid : ∀ sym, (codeAt t.codes sym).valid = false := hcodes ▸ invalidateCodes_invalid s.codes
  refine ⟨t, ht, invalid, fun hpos hle => ?_⟩
  rw [← hlen] at hpos hle
  exact ⟨_, exec_pack_of_invalid invalid hpos hle, rfl, rfl, rfl, rfl⟩

end Sys2Proof.Machine
end

section
/-! PROOFS. What changes the tree (41_tree_builder.md R141), and the frame of a host access (10_state.md R38). -/

namespace Sys2Proof.Machine

/-- Two states have the same arena and the same tree registers (10_state.md R41). -/
structure SameTree (s t : State) : Prop where
  nodes : t.nodes = s.nodes
  nodeCount : t.nodeCount = s.nodeCount
  root : t.root = s.root
  symCount : t.symCount = s.symCount
  treeValid : t.treeValid = s.treeValid

theorem SameTree.refl (s : State) : SameTree s s := ⟨rfl, rfl, rfl, rfl, rfl⟩

theorem SameTables.sameTree {s t : State} (h : SameTables s t) : SameTree s t :=
  ⟨h.nodes, h.nodeCount, h.root, h.symCount, h.treeValid⟩

/-- A completion that changes the tree is BUILD's or CLEAR's (41_tree_builder.md R141). -/
theorem CompletionResult.sameTree {s t : State} {d : Word} (h : CompletionResult s d t) :
    SameTree s t ∨ d = encode .build ∨ d = encode .clear := by
  cases h with
  | cleared word => exact .inr (.inr word)
  | built word | treeLost word => exact .inr (.inl word)
  | reported | counted | assigned | output => exact .inl ⟨rfl, rfl, rfl, rfl, rfl⟩

/-- A step that changes the tree is BUILD's or CLEAR's completion, or reset (41_tree_builder.md R141). -/
theorem step_sameTree {s t : State} (h : step s = .next t) :
    SameTree s t ∨ s.turn = .engine (encode .build) ∨ s.turn = .engine (encode .clear) ∨
      ∃ draw rest, s.turn = .input (.reset draw) rest := by
  cases step_result h with
  | completed d turn result =>
    rcases result.sameTree with same | rfl | rfl
    · exact .inl same
    · exact .inr (.inl turn)
    · exact .inr (.inr (.inl turn))
  | accessed a rest _ result =>
    obtain ⟨nodes, nodeCount, root, symCount, treeValid⟩ := result.sameTables.sameTree
    exact .inl ⟨nodes, nodeCount, root, symCount, treeValid⟩
  | wasReset draw rest turn => exact .inr (.inr (.inr ⟨draw, rest, turn⟩))
  | ended => exact .inl (.refl s)

/-- What a host access can change: flags, IN_LEN, PAD, FREQ, IN_MEM, the accepted word and the replies (10_state.md R38). -/
theorem AccessResult.frame {s t : State} {a : Access} (h : AccessResult s a t) :
    t = { s with
      ie := t.ie, done := t.done, errCode := t.errCode, hostErr := t.hostErr, inLen := t.inLen, pad := t.pad,
      freq := t.freq, inMem := t.inMem, eng := t.eng, inputs := t.inputs, replies := t.replies } := by
  cases h <;> rfl

/-- Settles O26: the tree by the four things a step can be, and the frame by those a host access can be. -/
theorem onlyCommandsChangeTheTree : Obligations.OnlyCommandsChangeTheTree := by
  intro s t h
  refine ⟨fun changed => ?_, fun a rest turn => ?_⟩
  · rcases step_sameTree h with ⟨nodes, nodeCount, root, symCount, treeValid⟩ | cause
    · simp [nodes, nodeCount, root, symCount, treeValid] at changed
    · exact cause
  · have ht : t = ({ s with inputs := rest } : State).access a := by simpa [step, turn, State.deliver] using h.symm
    rw [ht]
    exact (access_result { s with inputs := rest } a).frame

end Sys2Proof.Machine
end

section
/-! PROOFS. ASSIGN: the outcome with and without a tree, each leaf's entry, that no code begins another, and
the Kraft sum (42_code_assigner.md R150 to R156). -/

namespace Sys2Proof.Machine

/-! ### ASSIGN's outcome -/

theorem exec_assign_of_no_tree {s : State} (noTree : s.treeValid = false) :
    exec .assign s = .next (s.raise ⟨.noTree, 0#32⟩) := if_neg (by simp [noTree])

/-- Settles O38: ASSIGN writes CODE alone, so a second ASSIGN reads the tree the first one read. -/
theorem assignNeedsATree : Obligations.AssignNeedsATree :=
  ⟨fun _ => exec_assign_of_no_tree, fun _ tree =>
    ⟨_, _, exec_assign_of_tree tree, rfl, rfl, rfl, exec_assign_of_tree tree, rfl⟩⟩

variable {nodes : Vector Node Config.nodeSlots} {L : Nat} {root : NodeIndex}

/-! ### The entries of the assigned table -/

/-- A valid entry of the assigned table holds a codeword of its symbol (42_code_assigner.md R153). -/
theorem codeword_of_valid (h : TreeShape nodes L) (hr : root.toNat = 2 * L - 2) {sym : Byte}
    (valid : (codeAt (codeTable (treeCodes nodes root)) sym).valid = true) :
    ∃ p, Codeword nodes root sym p ∧ codeAt (codeTable (treeCodes nodes root)) sym = codeEntryOf p := by
  by_contra other
  have unassigned : ∀ p, ¬ Codeword nodes root sym p := fun p hp => other ⟨p, hp, codeAt_assigned h hr hp⟩
  simp [codeAt_unassigned h hr unassigned] at valid

/-- The valid entries are those of the leaves' symbols (42_code_assigner.md R153). -/
theorem valid_iff_leaf (h : TreeShape nodes L) (hr : root.toNat = 2 * L - 2) (sym : Byte) :
    (codeAt (codeTable (treeCodes nodes root)) sym).valid = true ↔ ∃ i < L, (slot nodes i).symbol? = some sym := by
  rw [← exists_codeword_iff h hr]
  constructor
  · intro valid
    obtain ⟨p, hp, -⟩ := codeword_of_valid h hr valid
    exact ⟨p, hp⟩
  · rintro ⟨p, hp⟩
    rw [codeAt_assigned h hr hp]; rfl

theorem codeEntryOf_value_lt {p : BitString} (h : p.length ≤ 255) :
    (codeEntryOf p).value.toNat < 2 ^ (codeEntryOf p).len.toNat := by
  rw [codeEntryOf_len h]
  exact Nat.lt_of_le_of_lt (by simpa [codeEntryOf] using Nat.mod_le _ _) (num_lt p)

/-- Settles O39: a valid entry is the entry of its symbol's codeword, whose at most 255 bits are read back as stored. -/
theorem assignGivesEachLeafItsPath : Obligations.AssignGivesEachLeafItsPath := by
  intro s tree inv
  refine ⟨_, exec_assign_of_tree tree, rfl, fun sym => ⟨valid_iff_leaf inv.shape inv.root sym, fun valid => ?_⟩⟩
  obtain ⟨p, hp, entry⟩ := codeword_of_valid inv.shape inv.root valid
  obtain ⟨hpos, hle, h255⟩ := codeword_length inv.shape inv.root hp
  simp only [State.succeed_eq, State.complete_codes, entry, codeEntryOf_bits h255]
  have hlen := codeEntryOf_len h255
  exact ⟨hp, hlen, codeEntryOf_value_lt h255, hlen ▸ hpos, hlen ▸ hle⟩

/-! ### No code begins another -/

/-- Codewords one of which begins the other belong to one symbol (42_code_assigner.md R155). -/
theorem Codeword.symbol_eq_of_prefix {a b : Byte} {p q : BitString} (hp : Codeword nodes root a p)
    (hq : Codeword nodes root b q) (h : p <+: q) : a = b := by
  cases hn : nodeAt nodes root with
  | leaf x w =>
    simp only [Codeword, hn] at hp hq
    exact hp.1.trans hq.1.symm
  | internal l r w =>
    rw [codeword_iff hn] at hp hq
    obtain rfl := hp.eq_of_prefix hq h
    exact Option.some.inj (hp.2.symm.trans hq.2)

/-! ### The Kraft sum -/

/-- What an entry adds to the Kraft sum: `2^(-len)`, and nothing if it is invalid (42_code_assigner.md R155). -/
def CodeEntry.kraft (e : CodeEntry) : ℚ := if e.valid then (1 / 2) ^ e.len.toNat else 0

/-- The Kraft sum of a list of codewords (42_code_assigner.md R155). -/
def kraftSum (cs : List (Byte × BitString)) : ℚ := (cs.map fun c => (1 / 2 : ℚ) ^ c.2.length).sum

@[simp] theorem kraftSum_append (cs ds : List (Byte × BitString)) : kraftSum (cs ++ ds) = kraftSum cs + kraftSum ds := by
  simp [kraftSum]

theorem kraftSum_singleton (c : Byte × BitString) : kraftSum [c] = (1 / 2) ^ c.2.length := by simp [kraftSum]

theorem codeEntryOf_kraft {p : BitString} (h : p.length ≤ 255) : (codeEntryOf p).kraft = (1 / 2) ^ p.length := by
  rw [CodeEntry.kraft, codeEntryOf_len h]; rfl

/-- The Kraft sum of a code table is that of the codewords it was made of, if no symbol is listed twice. -/
theorem sum_kraft_codeTable {cs : List (Byte × BitString)} (nodup : (cs.map Prod.fst).Nodup)
    (short : ∀ c ∈ cs, c.2.length ≤ 255) :
    ∑ a : Fin 256, (codeAt (codeTable cs) (BitVec.ofFin a)).kraft = kraftSum cs := by
  have unlisted : ∀ a ∉ ((cs.map Prod.fst).map BitVec.toFin).toFinset,
      (codeAt (codeTable cs) (BitVec.ofFin a)).kraft = 0 := by
    intro a ha
    rw [codeAt_codeTable_of_not_mem]
    · rfl
    · intro c hc he
      exact ha (List.mem_toFinset.2 (List.mem_map.2 ⟨c.1, List.mem_map_of_mem hc, congrArg BitVec.toFin he⟩))
  have listed : ∀ c ∈ cs, (codeAt (codeTable cs) c.1).kraft = (1 / 2) ^ c.2.length := by
    intro c hc
    have once : ∀ d ∈ cs, d.1 = c.1 → d.2 = c.2 := fun d hd he => by
      rw [List.inj_on_of_nodup_map nodup hd hc he]
    rw [codeAt_codeTable_of_mem hc once, codeEntryOf_kraft (short c hc)]
  calc ∑ a : Fin 256, (codeAt (codeTable cs) (BitVec.ofFin a)).kraft
      = ∑ a ∈ ((cs.map Prod.fst).map BitVec.toFin).toFinset, (codeAt (codeTable cs) (BitVec.ofFin a)).kraft :=
        (Finset.sum_subset (Finset.subset_univ _) fun a _ => unlisted a).symm
    _ = (cs.map fun c => (codeAt (codeTable cs) c.1).kraft).sum := by
        rw [List.sum_toFinset _ (nodup.map fun _ _ => BitVec.eq_of_toFin_eq), List.map_map, List.map_map]
        rfl
    _ = kraftSum cs := congrArg List.sum (List.map_congr_left listed)

/-- A child's paths fit in one node less of fuel than its parent's. -/
theorem depthBound_child_lt {n c : NodeIndex} {fuel : Nat} (hL : L ≤ n.toNat) (hc : c.toNat < n.toNat)
    (hf : depthBound L n < fuel + 1) : depthBound L c < fuel := by
  unfold depthBound at *; omega

/-- The walk lists no symbol twice: a leaf below a node lies below one child only (10_state.md R41). -/
theorem walk_symbols_nodup (h : TreeShape nodes L) {fuel : Nat} {n : NodeIndex} (hn : n.toNat < 2 * L - 1)
    (hf : depthBound L n < fuel) (pre : BitString) : ((walk nodes fuel n pre).map Prod.fst).Nodup := by
  induction fuel generalizing n pre with
  | zero => omega
  | succ fuel ih =>
    by_cases hL : n.toNat < L
    · obtain ⟨x, w, hx⟩ := h.leaf hL
      simp [walk, hx]
    · obtain ⟨l, r, w, hi, hl, hr, -, -⟩ := h.internal (by omega) hn
      have fl := depthBound_child_lt (by omega) hl hf
      have fr := depthBound_child_lt (by omega) hr hf
      simp only [walk, hi, List.map_append]
      refine (ih (by omega) fl _).append (ih (by omega) fr _) ?_
      intro a hal har
      obtain ⟨⟨_, q⟩, hq, rfl⟩ := List.mem_map.1 hal
      obtain ⟨⟨_, q'⟩, hq', rfl⟩ := List.mem_map.1 har
      obtain ⟨p, -, hp⟩ := (mem_walk h (by omega) fl _ _ _).1 hq
      obtain ⟨p', -, hp'⟩ := (mem_walk h (by omega) fr _ _ _).1 hq'
      have left := (leadsTo_of_internal hi _ _).2 (.inl ⟨p, rfl, hp⟩)
      have right := (leadsTo_of_internal hi _ _).2 (.inr ⟨p', rfl, hp'⟩)
      exact absurd (h.leadsTo_unique hn left right) (by simp)

/-- Each node shares its `2^(-depth)` between the leaves below it, half to each child (42_code_assigner.md R155). -/
theorem kraftSum_walk (h : TreeShape nodes L) {fuel : Nat} {n : NodeIndex} (hn : n.toNat < 2 * L - 1)
    (hf : depthBound L n < fuel) (pre : BitString) : kraftSum (walk nodes fuel n pre) = (1 / 2) ^ pre.length := by
  induction fuel generalizing n pre with
  | zero => omega
  | succ fuel ih =>
    by_cases hL : n.toNat < L
    · obtain ⟨x, w, hx⟩ := h.leaf hL
      simp only [walk, hx, kraftSum_singleton]
    · obtain ⟨l, r, w, hi, hl, hr, -, -⟩ := h.internal (by omega) hn
      have fl := depthBound_child_lt (by omega) hl hf
      have fr := depthBound_child_lt (by omega) hr hf
      simp only [walk, hi, kraftSum_append, ih (by omega : l.toNat < 2 * L - 1) fl,
        ih (by omega : r.toNat < 2 * L - 1) fr, List.length_append, List.length_singleton]
      ring

/-- The codewords of a tree with two leaves or more are those of the walk from its root (42_code_assigner.md R150). -/
theorem treeCodes_of_two_le (h : TreeShape nodes L) (hr : root.toNat = 2 * L - 2) (two : 2 ≤ L) :
    treeCodes nodes root = walk nodes Config.walkFuel root [] := by
  obtain ⟨l, r, w, hi, -⟩ := h.internal (n := root) (by omega) (by omega)
  rw [treeCodes, hi]

/-- The codewords of a tree with one leaf are its symbol's "0" (42_code_assigner.md R152). -/
theorem exists_treeCodes_of_one (h : TreeShape nodes 1) (hr : root.toNat = 0) :
    ∃ sym, treeCodes nodes root = [(sym, [false])] := by
  obtain ⟨sym, w, hx⟩ := h.leaf (n := root) (by omega)
  exact ⟨sym, treeCodes_of_leaf hx⟩

theorem depthBound_root_lt (h : TreeShape nodes L) (hr : root.toNat = 2 * L - 2) :
    depthBound L root < Config.walkFuel := by
  have := h.one_le
  have := h.le_nsym
  simp only [Config.nsym] at this
  simp only [depthBound, Config.walkFuel]; omega

/-- ASSIGN lists no symbol twice (42_code_assigner.md R150). -/
theorem treeCodes_symbols_nodup (h : TreeShape nodes L) (hr : root.toNat = 2 * L - 2) :
    ((treeCodes nodes root).map Prod.fst).Nodup := by
  have hpos := h.one_le
  by_cases two : 2 ≤ L
  · rw [treeCodes_of_two_le h hr two]
    exact walk_symbols_nodup h (by omega) (depthBound_root_lt h hr) []
  · obtain rfl : L = 1 := by omega
    obtain ⟨sym, hsym⟩ := exists_treeCodes_of_one h hr
    simp [hsym]

/-- The Kraft sum of the assigned table is that of the tree's codewords (42_code_assigner.md R155). -/
theorem sum_kraft_assigned (h : TreeShape nodes L) (hr : root.toNat = 2 * L - 2) :
    ∑ a : Fin 256, (codeAt (codeTable (treeCodes nodes root)) (BitVec.ofFin a)).kraft =
      kraftSum (treeCodes nodes root) :=
  sum_kraft_codeTable (treeCodes_symbols_nodup h hr) fun c hc =>
    (codeword_length h hr ((mem_treeCodes h hr c.1 c.2).1 hc)).2.2

/-- Settles O40: valid entries are read back as codewords, and the walk shares the root's 1 between the leaves. -/
theorem assignedCodesArePrefixFree : Obligations.AssignedCodesArePrefixFree := by
  intro s t tree inv assign
  cases (exec_assign_of_tree tree).symm.trans assign
  refine ⟨fun a b hne va vb hab => ?_, fun two => ?_, fun one => ?_⟩
  · obtain ⟨p, hp, ea⟩ := codeword_of_valid inv.shape inv.root va
    obtain ⟨q, hq, eb⟩ := codeword_of_valid inv.shape inv.root vb
    obtain ⟨-, -, hp255⟩ := codeword_length inv.shape inv.root hp
    obtain ⟨-, -, hq255⟩ := codeword_length inv.shape inv.root hq
    simp only [State.succeed_eq, State.complete_codes, ea, eb, codeEntryOf_bits hp255, codeEntryOf_bits hq255] at hab
    exact hne (hp.symbol_eq_of_prefix hq hab)
  · refine (sum_kraft_assigned inv.shape inv.root).trans ?_
    rw [treeCodes_of_two_le inv.shape inv.root two]
    simpa using kraftSum_walk inv.shape (by rw [inv.root]; omega) (depthBound_root_lt inv.shape inv.root) []
  · refine (sum_kraft_assigned inv.shape inv.root).trans ?_
    obtain ⟨sym, hsym⟩ := exists_treeCodes_of_one (one ▸ inv.shape) (by rw [inv.root, one])
    rw [hsym, kraftSum_singleton]; simp

end Sys2Proof.Machine
end

section
/-! PROOFS. PACK: the state it leaves on success, the first failing byte, what it depends on, and that encoding gives it every
code it needs (43_bit_packer.md R171 to R177). -/

namespace Sys2Proof.Machine

variable {s t : State}

/-! ### The state a successful PACK leaves -/

/-- What PACK leaves when the input packs to `bits` (43_bit_packer.md R171). -/
def State.withPacked (s : State) (bits : BitString) : State :=
  { s with
    outMem := s.outMem.writeBytes 0 (packedBytes bits)
    outLen := BitVec.ofNat 17 (packedBytes bits).length
    totalBits := BitVec.ofNat 32 bits.length
    pad := BitVec.ofNat 8 (paddingOf bits.length) }.succeed

/-- PACK succeeds on bytes whose codes are valid and fit (43_bit_packer.md R171). -/
theorem exec_pack_of_codes (legal : s.lengthOk = true) (valid : ∀ b ∈ s.inputBytes, (codeAt s.codes b).valid = true)
    (fit : (concatCodes s.codes s.inputBytes).length ≤ Config.bufBits) :
    exec .pack s = .next (s.withPacked (concatCodes s.codes s.inputBytes)) := by
  have hp := packLoop_append [] (i := 0) (len := 0) valid (by omega)
  rw [List.append_nil] at hp
  exact execPack_of_ok legal (by simpa [packLoop, Except.map] using hp)

/-- A packing loop that fails reports an error (43_bit_packer.md R171). -/
theorem packLoop_error_ne_ok {r : Raise} (h : packLoop s.codes 0 0 s.inputBytes = .error r) : r.code ≠ .ok := by
  obtain ⟨k, hk, -, -, -, ⟨hc, -⟩ | ⟨hc, -⟩⟩ := packLoop_error h (Nat.zero_le _) <;> simp [hc]

/-- A PACK that succeeds found every code valid and the packed bits within the buffer (43_bit_packer.md R171). -/
theorem eq_withPacked_of_pack_ok (h : exec .pack s = .next t) (ok : t.errCode = .ok) :
    (∀ b ∈ s.inputBytes, (codeAt s.codes b).valid = true) ∧
      (concatCodes s.codes s.inputBytes).length ≤ Config.bufBits ∧
      t = s.withPacked (concatCodes s.codes s.inputBytes) := by
  rcases execPack_cases s with ⟨-, he⟩ | ⟨r, -, hp, he⟩ | ⟨bits, -, hp, he⟩ <;> cases he.symm.trans h
  · cases ok
  · exact absurd ok (packLoop_error_ne_ok hp)
  · obtain ⟨valid, rfl, fit⟩ := packLoop_ok hp (Nat.zero_le _)
    exact ⟨valid, by omega, rfl⟩

section
variable {bits : BitString}

@[simp] theorem State.withPacked_pad : (s.withPacked bits).pad.toNat = paddingOf bits.length := by
  have := padding_fills bits.length
  simp only [State.withPacked, State.succeed_eq, State.complete_pad, BitVec.toNat_ofNat]
  omega

theorem State.withPacked_totalBits (fit : bits.length ≤ Config.bufBits) :
    (s.withPacked bits).totalBits.toNat = bits.length := toNat_totalBits fit

theorem State.withPacked_outLen (fit : bits.length ≤ Config.bufBits) :
    (s.withPacked bits).outLen.toNat = (bits.length + paddingOf bits.length) / 8 := by
  rw [← packedBytes_length]
  exact toNat_outLen (packedBytes_fit fit)

/-- The output of a successful PACK is the packed bytes (43_bit_packer.md R171). -/
theorem State.withPacked_outputBytes (fit : bits.length ≤ Config.bufBits) :
    (s.withPacked bits).outputBytes = packedBytes bits := by
  have hlen := State.withPacked_outLen (s := s) fit
  rw [← packedBytes_length] at hlen
  apply List.ext_getElem
  · simp [State.outputBytes, hlen]
  · intro i _ hi
    simp only [State.outputBytes, List.getElem_map, List.getElem_range]
    exact (Memory.read_writeBytes ..).trans (dif_pos ⟨Nat.zero_le i, by omega⟩)

end

/-- Settles O42: PACK leaves the packed concatenation, and the packed bytes are read back as its bits and the padding. -/
theorem packConcatenatesTheCodes : Obligations.PackConcatenatesTheCodes := by
  intro s short valid fit
  refine ⟨_, exec_pack_of_codes (by simpa [State.lengthOk] using short) valid fit, rfl, State.withPacked_totalBits fit,
    State.withPacked_pad, State.withPacked_outLen fit, ?_, fun i => read_output_of_outLen_le (packedBytes_fit fit) _, rfl⟩
  rw [State.withPacked_outputBytes fit]
  exact streamBits_packedBytes _

theorem concatCodes_length (codes : Vector CodeEntry Config.nsym) (bytes : List Byte) :
    (concatCodes codes bytes).length = (bytes.map (fun b => (codeAt codes b).len.toNat)).sum := by
  simp [concatCodes, List.length_flatMap]

/-- Settles O43: the padding fills the last byte, and TOTAL_BITS is the length of the concatenation. -/
theorem packPaddingBound : Obligations.PackPaddingBound := by
  intro s t pack ok
  obtain ⟨-, fit, rfl⟩ := eq_withPacked_of_pack_ok pack ok
  obtain ⟨hfill, hle⟩ := padding_fills (concatCodes s.codes s.inputBytes).length
  rw [State.withPacked_pad, State.withPacked_outLen fit, State.withPacked_totalBits fit]
  exact ⟨hle, by omega, concatCodes_length _ _⟩

/-- Packing no bits writes no byte (43_bit_packer.md R176). -/
theorem State.withPacked_nil_outMem : (s.withPacked []).outMem = s.outMem := by
  simp [State.withPacked, packedBytes, packBytes, paddingOf, Memory.writeBytes, Memory.cells]

/-- Settles O45: no byte has to have a code, and writing no byte keeps the buffer. -/
theorem packOfEmptyInput : Obligations.PackOfEmptyInput := by
  intro s empty
  have hin : s.inputBytes = [] := by simp [State.inputBytes, empty]
  have hpack := exec_pack_of_codes (s := s) (by simp [State.lengthOk, empty]) (by simp [hin]) (by simp [hin])
  rw [hin, concatCodes_nil] at hpack
  exact ⟨_, hpack, rfl, rfl, rfl, rfl, rfl, State.withPacked_nil_outMem, rfl, rfl⟩

/-! ### The first failing byte -/

/-- PACK of a byte without a code (43_bit_packer.md R172). -/
theorem packLoop_cons_of_invalid {codes : Vector CodeEntry Config.nsym} {b : Byte} (invalid : (codeAt codes b).valid = false)
    (i len : Nat) (after : List Byte) :
    packLoop codes i len (b :: after) = .error ⟨.unknownSymbol, BitVec.ofNat 32 i⟩ := by
  simp [packLoop, invalid]

/-- PACK of a byte whose code does not fit (43_bit_packer.md R175). -/
theorem packLoop_cons_of_overflow {codes : Vector CodeEntry Config.nsym} {b : Byte} (valid : (codeAt codes b).valid = true)
    {len : Nat} (long : Config.bufBits < len + (codeAt codes b).len.toNat) (i : Nat) (after : List Byte) :
    packLoop codes i len (b :: after) = .error ⟨.outputOverflow, BitVec.ofNat 32 i⟩ := by
  simp [packLoop, valid, long]

/-- PACK fails as its loop does at a byte, the bytes before which have codes that fit (43_bit_packer.md R171). -/
theorem exec_pack_of_first_error {before after : List Byte} {b : Byte} {r : Raise} (legal : s.lengthOk = true)
    (input : s.inputBytes = before ++ b :: after) (valid : ∀ x ∈ before, (codeAt s.codes x).valid = true)
    (fit : (concatCodes s.codes before).length ≤ Config.bufBits)
    (fails : packLoop s.codes before.length (concatCodes s.codes before).length (b :: after) = .error r) :
    exec .pack s = .next ({ s with outLen := 0#17, totalBits := 0#32 }.raise r) := by
  refine execPack_of_error legal ?_
  rw [input, packLoop_append (b :: after) valid (by omega), Nat.zero_add, Nat.zero_add, fails]
  rfl

/-- The codes of n bytes, of at most m bits each, are at most n * m bits (43_bit_packer.md R175). -/
theorem concatCodes_length_le {codes : Vector CodeEntry Config.nsym} {bytes : List Byte} {m : Nat}
    (h : ∀ b ∈ bytes, (codeAt codes b).len.toNat ≤ m) : (concatCodes codes bytes).length ≤ bytes.length * m := by
  rw [concatCodes_length]
  simpa using List.sum_le_card_nsmul (bytes.map (fun b => (codeAt codes b).len.toNat)) m (by simpa using h)

/-- As many input bytes as IN_LEN says (10_state.md R44). -/
@[simp] theorem inputBytes_length (s : State) : s.inputBytes.length = s.inLen.toNat := by simp [State.inputBytes]

/-- Codes of at most a byte each never overflow the output buffer (43_bit_packer.md R175). -/
theorem pack_not_overflow (short : ∀ b ∈ s.inputBytes, (codeAt s.codes b).len.toNat ≤ 8) (h : exec .pack s = .next t) :
    t.errCode ≠ .outputOverflow := by
  rcases execPack_cases s with ⟨-, he⟩ | ⟨r, legal, hp, he⟩ | ⟨bits, -, -, he⟩ <;> cases he.symm.trans h
  · simp [State.lengthError]
  · obtain ⟨k, hk, -, -, -, ⟨hc, -⟩ | ⟨-, -, long⟩⟩ := packLoop_error hp (Nat.zero_le _)
    · simp [hc]
    · have hlen : s.inputBytes.length ≤ Config.bufBytes := by simpa [State.lengthOk] using legal
      have hbefore := concatCodes_length_le fun b hb => short b (List.mem_of_mem_take (i := k) hb)
      have hlast := short _ (List.getElem_mem hk)
      rw [List.length_take] at hbefore
      simp only [Config.bufBits, Config.bufBytes] at long hlen
      omega
  · simp

/-- Settles O44: the loop passes the bytes before the failing one, and its error there is PACK's. -/
theorem packReportsTheFirstFailingByte : Obligations.PackReportsTheFirstFailingByte := by
  refine ⟨fun s before b after short input valid fit => ?_, fun s long => ?_, fun s t => pack_not_overflow⟩
  · have legal : s.lengthOk = true := by simpa [State.lengthOk] using short
    have failsWith {r : Raise} := exec_pack_of_first_error (r := r) legal input valid fit
    exact ⟨fun invalid => failsWith (packLoop_cons_of_invalid invalid _ _ _),
      fun validAt long => failsWith (packLoop_cons_of_overflow validAt long _ _)⟩
  · exact execPack_of_length (by simpa [State.lengthOk] using long)

/-! ### What PACK depends on -/

/-- Two states have the same operands of PACK: IN_LEN, the input bytes and CODE (43_bit_packer.md R177). -/
structure SamePackOperands (s s' : State) : Prop where
  inLen : s'.inLen = s.inLen
  bytes : s'.inputBytes = s.inputBytes
  codes : s'.codes = s.codes

/-- The input bytes are read at the indices below IN_LEN alone (10_state.md R44). -/
theorem inputBytes_congr {s s' : State} (inLen : s.inLen = s'.inLen)
    (read : ∀ i < s.inLen.toNat, s.inMem.read i = s'.inMem.read i) : s'.inputBytes = s.inputBytes := by
  rw [State.inputBytes, State.inputBytes, ← inLen]
  exact List.map_congr_left fun i hi => (read i (List.mem_range.1 hi)).symm

/-- The output registers and the output bytes of two PACKs agree (43_bit_packer.md R177). -/
structure SamePacked (t t' : State) : Prop where
  errCode : t.errCode = t'.errCode
  errInfo : t.errInfo = t'.errInfo
  outLen : t.outLen = t'.outLen
  totalBits : t.totalBits = t'.totalBits
  outputBytes : t.outputBytes = t'.outputBytes
  pad : t.errCode = .ok → t.pad = t'.pad

/-- PACK of the same operands ends alike (43_bit_packer.md R177). -/
theorem SamePackOperands.pack {s s' : State} (same : SamePackOperands s s') (h : exec .pack s = .next t) :
    ∃ t', exec .pack s' = .next t' ∧ SamePacked t t' := by
  obtain ⟨inLen, bytes, codes⟩ := same
  have legal : s'.lengthOk = s.lengthOk := by rw [State.lengthOk, State.lengthOk, inLen]
  have loop : packLoop s'.codes 0 0 s'.inputBytes = packLoop s.codes 0 0 s.inputBytes := by rw [bytes, codes]
  rcases execPack_cases s with ⟨hl, he⟩ | ⟨r, hl, hp, he⟩ | ⟨bits, hl, hp, he⟩ <;> cases he.symm.trans h
  · exact ⟨_, execPack_of_length (legal.trans hl), rfl, inLen.symm, rfl, rfl, rfl, nofun⟩
  · exact ⟨_, execPack_of_error (legal.trans hl) (loop.trans hp), rfl, rfl, rfl, rfl, rfl,
      fun ok => absurd ok (packLoop_error_ne_ok hp)⟩
  · obtain ⟨-, -, fit⟩ := packLoop_ok hp (Nat.zero_le _)
    rw [Nat.zero_add] at fit
    exact ⟨_, execPack_of_ok (legal.trans hl) (loop.trans hp), rfl, rfl, rfl, rfl,
      (State.withPacked_outputBytes fit).trans (State.withPacked_outputBytes fit).symm, fun _ => rfl⟩

/-- PACK changes none of its operands, and on failure keeps PAD (43_bit_packer.md R171, R177). -/
theorem pack_keeps (h : exec .pack s = .next t) :
    t.inMem = s.inMem ∧ SamePackOperands s t ∧ (t.errCode ≠ .ok → t.pad = s.pad) := by
  obtain ⟨-, -, -, -, packFrame, -⟩ := commandsChangeOnlyWhatTheyList
  obtain ⟨frame, failed, -⟩ := packFrame s t h
  refine ⟨?_, ?_, fun ne => (failed ne).1⟩ <;> rw [frame]
  exact ⟨rfl, rfl, rfl⟩

/-- Settles O46: PACK reads its operands alone, and leaves them for a second PACK. -/
theorem packReadsOnlyInputAndCodes : Obligations.PackReadsOnlyInputAndCodes := by
  refine ⟨fun s s' t t' inLen read codes h h' => ?_, fun s t h => ?_⟩
  · obtain ⟨_, h'', same⟩ := SamePackOperands.pack ⟨inLen.symm, inputBytes_congr inLen read, codes.symm⟩ h
    cases h''.symm.trans h'
    exact ⟨same.errCode, same.errInfo, same.outLen, same.totalBits, same.outputBytes, same.pad⟩
  · obtain ⟨inMem, operands, -⟩ := pack_keeps h
    obtain ⟨u, hu, same⟩ := operands.pack h
    obtain ⟨-, -, keptPad⟩ := pack_keeps hu
    have pad : u.pad = t.pad := by
      by_cases ok : t.errCode = .ok
      · exact (same.pad ok).symm
      · exact keptPad (same.errCode ▸ ok)
    exact ⟨inMem, u, hu, same.errCode.symm, same.errInfo.symm, same.outLen.symm, pad, same.totalBits.symm,
      same.outputBytes.symm⟩

/-! ### Encoding: COUNT, BUILD, ASSIGN, PACK -/

/-- An input byte is present in the frequency table COUNT makes of the input (40_session_count.md R112, R113). -/
theorem mem_presentSymbols_countBytes {b : Byte} (hb : b ∈ s.inputBytes) :
    b ∈ presentSymbols (countBytes s.inputBytes) := by
  rw [mem_presentSymbols, countBytes_get]
  intro hzero
  have hcount := congrArg BitVec.toNat hzero
  rw [BitVec.toNat_ofNat, Nat.mod_eq_of_lt (count_inputBytes_lt s b)] at hcount
  exact (List.count_pos_iff.2 hb).ne' hcount

/-- ASSIGN of the tree BUILD stored gives every present symbol a code (41_tree_builder.md R132, 42_code_assigner.md R153). -/
theorem valid_of_mem_presentSymbols {sym : Byte} (present : sym ∈ presentSymbols s.freq) :
    (codeAt (codeTable (treeCodes s.withTree.nodes s.withTree.root)) sym).valid = true := by
  have hne := List.ne_nil_of_mem present
  have inv := State.withTree_treeInv hne
  obtain ⟨i, hi, rfl⟩ := List.getElem_of_mem present
  refine (valid_iff_leaf inv.shape inv.root _).2 ⟨i, by rwa [State.withTree_symCount hne], ?_⟩
  rw [State.withTree_slot_leaf hne hi]
  rfl

/-- PACK of a legal input whose bytes all have codes can only fail by overflow (43_bit_packer.md R172, R175). -/
theorem exists_pack_ok_or_overflow (legal : s.lengthOk = true)
    (valid : ∀ b ∈ s.inputBytes, (codeAt s.codes b).valid = true) :
    ∃ t, exec .pack s = .next t ∧ (t.errCode = .ok ∨ t.errCode = .outputOverflow) := by
  rcases execPack_cases s with ⟨illegal, -⟩ | ⟨r, -, hp, he⟩ | ⟨bits, -, -, he⟩
  · simp [legal] at illegal
  · obtain ⟨k, hk, -, -, -, ⟨-, invalid⟩ | ⟨hc, -⟩⟩ := packLoop_error hp (Nat.zero_le _)
    · simp [valid _ (List.getElem_mem hk)] at invalid
    · exact ⟨_, he, .inr hc⟩
  · exact ⟨_, he, .inl rfl⟩

/-- The state COUNT leaves of a legal input (40_session_count.md R112). -/
def State.withCounts (s : State) : State := { s with freq := countBytes s.inputBytes }.succeed

theorem exec_count_of_legal (legal : s.lengthOk = true) : exec .count s = .next s.withCounts := if_pos legal

/-- The state ASSIGN leaves of a tree (42_code_assigner.md R150). -/
def State.withCodes (s : State) : State := { s with codes := codeTable (treeCodes s.nodes s.root) }.succeed

/-- COUNT, BUILD and ASSIGN give every byte of the input a code (43_bit_packer.md R172). -/
theorem encoding_valid {b : Byte} (hb : b ∈ s.inputBytes) : (codeAt s.withCounts.withTree.withCodes.codes b).valid = true :=
  valid_of_mem_presentSymbols (s := s.withCounts) (mem_presentSymbols_countBytes hb)

/-- Settles O54: the input bytes are the symbols COUNT finds present, so BUILD has a leaf and ASSIGN a code for each. -/
theorem encodingNeverMissesASymbol : Obligations.EncodingNeverMissesASymbol := by
  intro s pos short
  have legal : s.lengthOk = true := by simpa [State.lengthOk] using short
  have hne : s.inputBytes ≠ [] := List.ne_nil_of_length_pos (by rwa [inputBytes_length])
  have present := List.ne_nil_of_mem (mem_presentSymbols_countBytes (List.head_mem hne))
  obtain ⟨s4, pack, ended⟩ :=
    exists_pack_ok_or_overflow (s := s.withCounts.withTree.withCodes) legal fun _ => encoding_valid (s := s)
  exact ⟨_, _, _, s4, exec_count_of_legal legal, rfl, exec_build_of_present present, rfl, exec_assign_of_tree rfl, rfl, pack,
    ended⟩

end Sys2Proof.Machine
end

section
/-! PROOFS. UNPACK: the operand checks, the decoding of codewords, the decodings that fail, what it depends on, and the round trip
through PACK (44_decoder.md R191 to R199). -/

namespace Sys2Proof.Machine

variable {s t : State}

/-! ### The operand checks -/

theorem unpackCheck_of_length (long : 65536 < s.inLen.toNat) : s.unpackCheck = some s.lengthError := by
  simp [State.unpackCheck, State.lengthOk, long]

/-- PAD above 7, or above the number of bits, is INVALID_PADDING (44_decoder.md R192). -/
theorem unpackCheck_of_padding (short : s.inLen.toNat ≤ 65536) (bad : 7 < s.pad.toNat ∨ 8 * s.inLen.toNat < s.pad.toNat) :
    s.unpackCheck = some ⟨.invalidPadding, s.pad.setWidth 32⟩ := by
  have legal : s.lengthOk = true := by simpa [State.lengthOk] using short
  by_cases h7 : 7 < s.pad.toNat
  · simp [State.unpackCheck, legal, h7]
  · simp [State.unpackCheck, legal, bad.resolve_left h7]

/-- With a legal IN_LEN and PAD, the tree decides (44_decoder.md R192). -/
theorem unpackCheck_of_padding_ok (short : s.inLen.toNat ≤ 65536) (pad7 : s.pad.toNat ≤ 7)
    (padFits : s.pad.toNat ≤ 8 * s.inLen.toNat) :
    s.unpackCheck = if s.treeValid then none else some ⟨.noTree, 0#32⟩ := by
  have legal : s.lengthOk = true := by simpa [State.lengthOk] using short
  cases tree : s.treeValid <;> simp [State.unpackCheck, legal, tree, Nat.not_lt.2 pad7, Nat.not_lt.2 padFits]

theorem unpackCheck_of_no_tree (short : s.inLen.toNat ≤ 65536) (pad7 : s.pad.toNat ≤ 7)
    (padFits : s.pad.toNat ≤ 8 * s.inLen.toNat) (noTree : s.treeValid = false) :
    s.unpackCheck = some ⟨.noTree, 0#32⟩ := by
  simp [unpackCheck_of_padding_ok short pad7 padFits, noTree]

theorem unpackCheck_of_legal (short : s.inLen.toNat ≤ 65536) (pad7 : s.pad.toNat ≤ 7)
    (padFits : s.pad.toNat ≤ 8 * s.inLen.toNat) (tree : s.treeValid = true) : s.unpackCheck = none := by
  simp [unpackCheck_of_padding_ok short pad7 padFits, tree]

/-- Settles O47: the first check that fails is the error, and nothing has been decoded by then. -/
theorem unpackChecksItsOperands : Obligations.UnpackChecksItsOperands := fun _ =>
  ⟨fun long => execUnpack_of_check (unpackCheck_of_length long),
    fun short bad => execUnpack_of_check (unpackCheck_of_padding short (.inl bad)),
    fun empty pos _ => execUnpack_of_check (unpackCheck_of_padding (by omega) (.inr (by omega))),
    fun short pad7 padFits noTree => execUnpack_of_check (unpackCheck_of_no_tree short pad7 padFits noTree)⟩

/-! ### The state UNPACK leaves -/

/-- There are as many retained bits as N says (44_decoder.md R191). -/
@[simp] theorem retainedBits_length (s : State) : s.retainedBits.length = s.retainedCount := by
  simp [State.retainedBits, State.retainedCount]

/-- Output bytes that fit are read back as they were written (10_state.md R28). -/
theorem outputBytes_eq_of_written {bytes : List Byte} {m : Memory} (fit : bytes.length ≤ Config.bufBytes)
    (outLen : t.outLen = BitVec.ofNat 17 bytes.length) (outMem : t.outMem = m.writeBytes 0 bytes) : t.outputBytes = bytes := by
  have hlen : t.outLen.toNat = bytes.length := by rw [outLen, toNat_outLen fit]
  apply List.ext_getElem
  · simp [State.outputBytes, hlen]
  · intro i _ hi
    simp only [State.outputBytes, List.getElem_map, List.getElem_range, outMem]
    exact (Memory.read_writeBytes ..).trans (dif_pos ⟨Nat.zero_le i, by omega⟩)

/-- What UNPACK leaves when the retained bits decode to `syms` (44_decoder.md R191). -/
def State.withUnpacked (s : State) (syms : List Byte) : State :=
  { s with
    outMem := s.outMem.writeBytes 0 syms
    outLen := BitVec.ofNat 17 syms.length
    totalBits := BitVec.ofNat 32 s.retainedCount }.succeed

theorem State.withUnpacked_outputBytes {syms : List Byte} (fit : syms.length ≤ Config.bufBytes) :
    (s.withUnpacked syms).outputBytes = syms := outputBytes_eq_of_written fit rfl rfl

/-- UNPACK of retained bits that decode (44_decoder.md R191). -/
theorem exec_unpack_of_decoded {syms : List Byte} (check : s.unpackCheck = none)
    (decoded : decodeBits s.nodes s.root s.retainedBits = ⟨syms, none⟩) :
    exec .unpack s = .next (s.withUnpacked syms) := execUnpack_of_success check decoded rfl

/-- UNPACK of retained bits whose decoding fails reports that error (44_decoder.md R191). -/
theorem exec_unpack_of_failure {r : Raise} (check : s.unpackCheck = none)
    (fails : (decodeBits s.nodes s.root s.retainedBits).failure = some r) :
    ∃ t, exec .unpack s = .next t ∧ t.errCode = r.code ∧ t.errInfo = r.info ∧ t.outLen = 0#17 ∧ t.totalBits = 0#32 :=
  ⟨_, execUnpack_of_failure check rfl fails, rfl, rfl, rfl, rfl⟩

/-- The bit index of a decoding error fits ERR_INFO (44_decoder.md R191). -/
theorem toNat_bitIndex {m : Nat} (check : s.unpackCheck = none) (hm : m ≤ s.retainedCount) : (BitVec.ofNat 32 m).toNat = m :=
  toNat_totalBits (hm.trans (retainedCount_le_of_unpackCheck check))

/-! ### Decodings -/

section
variable {nodes : Vector Node Config.nodeSlots} {root : NodeIndex} {cs : List (Byte × BitString)}
  (codewords : ∀ c ∈ cs, Codeword nodes root c.1 c.2)
include codewords

/-- Codewords that fit decode to their symbols (44_decoder.md R191). -/
theorem decodeBits_flatMap (fit : cs.length ≤ Config.bufBytes) :
    decodeBits nodes root (cs.flatMap Prod.snd) = ⟨cs.map Prod.fst, none⟩ := by
  have h := decodeBits_codewords codewords fit []
  rw [List.append_nil] at h
  rw [h]
  cases nodeAt nodes root <;> simp [decodeOneLeaf, decodeWalk, Decoded.emitAll]

/-- Bits that end inside a path are MALFORMED_DATA at their end (44_decoder.md R194). -/
theorem decodeBits_partial_path {L : Nat} (shape : TreeShape nodes L) (hroot : root.toNat = 2 * L - 2)
    (fit : cs.length ≤ Config.bufBytes) {q : BitString} (hq : q ≠ []) (stays : StaysInside nodes root q)
    (inside : (nodeAt nodes (descend nodes root q)).symbol? = none) :
    (decodeBits nodes root (cs.flatMap Prod.snd ++ q)).failure = some (malformedAt (cs.flatMap Prod.snd ++ q).length) := by
  have hone := shape.one_le
  have hlt := (shape.descend_lt (by omega) stays).2 hq
  have away : descend nodes root q ≠ root := fun same => by rw [same] at hlt; omega
  have hin : ∀ m ≤ q.length, (nodeAt nodes (descend nodes root (q.take m))).symbol? = none := fun m hm => by
    rcases hm.lt_or_eq with hm | rfl
    · exact stays m hm
    · rwa [List.take_length]
  rw [decodeBits_codewords codewords fit]
  cases hn : nodeAt nodes root with
  | leaf x w => simpa [hn, Node.symbol?] using hin 0 (Nat.zero_le _)
  | internal l r w =>
    simp only []
    rw [decodeWalk_inside hin, if_neg away, List.length_append]
    rfl

/-- One codeword more than fits is OUTPUT_OVERFLOW at its last bit (44_decoder.md R197). -/
theorem decodeBits_overflow (full : cs.length = Config.bufBytes) {c : Byte × BitString}
    (codeword : Codeword nodes root c.1 c.2) (rest : BitString) :
    (decodeBits nodes root (cs.flatMap Prod.snd ++ (c.2 ++ rest))).failure =
      some (overflowAt ((cs.flatMap Prod.snd).length + c.2.length - 1)) := by
  have hne := codeword.ne_nil
  rw [decodeBits_codewords codewords full.le]
  unfold Codeword at codeword
  cases hn : nodeAt nodes root with
  | leaf x w =>
    simp only [hn] at codeword
    simp [codeword.2, decodeOneLeaf, full, Decoded.emitAll]
  | internal l r w =>
    simp only [hn] at codeword
    obtain ⟨stays, leaf⟩ := codeword
    simp only []
    rw [decodeWalk_path rest hne stays leaf, if_pos full]
    rfl

end

section
variable {nodes : Vector Node Config.nodeSlots} {root : NodeIndex} {sym : Byte} {w : Weight}
  (leaf : nodeAt nodes root = .leaf sym w) {m : Nat} (fit : m ≤ Config.bufBytes)
include leaf fit

/-- With a one-leaf tree, zeros that fit decode to the symbol, and what follows them decides (44_decoder.md R195). -/
theorem decodeBits_zeros (rest : BitString) :
    decodeBits nodes root (List.replicate m false ++ rest) =
      (decodeOneLeaf sym m m rest).emitAll (List.replicate m sym) := by
  simp only [decodeBits, leaf]
  rw [decodeOneLeaf_zeros sym rest (by omega), Nat.zero_add]

theorem decodeBits_replicate_false :
    decodeBits nodes root (List.replicate m false) = ⟨List.replicate m sym, none⟩ := by
  simpa [decodeOneLeaf, Decoded.emitAll] using decodeBits_zeros leaf fit []

/-- With a one-leaf tree, the first bit 1 is MALFORMED_DATA at its index (44_decoder.md R195). -/
theorem decodeBits_first_one (rest : BitString) :
    (decodeBits nodes root (List.replicate m false ++ true :: rest)).failure = some (malformedAt m) := by
  rw [decodeBits_zeros leaf fit]; rfl

end

/-! ### UNPACK of codewords, of a partial path, of zeros, of too many symbols -/

/-- Settles O48: the codewords decode to their symbols, which fit OUT_MEM. -/
theorem unpackDecodesCodewords : Obligations.UnpackDecodesCodewords := by
  intro s cs short pad7 padFits tree codewords bits fit
  have check := unpackCheck_of_legal short pad7 padFits tree
  have hbits : s.retainedBits = cs.flatMap Prod.snd := bits
  have fitSyms : (cs.map Prod.fst).length ≤ Config.bufBytes := by rwa [List.length_map]
  refine ⟨_, exec_unpack_of_decoded check (hbits ▸ decodeBits_flatMap codewords fit), rfl,
    State.withUnpacked_outputBytes fitSyms, ?_, toNat_totalBits (retainedCount_le_of_unpackCheck check),
    fun i => read_output_of_outLen_le fitSyms _, rfl⟩
  exact (toNat_outLen fitSyms).trans (List.length_map _)

/-- Settles O49: a tree's partial path ends below the root, and no retained bits decode to no symbols. -/
theorem unpackRejectsAPartialPath : Obligations.UnpackRejectsAPartialPath := by
  refine ⟨fun s cs q short pad7 padFits tree inv codewords hq stays inside bits fit => ?_, fun s empty noPad tree => ?_⟩
  · have check := unpackCheck_of_legal short pad7 padFits tree
    have hbits : s.retainedBits = cs.flatMap Prod.snd ++ q := bits
    have fails := decodeBits_partial_path codewords inv.shape inv.root fit hq stays inside
    rw [← hbits, retainedBits_length] at fails
    obtain ⟨t, unpack, code, info, outLen, totalBits⟩ := exec_unpack_of_failure check fails
    exact ⟨t, unpack, code, info ▸ toNat_bitIndex check le_rfl, outLen, totalBits⟩
  · have check : s.unpackCheck = none := unpackCheck_of_legal (by simp [empty]) (by simp [noPad]) (by simp [noPad]) tree
    have hcount : s.retainedCount = 0 := by simp [State.retainedCount, empty]
    have hbits : s.retainedBits = [] := List.eq_nil_of_length_eq_zero (by rw [retainedBits_length, hcount])
    have decoded : decodeBits s.nodes s.root s.retainedBits = ⟨[], none⟩ :=
      hbits ▸ decodeBits_flatMap (cs := []) (by simp) (Nat.zero_le _)
    refine ⟨_, exec_unpack_of_decoded check decoded, rfl, rfl, rfl, ?_⟩
    simp [State.withUnpacked, hcount]

/-- Settles O50: the zeros decode to the symbol each, and the loop stops at the first bit 1. -/
theorem unpackWithAOneLeafTree : Obligations.UnpackWithAOneLeafTree := by
  intro s sym w m short pad7 padFits tree leaf fit
  have check := unpackCheck_of_legal short pad7 padFits tree
  refine ⟨fun bits => ?_, fun rest bits => ?_⟩
  · have hbits : s.retainedBits = List.replicate m false := bits
    exact ⟨_, exec_unpack_of_decoded check (hbits ▸ decodeBits_replicate_false leaf fit), rfl,
      State.withUnpacked_outputBytes (by rwa [List.length_replicate])⟩
  · have hbits : s.retainedBits = List.replicate m false ++ true :: rest := bits
    have hm : m ≤ s.retainedCount := by rw [← retainedBits_length, hbits]; simp
    obtain ⟨t, unpack, code, info, outLen, totalBits⟩ :=
      exec_unpack_of_failure check (hbits ▸ decodeBits_first_one leaf fit rest)
    exact ⟨t, unpack, code, info ▸ toNat_bitIndex check hm, outLen, totalBits⟩

/-- Settles O51: 65536 codewords fill the output, so the leaf the next codeword ends at has no room. -/
theorem unpackRejectsTooManySymbols : Obligations.UnpackRejectsTooManySymbols := by
  intro s cs c rest short pad7 padFits tree codewords codeword full bits
  have check := unpackCheck_of_legal short pad7 padFits tree
  have hbits : s.retainedBits = cs.flatMap Prod.snd ++ (c.2 ++ rest) := bits.trans (List.append_assoc ..)
  have hlast : (cs.flatMap Prod.snd).length + c.2.length - 1 ≤ s.retainedCount := by
    rw [← retainedBits_length, hbits, List.length_append, List.length_append]; omega
  obtain ⟨t, unpack, code, info, outLen, totalBits⟩ :=
    exec_unpack_of_failure check (hbits ▸ decodeBits_overflow codewords full codeword rest)
  exact ⟨t, unpack, code, info ▸ toNat_bitIndex check hlast, outLen, totalBits⟩

/-! ### What UNPACK depends on -/

/-- UNPACK reads IN_MEM only for the retained bits, and CODE not at all (44_decoder.md R193). -/
theorem unpack_congr {m : Memory} {codes : Vector CodeEntry Config.nsym}
    (bits : { s with inMem := m, codes := codes }.retainedBits = s.retainedBits) (h : exec .unpack s = .next t) :
    exec .unpack { s with inMem := m, codes := codes } = .next { t with inMem := m, codes := codes } := by
  have decoded : decodeBits s.nodes s.root { s with inMem := m, codes := codes }.retainedBits =
      decodeBits s.nodes s.root s.retainedBits := congrArg _ bits
  rcases execUnpack_cases s with ⟨r, hc, he⟩ | ⟨d, r, hc, hd, hf, he⟩ | ⟨d, hc, hd, hf, he⟩ <;> cases he.symm.trans h
  · exact execUnpack_of_check hc
  · exact execUnpack_of_failure hc (decoded.trans hd) hf
  · exact execUnpack_of_success hc (decoded.trans hd) hf

/-- UNPACK leaves its operands for a second UNPACK, which ends like the first (44_decoder.md R198). -/
theorem unpack_again (h : exec .unpack s = .next t) :
    ∃ u, exec .unpack t = .next u ∧ u.errCode = t.errCode ∧ u.errInfo = t.errInfo ∧ u.outLen = t.outLen ∧
      u.totalBits = t.totalBits ∧ u.outputBytes = t.outputBytes := by
  have fit := (decodeBits_spec (nodes := s.nodes) (root := s.root) s.retainedBits).1
  rcases execUnpack_cases s with ⟨r, hc, he⟩ | ⟨d, r, hc, hd, hf, he⟩ | ⟨d, hc, hd, hf, he⟩ <;> cases he.symm.trans h
  · exact ⟨_, execUnpack_of_check hc, rfl, rfl, rfl, rfl, rfl⟩
  · exact ⟨_, execUnpack_of_failure hc hd hf, rfl, rfl, rfl, rfl, rfl⟩
  · rw [hd] at fit
    exact ⟨_, execUnpack_of_success hc hd hf, rfl, rfl, rfl, rfl,
      (outputBytes_eq_of_written fit rfl rfl).trans (outputBytes_eq_of_written fit rfl rfl).symm⟩

/-- Settles O52: the retained bits and the tree decide, and UNPACK's frame keeps them. -/
theorem unpackReadsOnlyRetainedBitsAndTree : Obligations.UnpackReadsOnlyRetainedBitsAndTree := by
  refine ⟨fun s t m codes bits => unpack_congr bits, fun s t unpack => ?_⟩
  have again := unpack_again unpack
  obtain ⟨-, -, -, -, -, unpackFrame⟩ := commandsChangeOnlyWhatTheyList
  obtain ⟨frame, -⟩ := unpackFrame s t unpack
  refine ⟨?_, ?_, ?_, ?_, ?_, ?_, ?_, ?_, ?_, again⟩ <;> rw [frame]

/-! ### The round trip -/

/-- IN_MEM holds the bytes that IN_LEN counts: they are the input (10_state.md R44). -/
theorem inputBytes_eq_of_holds {bytes : List Byte} (holds : s.inMem.holds bytes) (inLen : s.inLen.toNat = bytes.length) :
    s.inputBytes = bytes :=
  List.ext_getElem (by rw [inputBytes_length, inLen]) fun i _ hi => by simpa [State.inputBytes] using holds i hi

/-- OUT_MEM holds the output bytes (10_state.md R28). -/
theorem holds_of_outputBytes_eq {bytes : List Byte} (output : s.outputBytes = bytes) : s.outMem.holds bytes := by
  subst output
  exact fun i _ => by simp [State.outputBytes]

@[simp] theorem outputBytes_length (s : State) : s.outputBytes.length = s.outLen.toNat := by simp [State.outputBytes]

/-- The code ASSIGN gives a symbol is its codeword (42_code_assigner.md R150, R156). -/
theorem codeword_bits_of_valid {nodes : Vector Node Config.nodeSlots} {root : NodeIndex} {L : Nat}
    (shape : TreeShape nodes L) (hroot : root.toNat = 2 * L - 2) {sym : Byte}
    (valid : (codeAt (codeTable (treeCodes nodes root)) sym).valid = true) :
    Codeword nodes root sym (codeAt (codeTable (treeCodes nodes root)) sym).bits := by
  obtain ⟨p, hp, entry⟩ := codeword_of_valid shape hroot valid
  obtain ⟨-, -, h255⟩ := codeword_length shape hroot hp
  rwa [entry, codeEntryOf_bits h255]

/-- Each byte with its code (43_bit_packer.md R171). -/
def codePairs (codes : Vector CodeEntry Config.nsym) (bytes : List Byte) : List (Byte × BitString) :=
  bytes.map fun b => (b, (codeAt codes b).bits)

theorem codePairs_symbols (codes : Vector CodeEntry Config.nsym) (bytes : List Byte) :
    (codePairs codes bytes).map Prod.fst = bytes := by simp [codePairs, Function.comp_def]

theorem codePairs_bits (codes : Vector CodeEntry Config.nsym) (bytes : List Byte) :
    (codePairs codes bytes).flatMap Prod.snd = concatCodes codes bytes := by simp [codePairs, concatCodes, List.flatMap_map]

/-- The codes ASSIGN gives to bytes decode to the bytes (44_decoder.md R191, R199). -/
theorem decodeBits_concatCodes {nodes : Vector Node Config.nodeSlots} {root : NodeIndex} {L : Nat}
    (shape : TreeShape nodes L) (hroot : root.toNat = 2 * L - 2) {bytes : List Byte} (short : bytes.length ≤ Config.bufBytes)
    (valid : ∀ b ∈ bytes, (codeAt (codeTable (treeCodes nodes root)) b).valid = true) :
    decodeBits nodes root (concatCodes (codeTable (treeCodes nodes root)) bytes) = ⟨bytes, none⟩ := by
  have codewords : ∀ c ∈ codePairs (codeTable (treeCodes nodes root)) bytes, Codeword nodes root c.1 c.2 := by
    simp only [codePairs, List.forall_mem_map]
    exact fun b hb => codeword_bits_of_valid shape hroot (valid b hb)
  have decoded := decodeBits_flatMap codewords (by simpa [codePairs] using short)
  rwa [codePairs_symbols, codePairs_bits] at decoded

section
variable {bits : BitString} (input : s.inputBytes = packedBytes bits) (pad : s.pad.toNat = paddingOf bits.length)
include input pad

/-- Of the packed bytes, PAD retains exactly the bits that were packed (43_bit_packer.md R173, 44_decoder.md R193). -/
theorem retainedBits_of_packed : s.retainedBits = bits := by
  have hlen := inputBytes_length s
  rw [input, packedBytes_length] at hlen
  obtain ⟨hfill, -⟩ := padding_fills bits.length
  have hcount : s.retainedCount = bits.length := by simp only [State.retainedCount]; omega
  rw [State.retainedBits, hcount, input, streamBits_packedBytes, List.take_left' rfl]

/-- PACK's output and PAD are legal operands of UNPACK (43_bit_packer.md R174, 44_decoder.md R192). -/
theorem unpackCheck_of_packed (fit : bits.length ≤ Config.bufBits) (tree : s.treeValid = true) : s.unpackCheck = none := by
  have hlen := inputBytes_length s
  have hfit := packedBytes_fit fit
  rw [input] at hlen
  rw [packedBytes_length] at hlen hfit
  obtain ⟨hfill, hpad⟩ := padding_fills bits.length
  exact unpackCheck_of_legal (by simpa [← hlen] using hfit) (by omega) (by omega) tree

end

/-- Settles O53: the codes of the input bytes are codewords of the tree BUILD stored, PACK's output retains exactly their bits,
and these decode to the input. -/
theorem roundTrip : Obligations.RoundTrip := by
  intro B s s1 s2 s3 s4 s5 _ short holds inLen count _ build built assign _ pack packed holds5 inLen5 pad5 tree5 root5 nodes5
  obtain rfl : s.inputBytes = B := inputBytes_eq_of_holds holds inLen
  have legal : s.lengthOk = true := by simpa [State.lengthOk] using short
  obtain rfl : s.withCounts = s1 := Host.Outcome.next.inj ((exec_count_of_legal legal).symm.trans count)
  obtain ⟨present, rfl⟩ := eq_withTree_of_build_ok build built
  obtain rfl : s.withCounts.withTree.withCodes = s3 := Host.Outcome.next.inj ((exec_assign_of_tree rfl).symm.trans assign)
  obtain ⟨valid, fit, rfl⟩ := eq_withPacked_of_pack_ok pack packed
  obtain ⟨shape, -, hroot⟩ := State.withTree_treeInv present
  have copied := inputBytes_eq_of_holds holds5 (inLen5.trans (outputBytes_length _).symm)
  rw [State.withPacked_outputBytes fit] at copied
  have padding := (congrArg BitVec.toNat pad5).trans State.withPacked_pad
  have decoded : decodeBits s5.nodes s5.root s5.retainedBits = ⟨s.inputBytes, none⟩ := by
    rw [retainedBits_of_packed copied padding, nodes5, root5]
    exact decodeBits_concatCodes shape hroot short valid
  exact ⟨_, exec_unpack_of_decoded (unpackCheck_of_packed copied padding fit tree5) decoded, rfl, toNat_outLen short,
    holds_of_outputBytes_eq (State.withUnpacked_outputBytes short)⟩

end Sys2Proof.Machine
end

section
/-! PROOFS. The life of a command (60_exceptions.md): its acceptance (R211), the completion that ends it (R212) with the results
each command reports (R213 to R218), the interrupt line (R219) and HOSTERR (R222). -/

namespace Sys2Proof.Machine

variable {s t : State}

/-! ### Acceptance -/

theorem locate_cmd : locate (wordAddr 0x008) = .reg .cmd := by decide

/-- A CMD write while idle is command acceptance, whatever the word (60_exceptions.md R211). -/
theorem access_write_cmd (idle : s.eng = .idle) (d : Word) : s.access (.write (wordAddr 0x008) d) = s.accept d :=
  access_write_of_locate locate_cmd (.inl idle)

/-- CTRL is written in every engine state (20_memory.md R70). -/
theorem access_write_ctrl (s : State) (d : Word) : s.access (.write (wordAddr 0x004) d) = s.writeCtrl d :=
  access_write_of_locate (l := .reg .ctrl) (by decide) (.inr rfl)

/-- Settles O11: while idle the write is the acceptance of its word, while busy CMD is one of the refused locations. -/
theorem commandAcceptance : Obligations.CommandAcceptance := by
  refine fun s d => ⟨fun idle => ?_, fun d' busy => ?_⟩
  · rw [access_write_cmd idle]
    exact ⟨rfl, (State.busy_iff _).2 ⟨d, rfl⟩⟩
  · exact access_write_refused ((State.busy_iff s).2 ⟨d', busy⟩) (by rw [locate_cmd]; rfl)

/-! ### The step that completes a command -/

theorem completionStep_of_decode {d : Word} {i : Instr} (hd : decode d = .ok i) (s : State) :
    completionStep d s = exec i s := by
  simp only [completionStep, hd]

/-- A row of the opcode table is decoded as the command word it gives (30_encoding.md R91, R96). -/
theorem decode_of_decodeTableWord {nbits w : Nat} {i : Instr} (h : decodeTableWord nbits w = some i) :
    decode (BitVec.ofNat 32 (commandWord nbits w)) = .ok i := by
  unfold decodeTableWord at h
  split at h
  · cases hd : decode (BitVec.ofNat 32 (commandWord nbits w)) with
    | error r => simp [hd, Except.toOption] at h
    | ok j => simpa [hd, Except.toOption] using h
  · cases h

/-- `engineNext` lets the engine go before every pending input. -/
theorem engineNext_cases (pending : List Input) :
    engineNext pending = [] ∨ ∃ e rest, engineNext pending = ⟨true, e⟩ :: rest := by
  cases pending with
  | nil => exact .inl rfl
  | cons i rest => exact .inr ⟨i.event, rest, rfl⟩

/-- Settles O4: the turn is the engine's, and it completes the word in flight; `withFetchWord` is such a state. -/
theorem stepRunsTheDecodedCommand : Obligations.StepRunsTheDecodedCommand := by
  have runs {s : State} {d : Word} {i : Instr} (busy : s.eng = .busy d) (hd : decode d = .ok i)
      (inputs : s.inputs = [] ∨ ∃ e rest, s.inputs = ⟨true, e⟩ :: rest) : step s = exec i s :=
    (step_eq_completionStep busy inputs).trans (completionStep_of_decode hd s)
  exact ⟨fun s d i => runs, fun s nbits w i h => runs rfl (decode_of_decodeTableWord h) (engineNext_cases s.inputs)⟩

/-- Every command answers a next state (60_exceptions.md R210). -/
theorem exists_exec_eq_next (i : Instr) (s : State) : ∃ t, exec i s = .next t := by
  cases i with
  | clear => exact ⟨_, rfl⟩
  | count => rcases execCount_cases s with ⟨-, he⟩ | ⟨-, he⟩ <;> exact ⟨_, he⟩
  | build => rcases execBuild_cases s with ⟨-, he⟩ | ⟨-, he⟩ <;> exact ⟨_, he⟩
  | assign => rcases execAssign_cases s with ⟨-, he⟩ | ⟨-, he⟩ <;> exact ⟨_, he⟩
  | pack => rcases execPack_cases s with ⟨-, he⟩ | ⟨_, -, -, he⟩ | ⟨_, -, -, he⟩ <;> exact ⟨_, he⟩
  | unpack => rcases execUnpack_cases s with ⟨_, -, he⟩ | ⟨_, _, -, -, -, he⟩ | ⟨_, -, -, -, he⟩ <;> exact ⟨_, he⟩

/-- Every word's completion answers a next state (60_exceptions.md R210, 30_encoding.md R93). -/
theorem exists_completionStep_eq_next (d : Word) (s : State) : ∃ t, completionStep d s = .next t := by
  rcases completionStep_cases d s with ⟨i, -, he⟩ | ⟨_, -, he⟩
  · rw [he]; exact exists_exec_eq_next i s
  · exact ⟨_, he⟩

/-- Settles O6: a completion answers a next state, an input is delivered, and a run that has ended stays as it is. -/
theorem everyStepGoesOn : Obligations.EveryStepGoesOn := by
  intro s
  unfold step
  cases s.turn with
  | engine d => exact exists_completionStep_eq_next d s
  | input e rest => exact ⟨_, rfl⟩
  | ended => exact ⟨_, rfl⟩

/-! ### The results a command reports -/

/-- The result codes command `i` can report of state `s`, each with its ERR_INFO and why it was reported (60_exceptions.md R213,
R215). -/
inductive CommandReport (s : State) : Instr → ErrCode → Word → Prop
  | success (i : Instr) : CommandReport s i .ok 0#32
  | countLength (long : Config.bufBytes < s.inLen.toNat) : CommandReport s .count .length s.inLen
  | packLength (long : Config.bufBytes < s.inLen.toNat) : CommandReport s .pack .length s.inLen
  | unpackLength (long : Config.bufBytes < s.inLen.toNat) : CommandReport s .unpack .length s.inLen
  | emptyInput : CommandReport s .build .emptyInput 0#32
  | assignNoTree : CommandReport s .assign .noTree 0#32
  | unpackNoTree : CommandReport s .unpack .noTree 0#32
  | unknownSymbol (info : Word) (lt : info.toNat < s.inLen.toNat)
      (before : ∀ b ∈ s.inputBytes.take info.toNat, (codeAt s.codes b).valid = true)
      (invalid : (codeAt s.codes (s.inMem.read info.toNat)).valid = false) : CommandReport s .pack .unknownSymbol info
  | packOverflow (info : Word) (lt : info.toNat < s.inLen.toNat)
      (fits : (concatCodes s.codes (s.inputBytes.take info.toNat)).length ≤ Config.bufBits)
      (valid : (codeAt s.codes (s.inMem.read info.toNat)).valid = true)
      (long : Config.bufBits < (concatCodes s.codes (s.inputBytes.take info.toNat)).length +
        (codeAt s.codes (s.inMem.read info.toNat)).len.toNat) : CommandReport s .pack .outputOverflow info
  | invalidPadding : CommandReport s .unpack .invalidPadding (s.pad.setWidth 32)
  | malformedData (info : Word) (place : info.toNat = s.retainedCount ∨
        ((nodeAt s.nodes s.root).symbol?.isSome ∧ info.toNat < s.retainedCount ∧
          (streamBits s.inputBytes)[info.toNat]? = some true)) : CommandReport s .unpack .malformedData info
  | unpackOverflow (info : Word) (lt : info.toNat < s.retainedCount) (cs : List (Byte × BitString))
      (codewords : ∀ c ∈ cs, Codeword s.nodes s.root c.1 c.2) (full : cs.length = Config.bufBytes + 1)
      (bits : (streamBits s.inputBytes).take (info.toNat + 1) = cs.flatMap Prod.snd) :
      CommandReport s .unpack .outputOverflow info

theorem bufBytes_lt_inLen_of_not_lengthOk (illegal : s.lengthOk = false) : Config.bufBytes < s.inLen.toNat := by
  simpa [State.lengthOk] using illegal

/-- A packing loop that fails reports the first byte that has no code or whose code does not fit (43_bit_packer.md R172, R175). -/
theorem packLoop_report {r : Raise} (h : packLoop s.codes 0 0 s.inputBytes = .error r) :
    CommandReport s .pack r.code r.info := by
  obtain ⟨k, hk, info, before, fits, reason⟩ := packLoop_error h (Nat.zero_le _)
  have hlt : k < s.inLen.toNat := inputBytes_length s ▸ hk
  have hinfo : r.info.toNat = k := by rw [info, BitVec.toNat_ofNat]; omega
  have hbyte : s.inputBytes[k] = s.inMem.read k := by simp [State.inputBytes]
  rw [hbyte, Nat.zero_add] at reason
  rw [Nat.zero_add] at fits
  subst hinfo
  rcases reason with ⟨code, invalid⟩ | ⟨code, valid, long⟩ <;> rw [code]
  · exact .unknownSymbol _ hlt before invalid
  · exact .packOverflow _ hlt fits valid long

/-- The operand checks of UNPACK report LENGTH, INVALID_PADDING or NO_TREE (44_decoder.md R192). -/
theorem unpackCheck_report {r : Raise} (h : s.unpackCheck = some r) : CommandReport s .unpack r.code r.info := by
  by_cases long : 65536 < s.inLen.toNat
  · cases (unpackCheck_of_length long).symm.trans h
    exact .unpackLength long
  · have short : s.inLen.toNat ≤ 65536 := Nat.not_lt.1 long
    by_cases bad : 7 < s.pad.toNat ∨ 8 * s.inLen.toNat < s.pad.toNat
    · cases (unpackCheck_of_padding short bad).symm.trans h
      exact .invalidPadding
    · rw [unpackCheck_of_padding_ok short (by omega) (by omega)] at h
      split at h <;> cases h
      exact .unpackNoTree

/-- A retained bit is the bit of the stream at its index (44_decoder.md R191, R193). -/
theorem retainedBits_getElem? {m : Nat} (hm : m < s.retainedCount) :
    s.retainedBits[m]? = (streamBits s.inputBytes)[m]? := List.getElem?_take_of_lt hm

theorem take_retainedBits {m : Nat} (hm : m ≤ s.retainedCount) :
    s.retainedBits.take m = (streamBits s.inputBytes).take m := by
  rw [State.retainedBits, List.take_take, Nat.min_eq_left hm]

/-- A decoding that fails reports the bit it failed at (44_decoder.md R194, R195, R197). -/
theorem decodeBits_report {r : Raise} (check : s.unpackCheck = none)
    (h : (decodeBits s.nodes s.root s.retainedBits).failure = some r) : CommandReport s .unpack r.code r.info := by
  rcases decodeBits_failure h with ⟨m, rfl, place⟩ | ⟨m, hm, rfl, cs, codewords, full, bits⟩
  · rw [retainedBits_length] at place
    have hm : m ≤ s.retainedCount := place.elim Nat.le_of_eq fun inside => inside.2.1.le
    have hinfo : (malformedAt m).info.toNat = m := toNat_bitIndex check hm
    refine .malformedData _ ?_
    rw [hinfo]
    exact place.imp_right fun ⟨leaf, lt, one⟩ => ⟨leaf, lt, retainedBits_getElem? lt ▸ one⟩
  · rw [retainedBits_length] at hm
    rw [take_retainedBits hm] at bits
    have hinfo : (overflowAt m).info.toNat = m := toNat_bitIndex check hm.le
    exact .unpackOverflow _ (hinfo.symm ▸ hm) cs codewords full (hinfo.symm ▸ bits)

/-- What a command reports when it completes (60_exceptions.md R213, R215). -/
theorem exec_report {i : Instr} (h : exec i s = .next t) : CommandReport s i t.errCode t.errInfo := by
  cases i with
  | clear => cases h; exact .success _
  | count =>
    rcases execCount_cases s with ⟨illegal, he⟩ | ⟨-, he⟩ <;> cases he.symm.trans h
    · exact .countLength (bufBytes_lt_inLen_of_not_lengthOk illegal)
    · exact .success _
  | build =>
    rcases execBuild_cases s with ⟨-, he⟩ | ⟨-, he⟩ <;> cases he.symm.trans h
    · exact .emptyInput
    · exact .success _
  | assign =>
    rcases execAssign_cases s with ⟨-, he⟩ | ⟨-, he⟩ <;> cases he.symm.trans h
    · exact .assignNoTree
    · exact .success _
  | pack =>
    rcases execPack_cases s with ⟨illegal, he⟩ | ⟨r, -, hp, he⟩ | ⟨bits, -, -, he⟩ <;> cases he.symm.trans h
    · exact .packLength (bufBytes_lt_inLen_of_not_lengthOk illegal)
    · exact packLoop_report hp
    · exact .success _
  | unpack =>
    rcases execUnpack_cases s with ⟨r, hc, he⟩ | ⟨_, r, hc, rfl, hf, he⟩ | ⟨_, -, -, -, he⟩ <;> cases he.symm.trans h
    · exact unpackCheck_report hc
    · exact decodeBits_report hc hf
    · exact .success _

/-- Settles O28: each clause by the reports its command and its code leave possible. -/
theorem commandErrorsAreThoseListed : Obligations.CommandErrorsAreThoseListed := by
  intro i s t h
  have report := exec_report h
  generalize t.errCode = e, t.errInfo = info at report ⊢
  refine ⟨?degenerateTree, ?illegalCommand, ?clear, ?count, ?build, ?assign, ?pack, ?unpack, ?noInfo, ?length,
    ?invalidPadding, ?unknownSymbol, ?malformedData, ?packOverflow, ?unpackOverflow⟩
  case degenerateTree | illegalCommand => rintro rfl; cases report
  case clear => rintro rfl; cases report; rfl
  case count | build | assign | pack | unpack => rintro rfl; cases report <;> simp
  case noInfo => rintro (rfl | rfl | rfl) <;> cases report <;> rfl
  case length =>
    rintro rfl
    cases report with
    | countLength long | packLength long | unpackLength long => exact ⟨rfl, long⟩
  case invalidPadding => rintro rfl; cases report; rfl
  case unknownSymbol =>
    rintro rfl
    cases report with
    | unknownSymbol _ lt before invalid => exact ⟨lt, before, invalid⟩
  case malformedData =>
    rintro rfl
    cases report with
    | malformedData _ place => exact place
  case packOverflow =>
    rintro rfl rfl
    cases report with
    | packOverflow _ lt fits valid long => exact ⟨lt, fits, valid, long⟩
  case unpackOverflow =>
    rintro rfl rfl
    cases report with
    | unpackOverflow _ lt cs codewords full bits => exact ⟨lt, cs, codewords, full, bits⟩

/-! ### The completion and the interrupt line -/

/-- A completion that reports success leaves ERR_INFO 0 (60_exceptions.md R212). -/
theorem completionStep_errInfo_of_ok {d : Word} (h : completionStep d s = .next t) (ok : t.errCode = .ok) :
    t.errInfo = 0#32 := by
  rcases completionStep_cases d s with ⟨i, -, he⟩ | ⟨_, -, he⟩
  · have report := exec_report (he.symm.trans h)
    rw [ok] at report
    generalize t.errInfo = info at report ⊢
    cases report
    rfl
  · cases he.symm.trans h; cases ok

/-- Settles O12: every completion ends idle with DONE set, and only a command's own can report success. -/
theorem completionEndsTheCommand : Obligations.CompletionEndsTheCommand := by
  intro d s
  obtain ⟨t, ht⟩ := exists_completionStep_eq_next d s
  have result := completion_result ht
  refine ⟨t, ht, result.eng_idle, result.not_busy, result.done_set, completionStep_errInfo_of_ok ht,
    fun i hd => completionStep_of_decode hd s, fun illegal => ?_⟩
  rcases completionStep_cases d s with ⟨i, hd, -⟩ | ⟨_, -, he⟩
  · exact absurd hd (illegal i)
  · cases he.symm.trans ht; rfl

theorem CompletionResult.ie_eq {d : Word} (h : CompletionResult s d t) : t.ie = s.ie := by
  cases h <;> rfl

/-- Settles O23: a completion keeps IE and sets DONE; the writes clear DONE or store IE. -/
theorem interruptLine : Obligations.InterruptLine := by
  refine ⟨fun s => by simp [State.irq], fun d s t h => ?_, fun s d clears => ?_, fun s d idle => ?_, fun s d => ?_⟩
  · have result := completion_result h
    simp [State.irq, result.ie_eq, result.done_set]
  · simp [State.irq, access_write_status, clears]
  · simp [State.irq, access_write_cmd idle]
  · simp [State.irq, access_write_ctrl]

/-! ### HOSTERR -/

/-- An access that sets HOSTERR is a refusal, which changes no other flag (60_exceptions.md R222). -/
theorem AccessResult.keeps_of_hostErr_rises {a : Access} (h : AccessResult s a t) (hs : s.hostErr = false)
    (ht : t.hostErr = true) : t.eng = s.eng ∧ t.errCode = s.errCode ∧ t.irq = s.irq := by
  cases h with
  | readRefused | writeRefused => exact ⟨rfl, rfl, rfl⟩
  | cleared d => simp [hs] at ht
  | _ => exact absurd (hs.symm.trans ht) Bool.false_ne_true

/-- Settles O24: what clears HOSTERR and what sets it over a step, the latter being a refused access. -/
theorem hostErrIsSticky : Obligations.HostErrIsSticky := by
  refine ⟨fun s t h hs ht => (step_hostErr_falls h hs ht).symm, fun s t h hs ht => ?_⟩
  obtain ⟨busy, a, rest, turn⟩ := step_hostErr_rises h hs ht
  obtain rfl : ({ s with inputs := rest } : State).access a = t := by simpa [step, turn, State.deliver] using h
  obtain ⟨eng, errCode, irq⟩ := (access_result { s with inputs := rest } a).keeps_of_hostErr_rises hs ht
  exact ⟨busy, eng, errCode, irq, a, rest, turn⟩

end Sys2Proof.Machine
end

section
/-! PROOFS. Reset (70_reset_and_hazards.md R240, R241): what the host reads after it, that it abandons a command in flight, and
`State.reset` among the states it leaves; and the completion of every accepted command (R251). -/

namespace Sys2Proof.Machine

/-! ### What the host reads after reset -/

section
variable (s : State) (draw : ResetDraw)

/-- BUSY, DONE, ERROR, ERRCODE, TREE_VALID and HOSTERR are 0 after reset (R241). -/
theorem State.afterReset_statusWord : (s.afterReset draw).statusWord = 0#32 := by
  simp [State.statusWord, State.busy, State.error, ErrCode.bits]

/-- Byte i of IN_MEM after reset is the draw's (R241; log entry 3). -/
theorem State.afterReset_inMem_read {i : Nat} (hi : i < 65536) :
    (s.afterReset draw).inMem.read i = draw.inBytes.getD i 0#8 := by
  have drawn : (draw.inBytes.take Config.bufBytes)[i]? = draw.inBytes[i]? := List.getElem?_take_of_lt hi
  rw [State.afterReset_inMem, Memory.read_cells, if_pos i.zero_le, Nat.sub_zero, List.getD_eq_getElem?_getD, drawn,
    List.getD_eq_getElem?_getD, Config.unlistedByte]

/-- OUT_LEN is 0 after reset, so no byte of OUT_MEM shows (R241, 20_memory.md R71). -/
theorem State.afterReset_outByte (i : Nat) : (s.afterReset draw).outByte i = 0#8 := if_neg i.not_lt_zero

theorem State.afterReset_peek_outWord (m : BitVec 14) : (s.afterReset draw).peek (.outWord m) = 0#32 := by
  simp only [State.peek, wordAt, State.afterReset_outByte]
  rfl

/-- A reply is part of no location's value (20_memory.md R61). -/
theorem State.peek_reply (v : Word) (l : Loc) : (s.reply v).peek l = s.peek l := by
  cases l with
  | reg r => cases r <;> rfl
  | freq | node | code | inWord | outWord | reserved => rfl

end

/-- Settles O1: the cleared registers read 0, NODE_COUNT, the valid bits and OUT_LEN gate their windows, and an idle block answers
a read with nothing but the reply. -/
theorem resetLeavesTheSpecValues : Obligations.ResetLeavesTheSpecValues := by
  intro s draw t
  have invalid (sym : Byte) : (codeAt t.codes sym).valid = false := invalidateCodes_invalid _ sym
  have read (l : Loc) : t.hostRead l = t.reply (t.peek l) := hostRead_of_idle rfl l
  exact ⟨rfl, rfl, rfl, State.afterReset_statusWord s draw, rfl, rfl, rfl, rfl, rfl, rfl, rfl, rfl, rfl, fun _ => rfl,
    fun _ k => State.peek_node_of_ge (Nat.zero_le _) k,
    fun sym _ => ⟨invalid sym, if_neg (Bool.eq_false_iff.1 (invalid sym))⟩,
    fun _ hi => State.afterReset_inMem_read s draw hi, State.afterReset_peek_outWord s draw,
    fun l => ⟨read l, fun l' => by rw [read, State.peek_reply]⟩⟩

/-! ### Reset abandons the command -/

/-- Settles O3: the reset input has its turn, and its delivery is the state after reset. -/
theorem resetAbandonsTheCommand : Obligations.ResetAbandonsTheCommand :=
  fun _ _ _ _ inputs first => ⟨_, step_eq_deliver inputs first, rfl, rfl, rfl, rfl, rfl, rfl, rfl⟩

/-! ### The state the model starts from -/

/-- The contents of `State.reset` as a draw (log entry 2). -/
def powerOnDraw : ResetDraw where
  freq := State.reset.freq
  nodes := State.reset.nodes
  codes := State.reset.codes
  inBytes := []
  outBytes := []

theorem afterReset_powerOnDraw : State.reset.afterReset powerOnDraw = State.reset := by
  have codes : invalidateCodes State.reset.codes = State.reset.codes :=
    invalidateCodes_of_invalid fun b => by simp [State.reset, codeAt]
  rw [State.afterReset]
  simp only [powerOnDraw, codes]
  rfl

/-- Settles O2: reset leaves `State.reset` when it draws that state's own contents. -/
theorem resetStateIsOneThatResetLeaves : Obligations.ResetStateIsOneThatResetLeaves := ⟨powerOnDraw, afterReset_powerOnDraw⟩

/-- Settles O56: every state that reset leaves has the invariant, and `State.reset` is one of them. -/
theorem invariantHoldsAtReset : Obligations.InvariantHoldsAtReset := by
  have drawn : (State.reset.afterReset powerOnDraw).Inv := State.reset.inv_afterReset powerOnDraw
  rw [afterReset_powerOnDraw] at drawn
  exact drawn

/-! ### An accepted command completes -/

/-- Some run of at most `n` steps leads from `s` to the command's completion step, the engine keeping the word until then (R251). -/
def CompletesWithin (n : Nat) (d : Word) (s : State) : Prop :=
  ∃ k ≤ n, ∃ t u, Host.Core.run Sys2Proof.core k s = .next t ∧ t.eng = .busy d ∧
    step t = completionStep d t ∧ step t = .next u ∧ u.eng = .idle ∧ u.done = true

variable {s t : State} {d : Word}

/-- Where the engine's turn is next, no step comes before the completion (60_exceptions.md R212). -/
theorem completesWithin_of_engine_turn (busy : s.eng = .busy d)
    (turn : s.inputs = [] ∨ ∃ e rest, s.inputs = ⟨true, e⟩ :: rest) (n : Nat) : CompletesWithin n d s := by
  have engine := step_eq_completionStep busy turn
  obtain ⟨u, hu⟩ := exists_completionStep_eq_next d s
  have result := completion_result hu
  exact ⟨0, n.zero_le, s, u, rfl, busy, engine, engine.trans hu, result.eng_idle, result.done_set⟩

theorem CompletesWithin.of_step {n : Nat} (h : step s = .next t) (later : CompletesWithin n d t) :
    CompletesWithin (n + 1) d s := by
  obtain ⟨k, hk, t', u, run, completion⟩ := later
  exact ⟨k + 1, Nat.succ_le_succ hk, t', u, (run_next h).trans run, completion⟩

/-- While busy an access leaves the word in flight and what is still pending (20_memory.md R70). -/
theorem access_keeps_of_busy (busy : s.eng = .busy d) (a : Access) :
    (s.access a).eng = .busy d ∧ (s.access a).inputs = s.inputs := by
  have only := (access_result s a).eq_withHostFields ((State.busy_iff s).2 ⟨d, busy⟩)
  rw [only]
  exact ⟨busy, rfl⟩

/-- Without a reset among the pending inputs the command completes at the latest when none is left: each of them is let go before
it, or is a host access that the engine outlasts (R251; log entry 1). -/
theorem completesWithin_inputs {pending : List Input} (busy : s.eng = .busy d) (inputs : s.inputs = pending)
    (noReset : ∀ i ∈ pending, ∀ draw, i.event ≠ .reset draw) : CompletesWithin pending.length d s := by
  induction pending generalizing s with
  | nil => exact completesWithin_of_engine_turn busy (.inl inputs) _
  | cons i rest ih =>
    obtain ⟨hnot, hrest⟩ := List.forall_mem_cons.1 noReset
    match i with
    | ⟨true, e⟩ => exact completesWithin_of_engine_turn busy (.inr ⟨e, rest, inputs⟩) _
    | ⟨false, .reset draw⟩ => exact absurd rfl (hnot draw)
    | ⟨false, .host a⟩ =>
      obtain ⟨keepsWord, keepsInputs⟩ := access_keeps_of_busy (s := { s with inputs := rest }) busy a
      exact .of_step (step_eq_deliver inputs (.inr rfl)) (ih keepsWord keepsInputs hrest)

/-- Settles O7, by induction on the pending inputs. -/
theorem acceptedCommandCompletes : Obligations.AcceptedCommandCompletes :=
  fun _ _ busy noReset => completesWithin_inputs busy rfl noReset

end Sys2Proof.Machine
end
